-- ==== Sys2Proof/Config.lean ====
section
/-! DEFINITION. What an implementation of the SEA codec engine fixes (spec/00_scope.md R7, R8).
The capacities that R8 leaves OPEN are unbounded here, which R8 calls exact; log entry 5. -/

namespace Sys2Proof.Config

/-- `SYM_MAX` of R8: the largest code point a symbol can hold. The value is the one the spec takes
(D5, from general knowledge, G1); log entry 4. -/
def symMax : Nat := 0x10FFFF

/-- The default Golomb parameter `k` (R7), the reset value of `GR.K`. -/
def grDefaultK : Nat := 64

/-- The default Repetition factor `r` (R7), the reset value of `REP.R`. -/
def repDefaultR : Nat := 3

/-- The default CRC generator `1001` (R7), the reset value of `CRC.GEN`. -/
def crcDefaultGen : List Bool := [true, false, false, true]

/-- The seed of the Fibonacci sequence (R7), the reset value of `FIB.CACHE`. -/
def fibSeed : List Nat := [1, 2]

end Sys2Proof.Config
end

