-- ==== Sys2Proof/Word.lean ====
section
/-! DEFINITION. The value types of the SEA codec engine's data: bits, cells and their sequences
(spec/00_scope.md R9, R10), and the eight-bit command word (spec/30_encoding.md R90). -/

namespace Sys2Proof

/-- `Bit` of R9: `false` is the bit 0, `true` the bit 1. -/
abbrev Bit := Bool

/-- `BitSeq` of R9; element 0 is the first, leftmost bit (R10). -/
abbrev BitSeq := List Bit

/-- `Cell` of R9 (decision D4): a received bit, or `bX`, which stands for any other character. -/
inductive Cell where
  | b0
  | b1
  | bX
deriving DecidableEq, Repr

/-- `CellSeq` of R9: the received text of a bit-level operand. -/
abbrev CellSeq := List Cell

/-- The command word of R90: eight bits, bit 0 the least significant (R11). -/
abbrev Byte := BitVec 8

end Sys2Proof
end

