-- ==== Sys2Proof/Syntax.lean ====
section
/-! DEFINITION. The commands of the SEA codec engine: one constructor per row of
spec/opcode_table.json (spec/30_encoding.md R93). A command word carries a unit and an operation and
nothing else (R101), so no constructor has an operand; operands stand on the ports of the state. -/

namespace Sys2Proof

/-- The `UNIT` field of a legal command word (R91). -/
inductive UnitId where
  | gr
  | eg
  | fib
  | huf
  | rep
  | crc
  | ham
deriving DecidableEq, Repr

/-- The `OP` field of a command word (R92). -/
inductive Op where
  | enc
  | dec
  | val
  | cfg
deriving DecidableEq, Repr

/-- The 28 commands of R93. -/
inductive Instr where
  | grEnc
  | grDec
  | grVal
  | grCfg
  | egEnc
  | egDec
  | egVal
  | egCfg
  | fibEnc
  | fibDec
  | fibVal
  | fibCfg
  | hufEnc
  | hufDec
  | hufVal
  | hufCfg
  | repEnc
  | repDec
  | repVal
  | repCfg
  | crcEnc
  | crcDec
  | crcVal
  | crcCfg
  | hamEnc
  | hamDec
  | hamVal
  | hamCfg
deriving DecidableEq, Repr

end Sys2Proof
end

