-- ==== Sys2Proof/WellFormed.lean ====
section
/-! DEFINITION. Well-formedness of command words (spec/30_encoding.md R90, R96). A command has no
operand field, so every check there is to make of a command is a check of its word. -/

namespace Sys2Proof

/-- Bit 7 of the word, the field `Z1` of R90, is 0. -/
def wordZ1Ok (w : Byte) : Bool := w.extractLsb' 7 1 == 0#1

/-- Bits 3:2 of the word, the field `Z0` of R90, are 00. -/
def wordZ0Ok (w : Byte) : Bool := w.extractLsb' 2 2 == 0#2

/-- Bits 6:4 of the word, the field `UNIT` of R90, are at most 6. -/
def wordUnitOk (w : Byte) : Bool := w.extractLsb' 4 3 ≤ 6#3

/-- A legal command word (R90); every other word is illegal (R96). -/
def legalWord (w : Byte) : Bool := wordZ1Ok w && wordZ0Ok w && wordUnitOk w

end Sys2Proof
end

