-- ==== Sys2Proof/Decode.lean ====
section
/-! DEFINITION. The decoder of command words, total and rejecting by name, and the encoder
(spec/30_encoding.md R90 to R93, R96, R97). -/

namespace Sys2Proof

/-- Why bytes are no command. The engine gives all of the first three the same outcome,
`ILLEGAL_CMD` (R96); which of several applies is named in the order of R90's table. -/
inductive DecodeError where
  /-- bit 7, the field `Z1`, is set -/
  | reservedZ1
  /-- bits 3:2, the field `Z0`, are not 00 -/
  | reservedZ0
  /-- `UNIT` is 7 -/
  | reservedUnit
  /-- there is no byte to read -/
  | noWord
deriving DecidableEq, Repr

/-- Bit 7 of a command word, which must be 0 (R90). -/
def fieldZ1 (w : Byte) : BitVec 1 := w.extractLsb' 7 1

/-- Bits 6:4 of a command word, the unit (R90). -/
def fieldUnit (w : Byte) : BitVec 3 := w.extractLsb' 4 3

/-- Bits 3:2 of a command word, which must be 00 (R90). -/
def fieldZ0 (w : Byte) : BitVec 2 := w.extractLsb' 2 2

/-- Bits 1:0 of a command word, the operation (R90). -/
def fieldOp (w : Byte) : BitVec 2 := w.extractLsb' 0 2

/-- The unit a `UNIT` field names (R91); 7 is reserved. -/
def decodeUnit (u : BitVec 3) : Option UnitId :=
  match u.toNat with
  | 0 => some .gr
  | 1 => some .eg
  | 2 => some .fib
  | 3 => some .huf
  | 4 => some .rep
  | 5 => some .crc
  | 6 => some .ham
  | _ => none

/-- The operation an `OP` field names (R92). -/
def decodeOp (o : BitVec 2) : Op :=
  match o.toNat with
  | 0 => .enc
  | 1 => .dec
  | 2 => .val
  | _ => .cfg

/-- The command of a unit and an operation (R93). -/
def instrOf : UnitId → Op → Instr
  | .gr, .enc => .grEnc
  | .gr, .dec => .grDec
  | .gr, .val => .grVal
  | .gr, .cfg => .grCfg
  | .eg, .enc => .egEnc
  | .eg, .dec => .egDec
  | .eg, .val => .egVal
  | .eg, .cfg => .egCfg
  | .fib, .enc => .fibEnc
  | .fib, .dec => .fibDec
  | .fib, .val => .fibVal
  | .fib, .cfg => .fibCfg
  | .huf, .enc => .hufEnc
  | .huf, .dec => .hufDec
  | .huf, .val => .hufVal
  | .huf, .cfg => .hufCfg
  | .rep, .enc => .repEnc
  | .rep, .dec => .repDec
  | .rep, .val => .repVal
  | .rep, .cfg => .repCfg
  | .crc, .enc => .crcEnc
  | .crc, .dec => .crcDec
  | .crc, .val => .crcVal
  | .crc, .cfg => .crcCfg
  | .ham, .enc => .hamEnc
  | .ham, .dec => .hamDec
  | .ham, .val => .hamVal
  | .ham, .cfg => .hamCfg

/-- The command a word names (R90 to R93), or why it names none (R96). -/
def decode (w : Byte) : Except DecodeError Instr :=
  if fieldZ1 w ≠ 0#1 then .error .reservedZ1
  else if fieldZ0 w ≠ 0#2 then .error .reservedZ0
  else
    match decodeUnit (fieldUnit w) with
    | none => .error .reservedUnit
    | some u => .ok (instrOf u (decodeOp (fieldOp w)))

/-- The decoder on a string of bytes: a command is one byte, never longer or shorter (R90). -/
def decodeBytes : List Byte → Except DecodeError (Instr × List Byte)
  | [] => .error .noWord
  | w :: rest =>
    match decode w with
    | .error e => .error e
    | .ok i => .ok (i, rest)

/-- The unit of a command (R93, the part of its mnemonic before the dot). -/
def Instr.unitOf : Instr → UnitId
  | .grEnc | .grDec | .grVal | .grCfg => .gr
  | .egEnc | .egDec | .egVal | .egCfg => .eg
  | .fibEnc | .fibDec | .fibVal | .fibCfg => .fib
  | .hufEnc | .hufDec | .hufVal | .hufCfg => .huf
  | .repEnc | .repDec | .repVal | .repCfg => .rep
  | .crcEnc | .crcDec | .crcVal | .crcCfg => .crc
  | .hamEnc | .hamDec | .hamVal | .hamCfg => .ham

/-- The operation of a command (R93, the part of its mnemonic after the dot). -/
def Instr.opOf : Instr → Op
  | .grEnc | .egEnc | .fibEnc | .hufEnc | .repEnc | .crcEnc | .hamEnc => .enc
  | .grDec | .egDec | .fibDec | .hufDec | .repDec | .crcDec | .hamDec => .dec
  | .grVal | .egVal | .fibVal | .hufVal | .repVal | .crcVal | .hamVal => .val
  | .grCfg | .egCfg | .fibCfg | .hufCfg | .repCfg | .crcCfg | .hamCfg => .cfg

/-- The `UNIT` field of a unit (R91). -/
def encodeUnit : UnitId → BitVec 3
  | .gr => 0#3
  | .eg => 1#3
  | .fib => 2#3
  | .huf => 3#3
  | .rep => 4#3
  | .crc => 5#3
  | .ham => 6#3

/-- The `OP` field of an operation (R92). -/
def encodeOp : Op → BitVec 2
  | .enc => 0#2
  | .dec => 1#2
  | .val => 2#2
  | .cfg => 3#2

/-- The word of a command (R90): `Z1`, `UNIT`, `Z0`, `OP` from bit 7 down, so `16*UNIT + OP`. -/
def encode (i : Instr) : Byte :=
  0#1 ++ encodeUnit i.unitOf ++ 0#2 ++ encodeOp i.opOf

/-- A command is well formed when its word is legal (R90). -/
def wellFormed (i : Instr) : Bool := legalWord (encode i)

/-- The instruction the decoder reads from the table's bits: one byte, the bits of `w`, laid out as
the one command word. A number that does not fit the row's eight bits is no command word (R90). -/
def decodeTableWord (nbits w : Nat) : Option Instr :=
  if nbits = 8 ∧ w < 256 then
    match decodeBytes [BitVec.ofNat 8 w] with
    | .ok (i, _) => some i
    | .error _ => none
  else none

end Sys2Proof
end

