-- ==== Sys2Proof/Machine/State.lean ====
section
/-! DEFINITION. The architectural state of the SEA codec engine, element by element of
spec/10_state.md R22, the ports through which the host drives it (spec/20_memory.md R60, R61, R71),
the outcomes of a step, and the state after reset (spec/70_reset_and_hazards.md R371). -/

namespace Sys2Proof.Machine

/-- `Sym` of R9: a code point `0 .. SYM_MAX`. The bound is the type's, as R124 says. -/
abbrev Sym := Fin (Config.symMax + 1)

/-- `SymSeq` of R9: a text. -/
abbrev SymSeq := List Sym

/-- The `Param` operand of a `CFG` command, in its two forms (R95). -/
inductive Param where
  /-- `PInt(z)`: any integer -/
  | pInt (z : Int)
  /-- `PGen(g)`: a generator as received -/
  | pGen (g : CellSeq)
deriving DecidableEq, Repr

/-- A node of the Huffman arena (R33). Handles are natural numbers, the nodes' places in it. -/
inductive Node where
  | leaf (sym : Sym) (weight : Nat)
  | inner (weight left right : Nat)
deriving DecidableEq, Repr

/-- A diagnostic record (R26). -/
inductive DiagRec where
  /-- tag 1: block `index` of a repetition code was not unanimous -/
  | repFix (index : Nat) (original : BitSeq) (value : Bit)
  /-- tag 2: parity bit `pos` of a Hamming block was wrong -/
  | hamParity (block pos : Nat)
  /-- tag 3: data bit `pos` of a Hamming block was flipped -/
  | hamData (block pos : Nat) (orig fixed : Bit)
  /-- tag 4: a CRC remainder was not all zeros -/
  | crcDetect (rem : BitSeq)
deriving DecidableEq, Repr

/-- `ERRINFO` (R25). -/
structure ErrInfo where
  sub : Nat
  index : Nat
  data : CellSeq
deriving DecidableEq, Repr

/-- The outcome codes of `STATUS.ERR` (R330). -/
inductive ErrCode where
  | ok
  | invalidInput
  | malformedInput
  | uncorrectable
  | usage
  | illegalCmd
deriving DecidableEq, Repr

/-- Every cause of an error outcome, one constructor per row of R331 with what the row records. -/
inductive Cause where
  /-- 1/1 `ZERO_SYMBOL`, raised by `EG.ENC` and `FIB.ENC` -/
  | zeroSymbol (index : Nat)
  /-- 1/2 `NON_BINARY`, raised by `REP.ENC`, `CRC.ENC` and `HAM.ENC` -/
  | encNonBinary (index : Nat)
  /-- 2/1 `NON_BINARY`, raised by every `DEC` -/
  | decNonBinary (index : Nat)
  /-- 2/2 `BAD_LENGTH`, raised by `REP.DEC`, `HAM.DEC` and `CRC.DEC` -/
  | badLength (length : Nat)
  /-- 2/3 `TRUNCATED`, raised by `GR.DEC`, `EG.DEC`, `FIB.DEC` and `HUF.DEC` -/
  | truncated (start : Nat)
  /-- 2/4 `OUT_OF_RANGE`, raised by `GR.DEC`, `EG.DEC` and `FIB.DEC` -/
  | outOfRange (start : Nat)
  /-- 2/5 `NO_SUCH_CODE`, raised by `HUF.DEC` -/
  | noSuchCode (index : Nat)
  /-- 3/1 `TIE`, raised by `REP.DEC` -/
  | tie (block : Nat) (cells : CellSeq)
  /-- 3/2 `INCONSISTENT`, in the text of `HAM.DEC` and never reached (R309) -/
  | inconsistent (block : Nat) (cells : CellSeq)
  /-- 4/1 `NO_TREE`, raised by `HUF.DEC` -/
  | noTree
  /-- 5/0, raised by an illegal command word -/
  | illegalCmd (word : Byte)
deriving DecidableEq, Repr

/-- The fields of `STATUS` that a successful command can set (R23). -/
structure Report where
  rej : Bit := false
  valid : Bit := false
  detect : Bit := false
  corr : Bit := false
  pad : BitVec 2 := 0#2
deriving DecidableEq, Repr

/-- A move of the host (R60). Reading the result registers changes nothing (R70), so it is no move. -/
inductive HostMove where
  /-- assert `RESET` (R370) -/
  | reset
  /-- present a command word together with what the operand ports carry (R60, R61) -/
  | command (word : Byte) (syms : SymSeq) (cells : CellSeq) (param : Param)
  /-- present a command word with the last result copied onto the stream ports (R60); the `IN_BIT` half
  is the listing's `$` (R98), the `IN_SYM` half and `PARAM` are the model's (log entry 12) -/
  | chain (word : Byte)
deriving DecidableEq, Repr

/-- The whole state: the persistent and the result elements of R22, then the ports toward the block
(R71), then the moves the host has yet to make (the model's own field; log entry 1). The working
registers of R22 are local to the meanings, as R22 and R45 allow; log entry 3. -/
structure State where
  /-- `GR.K` (R30) -/
  grK : Nat
  /-- `GR.SUFLEN` (R31) -/
  grSuflen : Nat
  /-- `FIB.CACHE` (R32) -/
  fibCache : List Nat
  /-- `HUF.HAVE` (R34) -/
  hufHave : Bit
  /-- `HUF.NODES` (R33) -/
  hufNodes : List Node
  /-- `HUF.ROOT` (R34); `none` is the handle `NONE` -/
  hufRoot : Option Nat
  /-- `HUF.TABLE` (R34), a finite map held as pairs with the symbols strictly rising -/
  hufTable : List (Sym × BitSeq)
  /-- `REP.R` (R35) -/
  repR : Nat
  /-- `CRC.GEN` (R36), the leading bit first -/
  crcGen : BitSeq
  /-- `CRC.DEG` (R37) -/
  crcDeg : Nat
  /-- `STATUS` (R23) -/
  status : BitVec 16
  /-- `ERRINFO` (R25) -/
  errInfo : ErrInfo
  /-- `OUT_SYM` (R24) -/
  outSym : SymSeq
  /-- `OUT_BIT` (R24) -/
  outBit : BitSeq
  /-- `DIAG` (R26) -/
  diag : List DiagRec
  /-- the port `CMD` -/
  cmd : Byte
  /-- the port `IN_SYM` -/
  inSym : SymSeq
  /-- the port `IN_BIT` -/
  inBit : CellSeq
  /-- the port `PARAM` -/
  param : Param
  /-- the host's moves to come, the next one first -/
  host : List HostMove
deriving DecidableEq, Repr

/-- The faults of the model. The spec gives the engine none: every command ends with an outcome in the
result registers (R120, R335). Both constructors stand for an internal look-up that R137 says can not
miss; no state that satisfies R44 raises one. Safe: the model stops, it makes nothing up. -/
inductive Fault where
  /-- raised by `HUF.DEC` when a handle it must follow is no inner node of the arena; safe -/
  | danglingHandle
  /-- raised by `HUF.ENC` when the table it has just built lacks a symbol of its operand; safe -/
  | tableMiss
deriving DecidableEq, Repr

/-- The refusals of the model. Every command has its meaning, so no step answers one. -/
inductive Refusal where
  /-- raised by an arm of `exec` whose instruction has no meaning yet (there is none); safe -/
  | notModelled (mnemonic : String)
deriving DecidableEq, Repr

/-- `ERRINFO` when nothing failed (R25). -/
def ErrInfo.clear : ErrInfo := { sub := 0, index := 0, data := [] }

/-- The state after reset (R371). The ports and the host's moves are the host's, not the engine's: they
are empty here, and no command runs until the host makes a move (log entries 1 and 2). -/
def State.reset : State where
  grK := Config.grDefaultK
  grSuflen := 6
  fibCache := Config.fibSeed
  hufHave := false
  hufNodes := []
  hufRoot := none
  hufTable := []
  repR := Config.repDefaultR
  crcGen := Config.crcDefaultGen
  crcDeg := 4
  status := 0#16
  errInfo := ErrInfo.clear
  outSym := []
  outBit := []
  diag := []
  cmd := 0#8
  inSym := []
  inBit := []
  param := .pInt 0
  host := []

end Sys2Proof.Machine
end

