-- ==== Sys2Proof/Machine/Flags.lean ====
section
/-! DEFINITION. The status word and its fields (spec/10_state.md R23), the outcome codes
(spec/60_exceptions.md R330) and what each cause records (R331). -/

namespace Sys2Proof.Machine

/-- The code of `STATUS.ERR` (R330); 6 and 7 are never written. -/
def ErrCode.bits : ErrCode → BitVec 3
  | .ok => 0#3
  | .invalidInput => 1#3
  | .malformedInput => 2#3
  | .uncorrectable => 3#3
  | .usage => 4#3
  | .illegalCmd => 5#3

/-- The layout of `STATUS` (R23): zeros, `PAD`, `CORR`, `DETECT`, `VALID`, `REJ`, `ERR` from bit 15 down. -/
def layStatus (err : ErrCode) (r : Report) : BitVec 16 :=
  0#7 ++ r.pad ++ BitVec.ofBool r.corr ++ BitVec.ofBool r.detect ++ BitVec.ofBool r.valid ++
    BitVec.ofBool r.rej ++ err.bits

/-- `STATUS` of a command that ended with `ERR = OK`: a field with no reason to be set is 0 (R23). -/
def okStatus (r : Report) : BitVec 16 := layStatus .ok r

/-- `STATUS` of an error outcome: `zext_16(code)`, every other field 0 (R335). -/
def errStatus (e : ErrCode) : BitVec 16 := e.bits.setWidth 16

/-- `STATUS[2:0]`, the field `ERR` (R23). -/
def statusErr (w : BitVec 16) : BitVec 3 := w.extractLsb' 0 3

/-- `STATUS[3]`, the field `REJ` (R23). -/
def statusRej (w : BitVec 16) : Bit := w.getLsbD 3

/-- `STATUS[4]`, the field `VALID` (R23). -/
def statusValid (w : BitVec 16) : Bit := w.getLsbD 4

/-- `STATUS[5]`, the field `DETECT` (R23). -/
def statusDetect (w : BitVec 16) : Bit := w.getLsbD 5

/-- `STATUS[6]`, the field `CORR` (R23). -/
def statusCorr (w : BitVec 16) : Bit := w.getLsbD 6

/-- `STATUS[8:7]`, the field `PAD` (R23). -/
def statusPad (w : BitVec 16) : BitVec 2 := w.extractLsb' 7 2

/-- `STATUS[15:9]`, always written 0 (R23). -/
def statusZero (w : BitVec 16) : BitVec 7 := w.extractLsb' 9 7

/-- The outcome code of a cause (R331, column `ERR`). -/
def Cause.code : Cause → ErrCode
  | .zeroSymbol _ | .encNonBinary _ => .invalidInput
  | .decNonBinary _ | .badLength _ | .truncated _ | .outOfRange _ | .noSuchCode _ => .malformedInput
  | .tie _ _ | .inconsistent _ _ => .uncorrectable
  | .noTree => .usage
  | .illegalCmd _ => .illegalCmd

/-- What `ERRINFO` records for a cause (R331, columns `SUB`, `INDEX`, `DATA`). -/
def Cause.info : Cause → ErrInfo
  | .zeroSymbol i => { sub := 1, index := i, data := [] }
  | .encNonBinary i => { sub := 2, index := i, data := [] }
  | .decNonBinary i => { sub := 1, index := i, data := [] }
  | .badLength l => { sub := 2, index := l, data := [] }
  | .truncated i => { sub := 3, index := i, data := [] }
  | .outOfRange i => { sub := 4, index := i, data := [] }
  | .noSuchCode i => { sub := 5, index := i, data := [] }
  | .tie j blk => { sub := 1, index := j, data := blk }
  | .inconsistent j blk => { sub := 2, index := j, data := blk }
  | .noTree => { sub := 1, index := 0, data := [] }
  | .illegalCmd w => { sub := 0, index := w.toNat, data := [] }

/-- The tag of a diagnostic record (R26). -/
def DiagRec.tag : DiagRec → Nat
  | .repFix .. => 1
  | .hamParity .. => 2
  | .hamData .. => 3
  | .crcDetect .. => 4

/-- `STATUS.CORR` of a decoder that gathered the records `dg` (R242, R304): 1 when there is one. -/
def corrOf (dg : List DiagRec) : Bit := !dg.isEmpty

end Sys2Proof.Machine
end

