-- ==== Sys2Proof/Machine/Operands.lean ====
section
/-! DEFINITION. The bit-string utilities (spec/40_common.md R125 to R128, spec/00_scope.md R12), the
operand forms and their checks (R122 to R124), and the operand cursor (spec/20_memory.md R63). -/

namespace Sys2Proof.Machine

/-- `clog2(k)`: the least `s` with `2^s >= k`, for `k >= 1` (R12). -/
def clog2 (k : Nat) : Nat := if k ≤ 1 then 0 else Nat.log2 (k - 1) + 1

/-- `flog2(v)`: the greatest `n` with `2^n <= v`, for `v >= 1` (R12). -/
def flog2 (v : Nat) : Nat := Nat.log2 v

/-- `bin(v, w)`: the low `w` bits of `v`, most significant first (R125). -/
def bin (v : Nat) : Nat → BitSeq
  | 0 => []
  | w + 1 => v.testBit w :: bin v w

/-- `val(s)`: the number a bit sequence spells, most significant bit first (R126). -/
def val (s : BitSeq) : Nat := s.foldl (fun a b => 2 * a + b.toNat) 0

/-- `unary(n)`: `n` zeros and the stop bit (R127). -/
def unary (n : Nat) : BitSeq := List.replicate n false ++ [true]

/-- Element-wise `xor` of two sequences of equal length (R12). -/
def xorSeq (a b : BitSeq) : BitSeq := List.zipWith Bool.xor a b

/-- The cell that carries a bit; how a result becomes an operand (R62). -/
def cellOfBit : Bit → Cell
  | false => .b0
  | true => .b1

/-- `OUT_BIT` as a cells operand (R62). -/
def cellsOf (s : BitSeq) : CellSeq := s.map cellOfBit

/-- The cell a character of the host's text becomes (R62). -/
def cellOfChar (c : Char) : Cell :=
  if c = '0' then .b0 else if c = '1' then .b1 else .bX

/-- The character the host reads for a bit of `OUT_BIT` (R62). -/
def charOfBit : Bit → Char
  | false => '0'
  | true => '1'

/-- The bit a binary cell carries (R9). `bX` carries none: it is only read after the alphabet check. -/
def cellBit : Cell → Bit
  | .b1 => true
  | .b0 | .bX => false

/-- The least index of a `BX` cell (R122). -/
def firstBX (cs : CellSeq) : Option Nat := cs.findIdx? (· == .bX)

/-- The least index of the code point zero (R123). -/
def firstZero (m : SymSeq) : Option Nat := m.findIdx? (fun v => v.val == 0)

/-- The alphabet check of a cells operand (R122): the bits it carries, or the cause that the
command's operation names for the first `BX`. -/
def alphabetCheck (cause : Nat → Cause) (cs : CellSeq) : Except Cause BitSeq :=
  match firstBX cs with
  | some i => .error (cause i)
  | none => .ok (cs.map cellBit)

/-- The representable-symbol check of a text operand (R123). -/
def symbolCheck (m : SymSeq) : Except Cause SymSeq :=
  match firstZero m with
  | some i => .error (.zeroSymbol i)
  | none => .ok m

/-- The operand cursor (R21, R63): `ip`, and the operand from `ip` on, `IN[ip : len(IN)]`. `more()` is
`rest ≠ []`; `take()` reads the head of `rest` and adds one to `ip`. -/
structure Cursor where
  ip : Nat
  rest : BitSeq
deriving DecidableEq, Repr

/-- The cursor at the start of a command (R63). -/
def startCursor (bits : BitSeq) : Cursor := { ip := 0, rest := bits }

/-- `read_run(start)` (R127) on the operand from `ip` on, with `n` zeros counted so far. -/
def readRun (start ip n : Nat) : BitSeq → Except Cause (Nat × Cursor)
  | [] => .error (.truncated start)
  | true :: rest => .ok (n, { ip := ip + 1, rest := rest })
  | false :: rest => readRun start (ip + 1) (n + 1) rest

/-- `read_field(w, start)` (R128). The test `ip + w > len(IN)` is `w > len(rest)`. -/
def readField (w start : Nat) (c : Cursor) : Except Cause (Nat × Cursor) :=
  if c.rest.length < w then .error (.truncated start)
  else .ok (val (c.rest.take w), { ip := c.ip + w, rest := c.rest.drop w })

/-- The symbol that `emit_sym(v, start)` emits (R124). -/
def emitSym (v start : Nat) : Except Cause Sym :=
  if h : v < Config.symMax + 1 then .ok ⟨v, h⟩ else .error (.outOfRange start)

/-- The loop `while more(): …` of the universal decoders (R152, R172, R196): `one` reads one codeword
and carries the registers of type `σ` that outlive it, also when it fails. The number bounds the
turns; every codeword takes at least one bit, so the operand's length is enough. -/
def readCodewords {σ : Type} (one : σ → Cursor → σ × Except Cause (Sym × Cursor)) :
    Nat → σ → Cursor → σ × Except Cause SymSeq
  | 0, r, _ => (r, .ok [])
  | n + 1, r, c =>
    match c.rest with
    | [] => (r, .ok [])
    | _ :: _ =>
      match one r c with
      | (r', .error e) => (r', .error e)
      | (r', .ok (x, c')) =>
        match readCodewords one n r' c' with
        | (r'', .error e) => (r'', .error e)
        | (r'', .ok xs) => (r'', .ok (x :: xs))

/-- The blocks `IN[j*n : j*n + n]` for `j` in `0 .. k-1` (R63, R242). -/
def blocksOf {α : Type} (n : Nat) : Nat → List α → List (List α)
  | 0, _ => []
  | k + 1, s => s.take n :: blocksOf n k (s.drop n)

end Sys2Proof.Machine
end

