-- ==== Sys2Proof/Machine/Ops.lean ====
section
/-! DEFINITION. The operations every command shares: committing a result (spec/10_state.md R23 to R26,
spec/20_memory.md R64, R65), the error outcome (spec/60_exceptions.md R335), the answers of `VAL` and
`CFG` (spec/40_common.md R130, R131), and the host's moves at the ports (spec/20_memory.md R60). -/

namespace Sys2Proof.Machine

/-- The outcome of every step the engine can take. -/
abbrev StepOutcome := Host.Outcome State Fault Refusal

/-- The commit of a command that ended with `ERR = OK` (R64, R65, R121 stage 6): the result registers,
each written as a whole. -/
def State.commit (r : Report) (syms : SymSeq) (bits : BitSeq) (dg : List DiagRec) (s : State) : State :=
  { s with status := okStatus r, errInfo := ErrInfo.clear, outSym := syms, outBit := bits, diag := dg }

/-- The error outcome, `raise` (R335): the one way in which a command fails. It writes the result
registers, touches no persistent register, saves nothing and goes nowhere; nothing returns from it, the
block is ready for the next command (R337). -/
def State.raise (c : Cause) (s : State) : State :=
  { s with status := errStatus c.code, errInfo := c.info, outSym := [], outBit := [], diag := [] }

/-- A command that produces symbols ends (R24, R64). -/
def State.endSyms (r : Except Cause SymSeq) (s : State) : State :=
  match r with
  | .ok syms => s.commit {} syms [] []
  | .error c => s.raise c

/-- A command that produces bits, records and flags ends (R24, R64, R65). -/
def State.endBits (r : Except Cause (Report × BitSeq × List DiagRec)) (s : State) : State :=
  match r with
  | .ok (rep, bits, dg) => s.commit rep [] bits dg
  | .error c => s.raise c

/-- The end of a `VAL` command (R130): it answers in `STATUS.VALID` and never fails. -/
def State.answer (valid : Bit) (s : State) : State := s.commit { valid := valid } [] [] []

/-- The end of a `CFG` command (R131): it answers in `STATUS.REJ` and never fails. -/
def State.configured (rej : Bit) (s : State) : State := s.commit { rej := rej } [] [] []

/-- The ports carry what the host presents with a command (R60, R61). -/
def State.present (word : Byte) (syms : SymSeq) (cells : CellSeq) (param : Param) (s : State) : State :=
  { s with cmd := word, inSym := syms, inBit := cells, param := param }

/-- The ports carry a command word and the last result as its operand (R60; `OUT_BIT` as cells is the
listing's `$`, R98; the rest is log entry 12). -/
def State.presentResult (word : Byte) (s : State) : State :=
  s.present word s.outSym (cellsOf s.outBit) s.param

/-- `RESET` is asserted (R370): every element takes its value of R371. The ports and the moves to come
are the host's and stay. -/
def State.assertReset (s : State) : State :=
  { State.reset with cmd := s.cmd, inSym := s.inSym, inBit := s.inBit, param := s.param, host := s.host }

/-- What the engine meets at its ports. -/
inductive PortEvent where
  /-- no move is left: the engine is idle and keeps its state (R350) -/
  | idle
  /-- `RESET` was asserted and has taken effect -/
  | reset
  /-- a command word and its operand stand at the ports -/
  | command
deriving DecidableEq, Repr

/-- The host makes its next move (R60); the engine takes one at a time (R73, R382). -/
def State.nextMove (s : State) : PortEvent × State :=
  match s.host with
  | [] => (.idle, s)
  | .reset :: rest => (.reset, { s with host := rest }.assertReset)
  | .command w syms cells p :: rest => (.command, { s with host := rest }.present w syms cells p)
  | .chain w :: rest => (.command, { s with host := rest }.presentResult w)

/-- The word at the port `CMD`, decoded (R90, R121 stage 1). -/
def State.fetch (s : State) : Option Instr :=
  match decodeBytes [s.cmd] with
  | .ok (i, _) => some i
  | .error _ => none

/-- The outcome of an illegal command word (R96). -/
def State.illegalWord (s : State) : State := s.raise (.illegalCmd s.cmd)

/-- The moves to come, with a command put before them whose operand is what the ports carry. -/
def State.issueNext (word : Byte) (s : State) : State :=
  { s with host := .command word s.inSym s.inBit s.param :: s.host }

end Sys2Proof.Machine
end

