-- ==== Sys2Proof/Machine/Crc.lean ====
section
/-! DEFINITION. The CRC polynomial-division unit (spec/46_crc.md). -/

namespace Sys2Proof.Machine

/-- The generator XOR-ed into the window when the leading bit is 1 (R262). -/
def crcReduce (G W : BitSeq) : BitSeq := if W.headD false then xorSeq W G else W

/-- One step of the division (R262): test, XOR, drop the leading bit, shift the next bit in. -/
def crcShift (G W : BitSeq) (b : Bit) : BitSeq := (crcReduce G W).drop 1 ++ [b]

/-- The window `CRC.W` after all bits of the operand, before the last step (R38, R262). -/
def crcWindow (G : BitSeq) (d : Nat) (S : BitSeq) : BitSeq :=
  S.foldl (crcShift G) (List.replicate d false)

/-- `CrcRem(G, S)` for a generator of length `d` (R262). -/
def crcRem (G : BitSeq) (d : Nat) (S : BitSeq) : BitSeq := (crcReduce G (crcWindow G d S)).drop 1

/-- The processing of `CRC.ENC` (R264). -/
def crcEncode (G : BitSeq) (d : Nat) (bits : BitSeq) : BitSeq :=
  bits ++ crcRem G d (bits ++ List.replicate (d - 1) false)

/-- The length check and the processing of `CRC.DEC` (R68, R270). -/
def crcDecode (G : BitSeq) (d : Nat) (bits : BitSeq) : Except Cause (Report × BitSeq × List DiagRec) :=
  if bits.length < d - 1 then .error (.badLength bits.length)
  else
    let rem := crcRem G d bits
    let payload := bits.take (bits.length - (d - 1))
    if rem = List.replicate (d - 1) false then .ok ({}, payload, [])
    else .ok ({ detect := true }, payload ++ rem, [.crcDetect rem])

/-- `CRC.ENC` (R264). -/
def execCrcEnc (s : State) : StepOutcome :=
  match alphabetCheck .encNonBinary s.inBit with
  | .error c => .next (s.raise c)
  | .ok bits => .next (s.commit {} [] (crcEncode s.crcGen s.crcDeg bits) [])

/-- `CRC.DEC` (R270). -/
def execCrcDec (s : State) : StepOutcome :=
  match alphabetCheck .decNonBinary s.inBit with
  | .error c => .next (s.raise c)
  | .ok bits => .next (s.endBits (crcDecode s.crcGen s.crcDeg bits))

/-- `CRC.VAL` (R272). -/
def execCrcVal (s : State) : StepOutcome := .next (s.answer (firstBX s.inBit).isNone)

/-- `CRC.CFG` (R273). -/
def execCrcCfg (s : State) : StepOutcome :=
  match s.param with
  | .pGen g =>
    if 1 ≤ g.length ∧ firstBX g = none then
      .next ({ s with crcGen := g.map cellBit, crcDeg := g.length }.configured false)
    else .next (s.configured true)
  | .pInt _ => .next (s.configured true)

end Sys2Proof.Machine
end

