-- ==== Sys2Proof/Machine/EliasGamma.lean ====
section
/-! DEFINITION. The Elias-Gamma unit (spec/42_elias_gamma.md). It has no state of its own. -/

namespace Sys2Proof.Machine

/-- The codeword of a value `v >= 1` (R170). -/
def egCode (v : Nat) : BitSeq := unary (flog2 v) ++ bin (v - 2 ^ flog2 v) (flog2 v)

/-- One codeword of `EG.DEC` (R172). -/
def egReadOne (c : Cursor) : Except Cause (Sym × Cursor) :=
  match readRun c.ip c.ip 0 c.rest with
  | .error e => .error e
  | .ok (n, c₁) =>
    match readField n c.ip c₁ with
    | .error e => .error e
    | .ok (suf, c₂) =>
      match emitSym (2 ^ n + suf) c.ip with
      | .error e => .error e
      | .ok x => .ok (x, c₂)

/-- The processing of `EG.DEC` (R172). -/
def egDecode (bits : BitSeq) : Except Cause SymSeq :=
  (readCodewords (fun (_ : Unit) c => ((), egReadOne c)) bits.length () (startCursor bits)).2

/-- `EG.ENC` (R171). -/
def execEgEnc (s : State) : StepOutcome :=
  match symbolCheck s.inSym with
  | .error c => .next (s.raise c)
  | .ok m => .next (s.commit {} [] (m.flatMap fun v => egCode v.val) [])

/-- `EG.DEC` (R172). -/
def execEgDec (s : State) : StepOutcome :=
  match alphabetCheck .decNonBinary s.inBit with
  | .error c => .next (s.raise c)
  | .ok bits => .next (s.endSyms (egDecode bits))

/-- `EG.VAL` (R173). -/
def execEgVal (s : State) : StepOutcome := .next (s.answer (firstZero s.inSym).isNone)

/-- `EG.CFG` (R174): no parameter; the operand is ignored. -/
def execEgCfg (s : State) : StepOutcome := .next (s.configured false)

end Sys2Proof.Machine
end

