-- ==== Sys2Proof/Machine/Fibonacci.lean ====
section
/-! DEFINITION. The Fibonacci/Zeckendorf unit (spec/43_fibonacci.md). -/

namespace Sys2Proof.Machine

/-- The cache with `n` more terms, each the sum of the last two (R191). -/
def fibExtend : Nat → List Nat → List Nat
  | 0, c => c
  | n + 1, c => fibExtend n (c ++ [c.getD (c.length - 1) 0 + c.getD (c.length - 2) 0])

/-- The cache after `fib(i)`: long enough to hold term `i` (R191). -/
def fibReach (i : Nat) (c : List Nat) : List Nat := fibExtend (i + 1 - c.length) c

/-- The value of `fib(i)` (R191). -/
def fibTerm (i : Nat) (c : List Nat) : Nat := (fibReach i c).getD i 0

/-- `h <- 0 ; while fib(h+1) <= v: h <- h + 1` from the `h` given (R195): the cache and the `h` at the
end. The number bounds the turns; `v` is enough, since `F(h+1) > h`. -/
def fibTop (v : Nat) : Nat → List Nat → Nat → List Nat × Nat
  | 0, c, h => (c, h)
  | n + 1, c, h =>
    if fibTerm (h + 1) c ≤ v then fibTop v n (fibReach (h + 1) c) (h + 1)
    else (fibReach (h + 1) c, h)

/-- The bits `b[0] … b[n-1]` of the greedy selection for `j` from `n-1` down to 0 (R193, R195). The
cache already reaches past index `n` here, so reading it leaves it as it is. -/
def fibGreedy (c : List Nat) : Nat → Nat → BitSeq
  | 0, _ => []
  | j + 1, rem =>
    if fibTerm j c ≤ rem then fibGreedy c j (rem - fibTerm j c) ++ [true]
    else fibGreedy c j rem ++ [false]

/-- One codeword of `FIB.ENC` (R194, R195), with the cache it leaves. -/
def fibEncodeOne (c : List Nat) (v : Nat) : List Nat × BitSeq :=
  let (c', h) := fibTop v v c 0
  (c', fibGreedy c' (h + 1) v ++ [true])

/-- The processing of `FIB.ENC` (R195), with the cache it leaves. -/
def fibEncode (c : List Nat) : List Nat → List Nat × BitSeq
  | [] => (c, [])
  | v :: vs =>
    let (c₁, w) := fibEncodeOne c v
    let (c₂, ws) := fibEncode c₁ vs
    (c₂, w ++ ws)

/-- The inner loop of `FIB.DEC` (R196) on the operand from `ip` on, with `acc`, `i` and `prev` so far: the
cache it leaves, and the sum with the cursor behind the terminator. -/
def fibReadSum (start : Nat) (c : List Nat) (ip acc i : Nat) (prev : Bit) :
    BitSeq → List Nat × Except Cause (Nat × Cursor)
  | [] => (c, .error (.truncated start))
  | true :: rest =>
    if prev then (c, .ok (acc, { ip := ip + 1, rest := rest }))
    else fibReadSum start (fibReach i c) (ip + 1) (acc + fibTerm i c) (i + 1) true rest
  | false :: rest => fibReadSum start c (ip + 1) acc (i + 1) false rest

/-- One codeword of `FIB.DEC` (R196). -/
def fibReadOne (c : List Nat) (cur : Cursor) : List Nat × Except Cause (Sym × Cursor) :=
  match fibReadSum cur.ip c cur.ip 0 0 false cur.rest with
  | (c', .error e) => (c', .error e)
  | (c', .ok (acc, cur')) =>
    match emitSym acc cur.ip with
    | .error e => (c', .error e)
    | .ok x => (c', .ok (x, cur'))

/-- The processing of `FIB.DEC` (R196), with the cache it leaves, also when it fails (R192). -/
def fibDecode (c : List Nat) (bits : BitSeq) : List Nat × Except Cause SymSeq :=
  readCodewords fibReadOne bits.length c (startCursor bits)

/-- `FIB.ENC` (R195). -/
def execFibEnc (s : State) : StepOutcome :=
  match symbolCheck s.inSym with
  | .error c => .next (s.raise c)
  | .ok m =>
    let r := fibEncode s.fibCache (m.map Fin.val)
    .next ({ s with fibCache := r.1 }.commit {} [] r.2 [])

/-- `FIB.DEC` (R196). -/
def execFibDec (s : State) : StepOutcome :=
  match alphabetCheck .decNonBinary s.inBit with
  | .error c => .next (s.raise c)
  | .ok bits =>
    let r := fibDecode s.fibCache bits
    .next ({ s with fibCache := r.1 }.endSyms r.2)

/-- `FIB.VAL` (R197): it does not touch the cache. -/
def execFibVal (s : State) : StepOutcome := .next (s.answer (firstZero s.inSym).isNone)

/-- `FIB.CFG` (R198): no parameter; the operand is ignored and the cache stays. -/
def execFibCfg (s : State) : StepOutcome := .next (s.configured false)

end Sys2Proof.Machine
end

