-- ==== Sys2Proof/Machine/Golomb.lean ====
section
/-! DEFINITION. The Golomb-Rice unit (spec/41_golomb_rice.md). -/

namespace Sys2Proof.Machine

/-- The codeword of a value under `GR.K = k` and `GR.SUFLEN = w` (R150). -/
def grCode (k w v : Nat) : BitSeq := unary (v / k) ++ bin (v % k) w

/-- One codeword of `GR.DEC` (R152). -/
def grReadOne (k w : Nat) (c : Cursor) : Except Cause (Sym × Cursor) :=
  match readRun c.ip c.ip 0 c.rest with
  | .error e => .error e
  | .ok (q, c₁) =>
    match readField w c.ip c₁ with
    | .error e => .error e
    | .ok (suf, c₂) =>
      match emitSym (k * q + suf) c.ip with
      | .error e => .error e
      | .ok x => .ok (x, c₂)

/-- The processing of `GR.DEC` (R152). -/
def grDecode (k w : Nat) (bits : BitSeq) : Except Cause SymSeq :=
  (readCodewords (fun (_ : Unit) c => ((), grReadOne k w c)) bits.length () (startCursor bits)).2

/-- `GR.ENC` (R151). -/
def execGrEnc (s : State) : StepOutcome :=
  .next (s.commit {} [] (s.inSym.flatMap fun v => grCode s.grK s.grSuflen v.val) [])

/-- `GR.DEC` (R152). -/
def execGrDec (s : State) : StepOutcome :=
  match alphabetCheck .decNonBinary s.inBit with
  | .error c => .next (s.raise c)
  | .ok bits => .next (s.endSyms (grDecode s.grK s.grSuflen bits))

/-- `GR.VAL` (R153): every text is valid. -/
def execGrVal (s : State) : StepOutcome := .next (s.answer true)

/-- `GR.CFG` (R158). -/
def execGrCfg (s : State) : StepOutcome :=
  match s.param with
  | .pInt z =>
    if 1 ≤ z then
      .next ({ s with grK := z.toNat, grSuflen := clog2 z.toNat }.configured false)
    else .next (s.configured true)
  | .pGen _ => .next (s.configured true)

end Sys2Proof.Machine
end

