-- ==== Sys2Proof/Machine/Hamming.lean ====
section
/-! DEFINITION. The Hamming(7,4) unit (spec/47_hamming74.md). It has no state of its own between
commands; the working registers of spec/10_state.md R39 are local to a block. -/

namespace Sys2Proof.Machine

/-- The number of zero bits `HAM.ENC` appends (R302). -/
def hamPad (len : Nat) : Nat := (4 - len % 4) % 4

/-- The codeword of a block of four data bits (R300, R301). -/
def hamCode (d0 d1 d2 d3 : Bit) : BitSeq :=
  [d0, d1, d2, d3, d0 ^^ d1 ^^ d2, d1 ^^ d2 ^^ d3, d0 ^^ d2 ^^ d3]

/-- The codewords of the blocks of four (R302); a rest of fewer than four bits does not occur. -/
def hamEncode : BitSeq → BitSeq
  | d0 :: d1 :: d2 :: d3 :: rest => hamCode d0 d1 d2 d3 ++ hamEncode rest
  | _ => []

/-- `HAM.OK`: which checks a received block passes (R305). -/
structure HamChecks where
  ok4 : Bit
  ok5 : Bit
  ok6 : Bit
deriving DecidableEq, Repr

/-- The three checks of a block `c0 … c6` (R305). -/
def hamChecks (c0 c1 c2 c3 c4 c5 c6 : Bit) : HamChecks where
  ok4 := c4 == (c0 ^^ c1 ^^ c2)
  ok5 := c5 == (c1 ^^ c2 ^^ c3)
  ok6 := c6 == (c0 ^^ c2 ^^ c3)

/-- `HAM.TALLY`: per position, how many checks it took part in that passed (R306). -/
def hamTally (k : HamChecks) : List Nat :=
  [k.ok4.toNat + k.ok6.toNat, k.ok4.toNat + k.ok5.toNat, k.ok4.toNat + k.ok5.toNat + k.ok6.toNat,
    k.ok5.toNat + k.ok6.toNat, k.ok4.toNat, k.ok5.toNat, k.ok6.toNat]

/-- `HAM.FLAG`: which data positions took part in a passing check (R306). -/
def hamFlags (k : HamChecks) : List Bit := ((hamTally k).take 4).map fun t => decide (1 ≤ t)

/-- `nfail` (R306). -/
def hamFails (k : HamChecks) : Nat := (1 - k.ok4.toNat) + (1 - k.ok5.toNat) + (1 - k.ok6.toNat)

/-- `nflag` (R306). -/
def hamFlagCount (k : HamChecks) : Nat := (hamFlags k).count true

/-- The failing check when exactly one fails (R307, arm 2). -/
def hamFailing (k : HamChecks) : Nat := if k.ok4 = false then 4 else if k.ok5 = false then 5 else 6

/-- Data position `i` of a block flipped back, with the record of it (R307, arms 3 and 4). -/
def hamFlip (j i : Nat) (data : BitSeq) : BitSeq × List DiagRec :=
  let old := data.getD i false
  (data.set i (!old), [.hamData j i old (!old)])

/-- The classification of block `j` (R307): the first arm whose condition holds. -/
def hamDecodeBlock (j : Nat) (c0 c1 c2 c3 c4 c5 c6 : Bit) : Except Cause (BitSeq × List DiagRec) :=
  let k := hamChecks c0 c1 c2 c3 c4 c5 c6
  let data := [c0, c1, c2, c3]
  if hamFails k = 0 then .ok (data, [])
  else if hamFails k = 1 ∧ hamFlagCount k = 4 then .ok (data, [.hamParity j (hamFailing k)])
  else if hamFlagCount k = 3 then .ok (hamFlip j ((hamFlags k).idxOf false) data)
  else if hamFlagCount k = 0 then .ok (hamFlip j 2 data)
  else .error (.inconsistent j (cellsOf [c0, c1, c2, c3, c4, c5, c6]))

/-- The blocks of seven from number `j` on (R304); a rest of fewer than seven bits does not occur. -/
def hamDecodeBlocks : Nat → BitSeq → Except Cause (BitSeq × List DiagRec)
  | j, c0 :: c1 :: c2 :: c3 :: c4 :: c5 :: c6 :: rest =>
    match hamDecodeBlock j c0 c1 c2 c3 c4 c5 c6 with
    | .error e => .error e
    | .ok (data, dg) =>
      match hamDecodeBlocks (j + 1) rest with
      | .error e => .error e
      | .ok (out, dg') => .ok (data ++ out, dg ++ dg')
  | _, _ => .ok ([], [])

/-- The length check and the processing of `HAM.DEC` (R68, R304). -/
def hamDecode (bits : BitSeq) : Except Cause (Report × BitSeq × List DiagRec) :=
  if bits.length % 7 = 0 then
    match hamDecodeBlocks 0 bits with
    | .error e => .error e
    | .ok (out, dg) => .ok ({ corr := corrOf dg }, out, dg)
  else .error (.badLength bits.length)

/-- `HAM.ENC` (R302). -/
def execHamEnc (s : State) : StepOutcome :=
  match alphabetCheck .encNonBinary s.inBit with
  | .error c => .next (s.raise c)
  | .ok bits =>
    let pad := hamPad bits.length
    .next (s.commit { pad := BitVec.ofNat 2 pad } [] (hamEncode (bits ++ List.replicate pad false)) [])

/-- `HAM.DEC` (R304). -/
def execHamDec (s : State) : StepOutcome :=
  match alphabetCheck .decNonBinary s.inBit with
  | .error c => .next (s.raise c)
  | .ok bits => .next (s.endBits (hamDecode bits))

/-- `HAM.VAL` (R310). -/
def execHamVal (s : State) : StepOutcome := .next (s.answer (firstBX s.inBit).isNone)

/-- `HAM.CFG` (R311): no parameter; the operand is ignored. -/
def execHamCfg (s : State) : StepOutcome := .next (s.configured false)

end Sys2Proof.Machine
end

