-- ==== Sys2Proof/Machine/Huffman.lean ====
section
/-! DEFINITION. The Huffman unit (spec/44_huffman.md), under the tie-break of R211 and R212. -/

namespace Sys2Proof.Machine

/-- One more occurrence of `x` in the counts, which stand in the order of first occurrence (R211). -/
def hufBump (x : Sym) : List (Sym × Nat) → List (Sym × Nat)
  | [] => [(x, 1)]
  | (y, f) :: fs => if x = y then (y, f + 1) :: fs else (y, f) :: hufBump x fs

/-- The distinct symbols in the order of first occurrence, each with its frequency (R211). -/
def hufFreqs (m : SymSeq) : List (Sym × Nat) := m.foldl (fun fs x => hufBump x fs) []

/-- The leaves, in the order of creation (R211). -/
def hufLeaves (fs : List (Sym × Nat)) : List Node := fs.map fun p => .leaf p.1 p.2

/-- A handle put into the sorted queue after the last one of a weight not above its own (R212). An entry
is a handle and the weight of its node. -/
def hufInsert (x : Nat × Nat) : List (Nat × Nat) → List (Nat × Nat)
  | [] => [x]
  | y :: q => if y.2 ≤ x.2 then y :: hufInsert x q else x :: y :: q

/-- The weight of a node (R33). -/
def Node.weight : Node → Nat
  | .leaf _ w => w
  | .inner w _ _ => w

/-- The leaf handles from `h` on, each put into the queue in the order of creation: a stable sort by
weight (R212). -/
def hufQueue : Nat → List Node → List (Nat × Nat) → List (Nat × Nat)
  | _, [], q => q
  | h, n :: ns, q => hufQueue (h + 1) ns (hufInsert (h, n.weight) q)

/-- The merge loop (R212): the first node removed is the left child. The number bounds the turns; each
shortens the queue by one. -/
def hufMerge : Nat → List Node → List (Nat × Nat) → List Node × List (Nat × Nat)
  | 0, ns, q => (ns, q)
  | k + 1, ns, a :: b :: q =>
    hufMerge k (ns ++ [.inner (a.2 + b.2) a.1 b.1]) (hufInsert (ns.length, a.2 + b.2) q)
  | _ + 1, ns, q => (ns, q)

/-- `HUF.TABLE[x] <- path` (R213), keeping the symbols strictly rising. -/
def tableSet (x : Sym) (path : BitSeq) : List (Sym × BitSeq) → List (Sym × BitSeq)
  | [] => [(x, path)]
  | (y, p) :: t =>
    if x < y then (x, path) :: (y, p) :: t
    else if x = y then (x, path) :: t
    else (y, p) :: tableSet x path t

/-- `HUF.TABLE[x]` (R34). -/
def tableGet (x : Sym) : List (Sym × BitSeq) → Option BitSeq
  | [] => none
  | (y, p) :: t => if x = y then some p else tableGet x t

/-- `assign(h, path)` (R213): 0 on the left edge, 1 on the right one. The number bounds the depth; a
child's handle is smaller than its parent's, so the arena's length is enough. -/
def hufAssign (ns : List Node) : Nat → Nat → BitSeq → List (Sym × BitSeq) → List (Sym × BitSeq)
  | 0, _, _, t => t
  | d + 1, h, path, t =>
    match ns[h]? with
    | some (.leaf x _) => tableSet x path t
    | some (.inner _ l r) => hufAssign ns d r (path ++ [true]) (hufAssign ns d l (path ++ [false]) t)
    | none => t

/-- What `HUF.ENC` installs: `HUF.NODES`, `HUF.ROOT` and `HUF.TABLE` (R214). -/
structure HufTree where
  nodes : List Node
  root : Option Nat
  table : List (Sym × BitSeq)
deriving DecidableEq, Repr

/-- The code table of an arena with a root (R213); a lone leaf gets the one-bit code `0` (R219). -/
def hufTableOf (ns : List Node) (root : Nat) : List (Sym × BitSeq) :=
  match ns[root]? with
  | some (.leaf x _) => [(x, [false])]
  | some (.inner ..) => hufAssign ns ns.length root [] []
  | none => []

/-- The arena after the merge loop, with the queue it leaves (R211, R212). -/
def hufArena (m : SymSeq) : List Node × List (Nat × Nat) :=
  let leaves := hufLeaves (hufFreqs m)
  hufMerge leaves.length leaves (hufQueue 0 leaves [])

/-- The tree and the table of a text (R210 to R213, R219, R220). -/
def hufBuild (m : SymSeq) : HufTree :=
  let (nodes, q) := hufArena m
  match q with
  | [] => { nodes := nodes, root := none, table := [] }
  | r :: _ => { nodes := nodes, root := some r.1, table := hufTableOf nodes r.1 }

/-- The codes of the symbols of a text, one after the other (R215); `none` if the table lacks one. -/
def hufEncode (t : List (Sym × BitSeq)) : SymSeq → Option BitSeq
  | [] => some []
  | x :: xs =>
    match tableGet x t, hufEncode t xs with
    | some p, some ps => some (p ++ ps)
    | _, _ => none

/-- The walk under a one-leaf tree (R216, second case), from operand index `at_` on. -/
def hufWalkLeaf (x : Sym) (at_ : Nat) : BitSeq → Except Cause SymSeq
  | [] => .ok []
  | true :: _ => .error (.noSuchCode at_)
  | false :: rest =>
    match hufWalkLeaf x (at_ + 1) rest with
    | .error e => .error e
    | .ok xs => .ok (x :: xs)

/-- The walk under a tree with an inner root (R216, third case): the handle `cur`, the operand from `ip`
on. `none` if a handle it must follow is no inner node of the arena. -/
def hufWalk (ns : List Node) (root start ip cur : Nat) : BitSeq → Option (Except Cause SymSeq)
  | [] => some (if cur = root then .ok [] else .error (.truncated start))
  | b :: rest =>
    let start' := if cur = root then ip else start
    match ns[cur]? with
    | some (.inner _ l r) =>
      let nxt := if b then r else l
      match ns[nxt]? with
      | some (.leaf x _) =>
        match hufWalk ns root start' (ip + 1) root rest with
        | none => none
        | some (.error e) => some (.error e)
        | some (.ok xs) => some (.ok (x :: xs))
      | some (.inner ..) => hufWalk ns root start' (ip + 1) nxt rest
      | none => none
    | _ => none

/-- The processing of `HUF.DEC` (R216), in its three cases. -/
def hufDecode (ns : List Node) (root : Option Nat) (bits : BitSeq) : Option (Except Cause SymSeq) :=
  match root with
  | none => some (if bits = [] then .ok [] else .error (.noSuchCode 0))
  | some r =>
    match ns[r]? with
    | some (.leaf x _) => some (hufWalkLeaf x 0 bits)
    | some (.inner ..) => hufWalk ns r 0 0 r bits
    | none => none

/-- The commit of a tree (R214). -/
def State.installTree (t : HufTree) (s : State) : State :=
  { s with hufHave := true, hufNodes := t.nodes, hufRoot := t.root, hufTable := t.table }

/-- `HUF.ENC` (R215). -/
def execHufEnc (s : State) : StepOutcome :=
  let t := hufBuild s.inSym
  match hufEncode t.table s.inSym with
  | none => .fault .tableMiss
  | some bits => .next ((s.installTree t).commit {} [] bits [])

/-- `HUF.DEC` (R216): the usage check, the alphabet check, the walk. -/
def execHufDec (s : State) : StepOutcome :=
  if s.hufHave = false then .next (s.raise .noTree)
  else
    match alphabetCheck .decNonBinary s.inBit with
    | .error c => .next (s.raise c)
    | .ok bits =>
      match hufDecode s.hufNodes s.hufRoot bits with
      | none => .fault .danglingHandle
      | some r => .next (s.endSyms r)

/-- `HUF.VAL` (R217): every text is valid, and the tree stays. -/
def execHufVal (s : State) : StepOutcome := .next (s.answer true)

/-- `HUF.CFG` (R218): no parameter; the operand is ignored and the tree stays. -/
def execHufCfg (s : State) : StepOutcome := .next (s.configured false)

end Sys2Proof.Machine
end

