-- ==== Sys2Proof/Machine/Repetition.lean ====
section
/-! DEFINITION. The Repetition unit (spec/45_repetition.md). -/

namespace Sys2Proof.Machine

/-- The processing of `REP.ENC` (R240, R241). -/
def repEncode (r : Nat) (bits : BitSeq) : BitSeq := bits.flatMap fun b => List.replicate r b

/-- The records of a block with its majority bit (R242): one, unless the block is unanimous. -/
def repRecord (r j : Nat) (blk : BitSeq) (m : Bit) : List DiagRec :=
  if 0 < blk.count true ∧ 0 < r - blk.count true then [.repFix j blk m] else []

/-- The majority votes of the blocks from number `j` on (R242); the first tie ends it. -/
def repVote (r : Nat) : Nat → List BitSeq → Except Cause (BitSeq × List DiagRec)
  | _, [] => .ok ([], [])
  | j, blk :: blks =>
    let ones := blk.count true
    let zeros := r - ones
    if ones = zeros then .error (.tie j (cellsOf blk))
    else
      match repVote r (j + 1) blks with
      | .error e => .error e
      | .ok (out, dg) =>
        .ok (decide (zeros < ones) :: out, repRecord r j blk (decide (zeros < ones)) ++ dg)

/-- The length check and the processing of `REP.DEC` (R68, R242). -/
def repDecode (r : Nat) (bits : BitSeq) : Except Cause (Report × BitSeq × List DiagRec) :=
  if bits.length % r = 0 then
    match repVote r 0 (blocksOf r (bits.length / r) bits) with
    | .error e => .error e
    | .ok (out, dg) => .ok ({ corr := corrOf dg }, out, dg)
  else .error (.badLength bits.length)

/-- `REP.ENC` (R241). -/
def execRepEnc (s : State) : StepOutcome :=
  match alphabetCheck .encNonBinary s.inBit with
  | .error c => .next (s.raise c)
  | .ok bits => .next (s.commit {} [] (repEncode s.repR bits) [])

/-- `REP.DEC` (R242). -/
def execRepDec (s : State) : StepOutcome :=
  match alphabetCheck .decNonBinary s.inBit with
  | .error c => .next (s.raise c)
  | .ok bits => .next (s.endBits (repDecode s.repR bits))

/-- `REP.VAL` (R243). -/
def execRepVal (s : State) : StepOutcome := .next (s.answer (firstBX s.inBit).isNone)

/-- `REP.CFG` (R246). -/
def execRepCfg (s : State) : StepOutcome :=
  match s.param with
  | .pInt z =>
    if 1 ≤ z then .next ({ s with repR := z.toNat }.configured false)
    else .next (s.configured true)
  | .pGen _ => .next (s.configured true)

end Sys2Proof.Machine
end

