-- ==== Sys2Proof/Machine/Dispatch.lean ====
section
/-! DEFINITION. The dispatch of the 28 commands to their meanings (spec/30_encoding.md R93). -/

namespace Sys2Proof.Machine

def exec (i : Instr) (s : State) : Host.Outcome State Fault Refusal :=
  match i with
  | .grEnc => Sys2Proof.Machine.execGrEnc s
  | .grDec => Sys2Proof.Machine.execGrDec s
  | .grVal => Sys2Proof.Machine.execGrVal s
  | .grCfg => Sys2Proof.Machine.execGrCfg s
  | .egEnc => Sys2Proof.Machine.execEgEnc s
  | .egDec => Sys2Proof.Machine.execEgDec s
  | .egVal => Sys2Proof.Machine.execEgVal s
  | .egCfg => Sys2Proof.Machine.execEgCfg s
  | .fibEnc => Sys2Proof.Machine.execFibEnc s
  | .fibDec => Sys2Proof.Machine.execFibDec s
  | .fibVal => Sys2Proof.Machine.execFibVal s
  | .fibCfg => Sys2Proof.Machine.execFibCfg s
  | .hufEnc => Sys2Proof.Machine.execHufEnc s
  | .hufDec => Sys2Proof.Machine.execHufDec s
  | .hufVal => Sys2Proof.Machine.execHufVal s
  | .hufCfg => Sys2Proof.Machine.execHufCfg s
  | .repEnc => Sys2Proof.Machine.execRepEnc s
  | .repDec => Sys2Proof.Machine.execRepDec s
  | .repVal => Sys2Proof.Machine.execRepVal s
  | .repCfg => Sys2Proof.Machine.execRepCfg s
  | .crcEnc => Sys2Proof.Machine.execCrcEnc s
  | .crcDec => Sys2Proof.Machine.execCrcDec s
  | .crcVal => Sys2Proof.Machine.execCrcVal s
  | .crcCfg => Sys2Proof.Machine.execCrcCfg s
  | .hamEnc => Sys2Proof.Machine.execHamEnc s
  | .hamDec => Sys2Proof.Machine.execHamDec s
  | .hamVal => Sys2Proof.Machine.execHamVal s
  | .hamCfg => Sys2Proof.Machine.execHamCfg s

end Sys2Proof.Machine
end

