-- ==== Sys2Proof/Machine/Step.lean ====
section
/-! DEFINITION. One step of the engine (spec/40_common.md R120): the host makes its next move, and if
the move is a command, the engine runs it from issue to outcome. -/

namespace Sys2Proof.Machine

/-- The command at the ports runs: the word check first, then the command's own meaning (R121). -/
def runCommand (s : State) : Host.Outcome State Fault Refusal :=
  match s.fetch with
  | some i => exec i s
  | none => .next s.illegalWord

/-- One step: idle when the host has no move left (R350), the reset state when it asserts `RESET`
(R370), else one command, atomically (R70). -/
def step (s : State) : Host.Outcome State Fault Refusal :=
  match s.nextMove with
  | (.idle, s') => .next s'
  | (.reset, s') => .next s'
  | (.command, s') => runCommand s'

/-- The state in which the host's next move presents the command word `w`, with what the operand ports
carry as its operand: the word has one byte (R90). -/
def State.withFetchWord (s : State) (_nbits w : Nat) : State := s.issueNext (BitVec.ofNat 8 w)

end Sys2Proof.Machine
end

