-- ==== Sys2Proof/Safety.lean ====
section
/-! DEFINITION. What a sound state, a well-formed outcome and a safe step of the engine are: the
invariants of spec/10_state.md R44, the discipline of the result registers (R23 to R26), the table of
errors of spec/60_exceptions.md R332, the registers each unit owns (R20, R40), and the round trip of
spec/40_common.md R133. -/

namespace Sys2Proof.Machine

/-- The Fibonacci sequence of the unit, `F(i)` (R190). -/
def fibNum : Nat → Nat
  | 0 => 1
  | 1 => 2
  | n + 2 => fibNum (n + 1) + fibNum n

/-- `FIB.CACHE` holds terms of the sequence from the first on, at least the seed (R32). -/
structure FibCacheOk (c : List Nat) : Prop where
  two_le_length : 2 ≤ c.length
  seed_zero : c.getD 0 0 = 1
  seed_one : c.getD 1 0 = 2
  recurrence : ∀ i, 2 ≤ i → i < c.length → c.getD i 0 = c.getD (i - 1) 0 + c.getD (i - 2) 0

/-- The invariants of R44, over every state a run can be in. -/
structure State.Inv (s : State) : Prop where
  grK_pos : 1 ≤ s.grK
  grSuflen_eq : s.grSuflen = clog2 s.grK
  repR_pos : 1 ≤ s.repR
  crcGen_pos : 1 ≤ s.crcGen.length
  crcDeg_eq : s.crcDeg = s.crcGen.length
  fibCache_ok : FibCacheOk s.fibCache
  huf_empty : s.hufHave = false → s.hufNodes = [] ∧ s.hufRoot = none ∧ s.hufTable = []
  huf_built : s.hufHave = true → ∃ m : SymSeq,
    s.hufNodes = (hufBuild m).nodes ∧ s.hufRoot = (hufBuild m).root ∧ s.hufTable = (hufBuild m).table

/-- The two states hold the same in every persistent register but `FIB.CACHE` (R22). -/
structure SamePersistentButFib (s t : State) : Prop where
  grK : t.grK = s.grK
  grSuflen : t.grSuflen = s.grSuflen
  hufHave : t.hufHave = s.hufHave
  hufNodes : t.hufNodes = s.hufNodes
  hufRoot : t.hufRoot = s.hufRoot
  hufTable : t.hufTable = s.hufTable
  repR : t.repR = s.repR
  crcGen : t.crcGen = s.crcGen
  crcDeg : t.crcDeg = s.crcDeg

/-- The two states hold the same in every persistent register (R22). -/
structure SamePersistent (s t : State) : Prop where
  butFib : SamePersistentButFib s t
  fibCache : t.fibCache = s.fibCache

/-- The host's side, the ports and the moves to come, is the same in the two states. -/
structure SameHost (s t : State) : Prop where
  cmd : t.cmd = s.cmd
  inSym : t.inSym = s.inSym
  inBit : t.inBit = s.inBit
  param : t.param = s.param
  host : t.host = s.host

/-- The two states hold the same in the persistent registers of a unit (R20, R40). -/
def SameUnit (u : UnitId) (s t : State) : Prop :=
  match u with
  | .gr => t.grK = s.grK ∧ t.grSuflen = s.grSuflen
  | .fib => t.fibCache = s.fibCache
  | .huf => t.hufHave = s.hufHave ∧ t.hufNodes = s.hufNodes ∧ t.hufRoot = s.hufRoot ∧
      t.hufTable = s.hufTable
  | .rep => t.repR = s.repR
  | .crc => t.crcGen = s.crcGen ∧ t.crcDeg = s.crcDeg
  | .eg | .ham => True

/-- The two states show the host the same outcome: the same result registers (R60). -/
structure SameOutcome (s t : State) : Prop where
  status : t.status = s.status
  errInfo : t.errInfo = s.errInfo
  outSym : t.outSym = s.outSym
  outBit : t.outBit = s.outBit
  diag : t.diag = s.diag

/-- The result registers of a command that succeeded: `STATUS` with these reports, these results, these
records, and a clear `ERRINFO` (R23 to R26). -/
structure Succeeds (t : State) (r : Report) (syms : SymSeq) (bits : BitSeq) (dg : List DiagRec) : Prop where
  status : t.status = okStatus r
  errInfo : t.errInfo = { sub := 0, index := 0, data := [] }
  outSym : t.outSym = syms
  outBit : t.outBit = bits
  diag : t.diag = dg

/-- The result registers of a command that failed: the code in `STATUS` and nothing else there, what
`ERRINFO` records, and no result (R335). -/
structure Fails (t : State) (code : Nat) (sub index : Nat) (data : CellSeq) : Prop where
  status : t.status = BitVec.ofNat 16 code
  errInfo : t.errInfo = { sub := sub, index := index, data := data }
  outSym : t.outSym = []
  outBit : t.outBit = []
  diag : t.diag = []

/-- A record that reports a correction (R23, field `CORR`). -/
def DiagRec.isCorrection : DiagRec → Bool
  | .repFix .. | .hamParity .. | .hamData .. => true
  | .crcDetect .. => false

/-- The fields of a record keep the bounds of R26, for a Repetition factor `r` and a generator of
length `d`. -/
def DiagRec.Ok (r d : Nat) : DiagRec → Prop
  | .repFix _ original _ => original.length = r
  | .hamParity _ pos => pos = 4 ∨ pos = 5 ∨ pos = 6
  | .hamData _ pos orig fixed => pos ≤ 3 ∧ fixed = !orig
  | .crcDetect rem => rem.length = d - 1 ∧ true ∈ rem

/-- The discipline of the result registers (R23 to R26, R335): a command that failed shows its code and
nothing else, one that succeeded shows a clear `ERRINFO`, and never both result streams. -/
structure OutcomeOk (t : State) : Prop where
  status_zero : statusZero t.status = 0#7
  err_code : statusErr t.status ≤ 5#3
  failed : statusErr t.status ≠ 0#3 →
    t.status = (statusErr t.status).setWidth 16 ∧ t.outSym = [] ∧ t.outBit = [] ∧ t.diag = []
  succeeded : statusErr t.status = 0#3 → t.errInfo = { sub := 0, index := 0, data := [] }
  one_stream : t.outSym = [] ∨ t.outBit = []
  corr_iff : statusCorr t.status = true ↔ ∃ rec ∈ t.diag, rec.isCorrection = true
  detect_iff : statusDetect t.status = true ↔ ∃ rec ∈ t.diag, rec.isCorrection = false
  records_ok : ∀ rec ∈ t.diag, rec.Ok t.repR t.crcGen.length

/-- The errors a command can end with, as pairs of `STATUS.ERR` and `ERRINFO.SUB` (R332 with the numbers
of R331). `UNCORRECTABLE / INCONSISTENT` of `HAM.DEC` is not among them: no operand reaches it. -/
def allowedErrors : Instr → List (Nat × Nat)
  | .grEnc | .hufEnc => []
  | .egEnc | .fibEnc => [(1, 1)]
  | .repEnc | .crcEnc | .hamEnc => [(1, 2)]
  | .grDec | .egDec | .fibDec => [(2, 1), (2, 3), (2, 4)]
  | .hufDec => [(2, 1), (2, 3), (2, 5), (4, 1)]
  | .repDec => [(2, 1), (2, 2), (3, 1)]
  | .crcDec | .hamDec => [(2, 1), (2, 2)]
  | .grVal | .egVal | .fibVal | .hufVal | .repVal | .crcVal | .hamVal => []
  | .grCfg | .egCfg | .fibCfg | .hufCfg | .repCfg | .crcCfg | .hamCfg => []

/-- A safe step: the machine answers a next state, with no fault and no refusal. -/
def SafeStep (s : State) : Prop := ∃ t, step s = .next t

/-- The polynomial over GF(2) a bit sequence stands for: the first bit is the coefficient of the highest
power (R260). -/
noncomputable def polyOf (s : BitSeq) : Polynomial (ZMod 2) :=
  s.foldl (fun p b => p * Polynomial.X + (if b then 1 else 0)) 0

/-- The generator with its leading bit forced to 1, `G'` (R266). -/
def forceLead (G : BitSeq) : BitSeq := true :: G.drop 1

/-- The sum of the terms `F(i)`, `F(i+1)`, … at the ones of a bit sequence (R193, R196). -/
def fibSum : Nat → BitSeq → Nat
  | _, [] => 0
  | i, b :: bs => (if b then fibNum i else 0) + fibSum (i + 1) bs

/-- `11` does not occur in the sequence (R194, R196, R199). -/
def NoPair (b : BitSeq) : Prop := ¬ [true, true] <:+: b

/-- The node a path leads to, from a handle of the arena: 0 to the left, 1 to the right (R213). -/
def followPath (ns : List Node) (h : Nat) : BitSeq → Option Node
  | [] => ns[h]?
  | b :: bs =>
    match ns[h]? with
    | some (.inner _ l r) => followPath ns (if b then r else l) bs
    | _ => none

/-- The weight of the node a handle names. -/
def nodeWeight (ns : List Node) (h : Nat) : Nat :=
  match ns[h]? with
  | some n => n.weight
  | none => 0

/-- The node `p` of the arena is an inner node with the handle `c` as a child. -/
def IsParent (ns : List Node) (p c : Nat) : Prop :=
  ∃ w l r, ns[p]? = some (.inner w l r) ∧ (c = l ∨ c = r)

/-- The order of the merge queue: ascending weight, and among equals the order of insertion, which is that
of the handles (R212). -/
def QueueBefore (ns : List Node) (x y : Nat) : Prop :=
  nodeWeight ns x < nodeWeight ns y ∨ (nodeWeight ns x = nodeWeight ns y ∧ x < y)

/-- The inner node `p` was made as R212 says: of the two lowest nodes not merged before, the first of
which became the left child. -/
structure MergeOk (ns : List Node) (p w l r : Nat) : Prop where
  left_lt : l < p
  right_lt : r < p
  weight : w = nodeWeight ns l + nodeWeight ns r
  fresh : ∀ p' < p, ¬ IsParent ns p' l ∧ ¬ IsParent ns p' r
  first : QueueBefore ns l r
  lowest : ∀ c < p, c ≠ l → c ≠ r → (∀ p' < p, ¬ IsParent ns p' c) → QueueBefore ns r c

/-- The arena and the root of a text: a leaf for each distinct symbol in the order of first occurrence
with its count (R211), then the inner nodes of the merges in their order, the last one the root (R212). -/
structure HufArenaOk (m : SymSeq) (syms : List Sym) (ns : List Node) (root : Option Nat) : Prop where
  mem_syms : ∀ x, x ∈ syms ↔ x ∈ m
  nodup : syms.Nodup
  first_occurrence : syms.Pairwise fun x y => m.idxOf x < m.idxOf y
  leaves : ns.take syms.length = syms.map fun x => Node.leaf x (m.count x)
  length : ns.length = 2 * syms.length - 1
  inner : ∀ p, syms.length ≤ p → p < ns.length →
    ∃ w l r, ns[p]? = some (.inner w l r) ∧ MergeOk ns p w l r
  root : root = if m = [] then none else some (ns.length - 1)

/-- A command changed nothing but the result registers: every persistent register and the host's side stay
(R120). -/
structure Frame (s t : State) : Prop where
  persistent : SamePersistent s t
  host : SameHost s t

/-- The least index of a `BX` cell (R122). -/
def FirstBad (cs : CellSeq) (i : Nat) : Prop := cs[i]? = some .bX ∧ ∀ j < i, cs[j]? ≠ some .bX

/-- The least index of the code point zero (R123). -/
def FirstZeroAt (m : SymSeq) (i : Nat) : Prop :=
  (∃ v, m[i]? = some v ∧ v.val = 0) ∧ ∀ j < i, ∀ v, m[j]? = some v → v.val ≠ 0

/-- The `w` low bits of a number, the most significant first, element by element (R125). -/
def msbFirst (v w : Nat) : BitSeq := (List.range w).map fun i => v.testBit (w - 1 - i)

/-- The bits of a list of codewords, one after the other (R66, R67). -/
def wordBits (ws : List (Sym × BitSeq)) : BitSeq := (ws.map Prod.snd).flatten

/-- A universal decoder ended in `t` as the rules of its unit say, where `word v b` says that `b` is a
codeword of the value `v`, and `cut b` that `b` is a codeword the operand's end cuts off (R121, R122, R124,
R127, R128): whole codewords give their symbols; the first codeword that is cut, or whose value is no
symbol, ends the command at its first bit; a `BX` cell ends it before any codeword is read. Every operand
of bits is of one of the three forms. -/
structure DecodesBy (word : Nat → BitSeq → Prop) (cut : BitSeq → Prop) (s t : State) : Prop where
  nonBinary : ∀ i, FirstBad s.inBit i → Fails t 2 1 i []
  whole : ∀ ws : List (Sym × BitSeq), (∀ p ∈ ws, word p.1.val p.2) → s.inBit = cellsOf (wordBits ws) →
    Succeeds t {} (ws.map Prod.fst) [] []
  truncated : ∀ (ws : List (Sym × BitSeq)) (tail : BitSeq), (∀ p ∈ ws, word p.1.val p.2) → cut tail →
    s.inBit = cellsOf (wordBits ws ++ tail) → Fails t 2 3 (wordBits ws).length []
  outOfRange : ∀ (ws : List (Sym × BitSeq)) (v : Nat) (b rest : BitSeq), (∀ p ∈ ws, word p.1.val p.2) →
    word v b → Config.symMax < v → s.inBit = cellsOf (wordBits ws ++ b ++ rest) →
    Fails t 2 4 (wordBits ws).length []
  every : ∀ bits, s.inBit = cellsOf bits → ∃ (ws : List (Sym × BitSeq)) (rest : BitSeq),
    (∀ p ∈ ws, word p.1.val p.2) ∧ bits = wordBits ws ++ rest ∧
      (rest = [] ∨ cut rest ∨ ∃ v b rest', word v b ∧ Config.symMax < v ∧ rest = b ++ rest')

/-- A Golomb-Rice codeword as `GR.DEC` reads it: a run of zeros, the stop bit, `w` bits of suffix (R152). -/
def grWord (k w v : Nat) (b : BitSeq) : Prop :=
  ∃ (q : Nat) (suf : BitSeq), suf.length = w ∧ b = List.replicate q false ++ true :: suf ∧ v = k * q + val suf

/-- A Golomb-Rice codeword cut off: in the run of zeros, or in the suffix (R152). -/
def grCut (w : Nat) (b : BitSeq) : Prop :=
  (∃ n, 1 ≤ n ∧ b = List.replicate n false) ∨
    ∃ (q : Nat) (suf : BitSeq), suf.length < w ∧ b = List.replicate q false ++ true :: suf

/-- An Elias-Gamma codeword: `n` zeros, the stop bit, `n` bits of suffix (R170, R172). -/
def egWord (v : Nat) (b : BitSeq) : Prop :=
  ∃ suf : BitSeq, b = List.replicate suf.length false ++ true :: suf ∧ v = 2 ^ suf.length + val suf

/-- An Elias-Gamma codeword cut off: in the run of zeros, or in the suffix (R172). -/
def egCut (b : BitSeq) : Prop :=
  (∃ n, 1 ≤ n ∧ b = List.replicate n false) ∨
    ∃ (n : Nat) (suf : BitSeq), suf.length < n ∧ b = List.replicate n false ++ true :: suf

/-- A Fibonacci codeword: bits of which no two adjacent ones are set and the last one is, whose terms sum to
the value, and the terminator (R193, R194). -/
def fibWord (v : Nat) (b : BitSeq) : Prop :=
  ∃ p : BitSeq, b = p ++ [true, true] ∧ NoPair (p ++ [true]) ∧ v = fibSum 0 (p ++ [true])

/-- A Fibonacci codeword cut off: no terminator, that is, no `11` (R196). -/
def fibCut (b : BitSeq) : Prop := b ≠ [] ∧ NoPair b

/-- A path from the root of the stored tree to the leaf of a symbol (R213). -/
def hufWord (s : State) (x : Sym) (b : BitSeq) : Prop :=
  ∃ r w, s.hufRoot = some r ∧ followPath s.hufNodes r b = some (.leaf x w)

/-- A path from the root of the stored tree to an inner node; the empty one leads to the root (R216). -/
def hufPart (s : State) (b : BitSeq) : Prop :=
  ∃ r w l r', s.hufRoot = some r ∧ followPath s.hufNodes r b = some (.inner w l r')

/-- The majority bit of a block of `r` bits (R242). -/
def majorityOf (r : Nat) (blk : BitSeq) : Bit := decide (r < 2 * blk.count true)

/-- The record of block `j`, if it is not unanimous (R242). -/
def voteRecord (r : Nat) (p : BitSeq × Nat) : Option DiagRec :=
  if true ∈ p.1 ∧ false ∈ p.1 then some (.repFix p.2 p.1 (majorityOf r p.1)) else none

/-- The block a source bit becomes on the way: its copies, flipped where the error pattern has a 1 (R244). -/
def flippedBlock (p : Bit × BitSeq) : BitSeq := p.2.map fun e => p.1 ^^ e

/-- The remainder of the division of `S` by the generator with its leading bit forced to 1: as many bits as
the generator has but one, and a polynomial that differs from that of `S` by a multiple (R265, R266). -/
def IsRemainder (G S rem : BitSeq) : Prop :=
  rem.length = G.length - 1 ∧ ∃ Q, polyOf S = Q * polyOf (forceLead G) + polyOf rem

/-- The document's form of the division: the window loaded with the first bits of the string (R263). -/
def crcRemDoc (G S : BitSeq) : BitSeq :=
  let W := (S.drop G.length).foldl
    (fun W b => (if W.headD false then List.zipWith Bool.xor W G else W).drop 1 ++ [b]) (S.take G.length)
  (if W.headD false then List.zipWith Bool.xor W G else W).drop 1

/-- The Hamming codeword of four data bits (R300, R301). -/
def hamWord (d : BitSeq) : BitSeq :=
  d ++ [d.getD 0 false ^^ d.getD 1 false ^^ d.getD 2 false, d.getD 1 false ^^ d.getD 2 false ^^ d.getD 3 false,
    d.getD 0 false ^^ d.getD 2 false ^^ d.getD 3 false]

/-- A Hamming codeword with no bit flipped or with one (R312). -/
def hamReceived (p : BitSeq × Option Nat) : BitSeq :=
  match p.2 with
  | none => hamWord p.1
  | some i => (hamWord p.1).set i (!(hamWord p.1).getD i false)

/-- The record of block `j`: none without a flip, the data bit put right, or the parity bit that was wrong
(R307, R308). -/
def hamRecord (p : (BitSeq × Option Nat) × Nat) : Option DiagRec :=
  match p.1.2 with
  | none => none
  | some i =>
    if i < 4 then some (.hamData p.2 i (!p.1.1.getD i false) (p.1.1.getD i false))
    else some (.hamParity p.2 i)

/-- The command word a move presents (R60). -/
def HostMove.word : HostMove → Option Byte
  | .reset => none
  | .command w _ _ _ => some w
  | .chain w => some w

/-- What R133 says of a unit: `s` presents the operand, `t` is the state after `U.ENC`, and `v`, the state after
`U.DEC` on the result, shows that operand again with `ERR = OK`, an empty `DIAG`, and `DETECT` and `CORR` 0; for
`HAM` the zeros that `HAM.ENC` reported in `PAD` stand behind it. -/
def RoundTripped (u : UnitId) (s t v : State) : Prop :=
  match u with
  | .gr | .eg | .fib | .huf => Succeeds v {} s.inSym [] []
  | .rep | .crc => ∃ m : BitSeq, s.inBit = cellsOf m ∧ Succeeds v {} [] m []
  | .ham => ∃ m : BitSeq, s.inBit = cellsOf m ∧
      Succeeds v {} [] (m ++ List.replicate (statusPad t.status).toNat false) []

end Sys2Proof.Machine
end

