-- ==== Sys2Proof/Certificates/Slice0/Obligations.lean ====
section
/-! DEFINITION. The statements for the provers, from the numbered rules of spec/. -/

section

open Sys2Proof Sys2Proof.Machine

/-! ## Command words, the step, reset -/

/-- R90 to R93: every command's word is `16*UNIT + OP`, is legal, and decodes to the command; and a word decodes to
no command but the one it is the word of. -/
def Obligations.DecodeInvertsEncode : Prop :=
  (∀ i : Instr, wellFormed i = true ∧ decodeBytes [encode i] = .ok (i, []) ∧
    (encode i).toNat = 16 * (encodeUnit i.unitOf).toNat + (encodeOp i.opOf).toNat) ∧
  ∀ (w : Byte) (i : Instr), decode w = .ok i → w = encode i

/-- R93, R96: words of the command table decode to its commands; words with a reserved field set are refused by
name. -/
def Obligations.TableWordsDecode : Prop :=
  decode 0x00#8 = .ok .grEnc ∧ decode 0x11#8 = .ok .egDec ∧ decode 0x22#8 = .ok .fibVal ∧
  decode 0x30#8 = .ok .hufEnc ∧ decode 0x43#8 = .ok .repCfg ∧ decode 0x51#8 = .ok .crcDec ∧
  decode 0x60#8 = .ok .hamEnc ∧ decode 0x63#8 = .ok .hamCfg ∧
  decode 0x80#8 = .error .reservedZ1 ∧ decode 0x04#8 = .error .reservedZ0 ∧
  decode 0x08#8 = .error .reservedZ0 ∧ decode 0x70#8 = .error .reservedUnit

/-- R96: a word that is not legal by R90 selects no command; 28 of the 256 words are legal and 228 are not; issuing
one changes no persistent state, ignores the operand, and ends with `ILLEGAL_CMD`, the word in `ERRINFO`, and empty
results. That a step issues the word, that it uses up the host's move (`t.host = rest`), and the move that takes the
last result (`chain`) are the model's (log entries 1 and 12). -/
def Obligations.IllegalWordOutcome : Prop :=
  ((List.range 256).countP fun w => decide (w / 128 = 0 ∧ w / 4 % 4 = 0 ∧ w / 16 % 8 ≤ 6)) = 28 ∧
  ((List.range 256).countP fun w => decide (¬ (w / 128 = 0 ∧ w / 4 % 4 = 0 ∧ w / 16 % 8 ≤ 6))) = 228 ∧
  ∀ (s : State) (w : Byte) (syms : SymSeq) (cells : CellSeq) (p : Param) (rest : List HostMove),
    ¬ (w.toNat / 128 = 0 ∧ w.toNat / 4 % 4 = 0 ∧ w.toNat / 16 % 8 ≤ 6) →
    (s.host = .command w syms cells p :: rest ∨ s.host = .chain w :: rest) →
    (∀ i, decode w ≠ .ok i) ∧
      ∃ t, step s = .next t ∧ Fails t 5 0 w.toNat [] ∧ SamePersistent s t ∧ t.host = rest

/-- R60, R62, R73, R120: when the host's next move presents a word that decodes to a command, the step is that
command's meaning in the state whose ports carry the word and the operand. The move is used up and nothing else
happens around the command. The moves of the host as data are the model's (log entry 1). So is the move that takes
the last result (`chain`; log entry 12): that `IN_BIT` carries `OUT_BIT` as cells is the listing's `$` of R98; that
`IN_SYM` carries `OUT_SYM` and that `PARAM` keeps what it carried are the model's reading of R60. -/
def Obligations.StepRunsPresentedCommand : Prop :=
  ∀ (s : State) (w : Byte) (i : Instr), decode w = .ok i → wellFormed i = true ∧
    (∀ syms cells p rest, s.host = .command w syms cells p :: rest →
      step s = exec i { s with cmd := w, inSym := syms, inBit := cells, param := p, host := rest }) ∧
    (∀ rest, s.host = .chain w :: rest →
      step s = exec i { s with cmd := w, inSym := s.outSym, inBit := cellsOf s.outBit, host := rest }) ∧
    ∀ n, step (s.withFetchWord n w.toNat) = exec i { s with cmd := w }

/-- R350, R370: with no move left the engine is idle and keeps its state; when `RESET` is asserted every element of
the engine takes its reset value, whatever it was, and only the host's side stays. That an idle turn and a reset
are steps, and that the ports stay, are the model's (log entries 1 and 2). -/
def Obligations.IdleAndResetMoves : Prop :=
  ∀ s : State, (s.host = [] → step s = .next s) ∧
    ∀ rest, s.host = .reset :: rest →
      step s = .next { State.reset with
        cmd := s.cmd, inSym := s.inSym, inBit := s.inBit, param := s.param, host := rest }

/-- R371: the state after reset, element by element. -/
def Obligations.ResetValues : Prop :=
  State.reset.grK = 64 ∧ State.reset.grSuflen = 6 ∧ State.reset.fibCache = [1, 2] ∧
  State.reset.hufHave = false ∧ State.reset.hufNodes = [] ∧ State.reset.hufRoot = none ∧
  State.reset.hufTable = [] ∧ State.reset.repR = 3 ∧ State.reset.crcGen = [true, false, false, true] ∧
  State.reset.crcDeg = 4 ∧ State.reset.status = 0x0000#16 ∧
  State.reset.errInfo = { sub := 0, index := 0, data := [] } ∧ State.reset.outSym = [] ∧
  State.reset.outBit = [] ∧ State.reset.diag = []

/-! ## Whole-machine statements -/

/-- R44, which the spec derives: the invariants hold after reset. -/
def Obligations.InvAtReset : Prop := State.reset.Inv

/-- R44, which the spec derives, and R120: from every state that satisfies the invariants a step answers a next
state, which satisfies them too, and exactly one of the host's moves has been used up. The moves of the host as
data are the model's (log entry 1). -/
def Obligations.EveryStepKeepsInv : Prop :=
  ∀ s : State, s.Inv → ∃ t, step s = .next t ∧ t.Inv ∧ t.host = s.host.tail

/-- R23 to R26, R271, R335: after every step that is not idle the result registers hold one well-formed outcome: a
code of at most 5, zero upper bits, no field beside an error code, a clear `ERRINFO` on success, never two
result streams, `CORR` and `DETECT` exactly as the records in `DIAG` say. -/
def Obligations.OutcomesAreWellFormed : Prop :=
  ∀ s t : State, s.Inv → s.host ≠ [] → step s = .next t → OutcomeOk t

/-- R332, which the spec derives: a command ends with no error but those of its row of the table, and every error of
the row (the unreachable one apart) is the outcome of the command on some operand. -/
def Obligations.ErrorTable : Prop :=
  (∀ (i : Instr) (s t : State), exec i s = .next t → statusErr t.status ≠ 0#3 →
    ((statusErr t.status).toNat, t.errInfo.sub) ∈ allowedErrors i) ∧
  ∀ (i : Instr) (e : Nat × Nat), e ∈ allowedErrors i → ∃ s t : State, s.Inv ∧ exec i s = .next t ∧
    ((statusErr t.status).toNat, t.errInfo.sub) = e

/-- R132, which the spec derives: a command that ends with an error leaves every persistent register as it was, but
for `FIB.CACHE`, which a failing `FIB.DEC` may have extended; the only command that replaces the tree is
`HUF.ENC`, and `HUF.ENC` does not fail. -/
def Obligations.FailedCommandKeepsState : Prop :=
  (∀ (i : Instr) (s t : State), s.Inv → exec i s = .next t → statusErr t.status ≠ 0#3 →
    SamePersistentButFib s t ∧ s.fibCache <+: t.fibCache ∧ (i ≠ .fibDec → SamePersistent s t)) ∧
  (∀ (i : Instr) (s t : State), exec i s = .next t → i ≠ .hufEnc → SameUnit .huf s t) ∧
  ∀ s : State, ∃ t, exec .hufEnc s = .next t ∧ statusErr t.status = 0#3

/-- R20, R40, R72: a command writes persistent registers of its own unit only: `CFG` those of `GR`, `REP` and `CRC`,
`ENC` the tree of `HUF`, `ENC` and `DEC` the cache of `FIB`; no command touches the ports. -/
def Obligations.UnitsOwnTheirState : Prop :=
  ∀ (i : Instr) (s t : State), exec i s = .next t →
    SameHost s t ∧ (∀ u, u ≠ i.unitOf → SameUnit u s t) ∧
    (i ∉ [Instr.grCfg, .repCfg, .crcCfg, .hufEnc, .fibEnc, .fibDec] → SamePersistent s t)

/-- R73 (c), R120, R337, R384: what a command gives depends on its operand and on its own unit's registers alone:
not on the other units, not on the outcome of an earlier command. -/
def Obligations.UnitsAreIndependent : Prop :=
  ∀ (i : Instr) (s₁ s₂ t₁ : State), s₂.inSym = s₁.inSym → s₂.inBit = s₁.inBit → s₂.param = s₁.param →
    SameUnit i.unitOf s₁ s₂ → exec i s₁ = .next t₁ →
    ∃ t₂, exec i s₂ = .next t₂ ∧ SameOutcome t₁ t₂ ∧ SameUnit i.unitOf t₁ t₂

/-- R192, which the spec derives: no result of any command depends on the length of `FIB.CACHE`: two states that
differ in it alone give the same outcome and the same other registers, and go on differing in it alone. -/
def Obligations.CacheIsInvisible : Prop :=
  ∀ (i : Instr) (s₁ s₂ t₁ : State), FibCacheOk s₁.fibCache → FibCacheOk s₂.fibCache →
    SamePersistentButFib s₁ s₂ → s₂.inSym = s₁.inSym → s₂.inBit = s₁.inBit → s₂.param = s₁.param →
    exec i s₁ = .next t₁ →
    ∃ t₂, exec i s₂ = .next t₂ ∧ SameOutcome t₁ t₂ ∧ SamePersistentButFib t₁ t₂ ∧
      FibCacheOk t₁.fibCache ∧ FibCacheOk t₂.fibCache

/-- R73 (a) and (b), R372: over any run in which no move resets the engine, a unit's parameter, or the tree, stays
until a command that writes it is issued. The moves of the host as data are the model's (log entry 1). -/
def Obligations.ParametersPersist : Prop :=
  ∀ (k : Nat) (s t : State), Host.Core.run core k s = .next t →
    (∀ mv ∈ s.host.take k, mv ≠ .reset) →
    ((∀ mv ∈ s.host.take k, mv.word ≠ some 0x03#8) → SameUnit .gr s t) ∧
    ((∀ mv ∈ s.host.take k, mv.word ≠ some 0x30#8) → SameUnit .huf s t) ∧
    ((∀ mv ∈ s.host.take k, mv.word ≠ some 0x43#8) → SameUnit .rep s t) ∧
    ((∀ mv ∈ s.host.take k, mv.word ≠ some 0x53#8) → SameUnit .crc s t)

/-! ## VAL and CFG -/

/-- R130: `U.VAL` ends with `ERR = OK`, writes the other results empty and changes nothing else; it answers 1
exactly when `U.ENC` on the same operand in the same state ends with `ERR = OK`, which is always for `GR` and
`HUF`, for a text without the code point zero for `EG` and `FIB`, and for cells without `BX` for `REP`, `CRC`
and `HAM`. -/
def Obligations.ValAnswersForEnc : Prop :=
  ∀ (v e : Instr) (s : State), v.opOf = .val → e.opOf = .enc → e.unitOf = v.unitOf →
    ∃ (t : State) (a : Bit), exec v s = .next t ∧ Succeeds t { valid := a } [] [] [] ∧ Frame s t ∧
      (a = true ↔ ∃ u, exec e s = .next u ∧ statusErr u.status = 0#3) ∧
      (v.unitOf ∈ [UnitId.gr, .huf] → a = true) ∧
      (v.unitOf ∈ [UnitId.eg, .fib] → (a = true ↔ ∀ x ∈ s.inSym, x.val ≠ 0)) ∧
      (v.unitOf ∈ [UnitId.rep, .crc, .ham] → (a = true ↔ .bX ∉ s.inBit))

/-- R158, R131: `GR.CFG`, the word `0x03`, with `PInt(z)`, `z >= 1`, writes `GR.K` and with it `GR.SUFLEN`, the
least width that holds every remainder; any other operand is rejected and changes nothing. -/
def Obligations.GrCfgSetsParameter : Prop :=
  decode 0x03#8 = .ok .grCfg ∧
  ∀ s : State, ∃ t, exec .grCfg s = .next t ∧ (∀ u, u ≠ .gr → SameUnit u s t) ∧ SameHost s t ∧
    (∀ z : Int, s.param = .pInt z → 1 ≤ z → Succeeds t {} [] [] [] ∧ (t.grK : Int) = z ∧
      t.grK ≤ 2 ^ t.grSuflen ∧ ∀ w, t.grK ≤ 2 ^ w → t.grSuflen ≤ w) ∧
    (∀ z : Int, s.param = .pInt z → z < 1 → Succeeds t { rej := true } [] [] [] ∧ SameUnit .gr s t) ∧
    (∀ g, s.param = .pGen g → Succeeds t { rej := true } [] [] [] ∧ SameUnit .gr s t)

/-- R246, R131: `REP.CFG`, the word `0x43`, with `PInt(z)`, `z >= 1`, writes `REP.R`; any other operand is rejected
and changes nothing. -/
def Obligations.RepCfgSetsParameter : Prop :=
  decode 0x43#8 = .ok .repCfg ∧
  ∀ s : State, ∃ t, exec .repCfg s = .next t ∧ (∀ u, u ≠ .rep → SameUnit u s t) ∧ SameHost s t ∧
    (∀ z : Int, s.param = .pInt z → 1 ≤ z → Succeeds t {} [] [] [] ∧ (t.repR : Int) = z) ∧
    (∀ z : Int, s.param = .pInt z → z < 1 → Succeeds t { rej := true } [] [] [] ∧ SameUnit .rep s t) ∧
    (∀ g, s.param = .pGen g → Succeeds t { rej := true } [] [] [] ∧ SameUnit .rep s t)

/-- R273, R131: `CRC.CFG`, the word `0x53`, with `PGen(g)`, `g` not empty and without `BX`, writes the bits of `g`
to `CRC.GEN` and its length to `CRC.DEG`; any other operand is rejected and changes nothing. -/
def Obligations.CrcCfgSetsGenerator : Prop :=
  decode 0x53#8 = .ok .crcCfg ∧
  ∀ s : State, ∃ t, exec .crcCfg s = .next t ∧ (∀ u, u ≠ .crc → SameUnit u s t) ∧ SameHost s t ∧
    (∀ bits : BitSeq, s.param = .pGen (cellsOf bits) → bits ≠ [] →
      Succeeds t {} [] [] [] ∧ t.crcGen = bits ∧ t.crcDeg = bits.length) ∧
    (s.param = .pGen [] → Succeeds t { rej := true } [] [] [] ∧ SameUnit .crc s t) ∧
    (∀ g, s.param = .pGen g → .bX ∈ g → Succeeds t { rej := true } [] [] [] ∧ SameUnit .crc s t) ∧
    (∀ z, s.param = .pInt z → Succeeds t { rej := true } [] [] [] ∧ SameUnit .crc s t)

/-- R174, R198, R218, R311: the `CFG` commands of the units without a parameter, `0x13`, `0x23`, `0x33` and `0x63`,
ignore the operand, change nothing, and end with every field of `STATUS` 0. -/
def Obligations.CfgWithoutParameter : Prop :=
  decode 0x13#8 = .ok .egCfg ∧ decode 0x23#8 = .ok .fibCfg ∧ decode 0x33#8 = .ok .hufCfg ∧
  decode 0x63#8 = .ok .hamCfg ∧
  ∀ (i : Instr) (s : State), i ∈ [Instr.egCfg, .fibCfg, .hufCfg, .hamCfg] →
    ∃ t, exec i s = .next t ∧ Succeeds t {} [] [] [] ∧ t.status = 0x0000#16 ∧ Frame s t

/-! ## Bit strings and logarithms -/

/-- R126, which the spec derives, with R125, which says what `bin` is: `val` is the sum of the bits times their
powers of two; `bin` has the width asked for and the number's bits, the most significant first; the two undo
each other. -/
def Obligations.BinAndValAreInverse : Prop :=
  (∀ s : BitSeq, val s = ∑ i ∈ Finset.range s.length, (s.getD i false).toNat * 2 ^ (s.length - 1 - i)) ∧
  val [] = 0 ∧
  (∀ v w : Nat, v < 2 ^ w → bin v w = msbFirst v w ∧ val (bin v w) = v) ∧
  ∀ s : BitSeq, bin (val s) s.length = s

/-- R12, R135: `clog2` and `flog2` are the exact integer logarithms. -/
def Obligations.LogarithmsAreExact : Prop :=
  (∀ k : Nat, 1 ≤ k → k ≤ 2 ^ clog2 k ∧ ∀ w, k ≤ 2 ^ w → clog2 k ≤ w) ∧
  ∀ v : Nat, 1 ≤ v → 2 ^ flog2 v ≤ v ∧ ∀ n, 2 ^ n ≤ v → n ≤ flog2 v

/-! ## Golomb-Rice -/

/-- R150, R151: `GR.ENC`, the word `0x00`, takes every text; each symbol `v` becomes `v div k` zeros, a one, and `v
mod k` in `clog2(k)` bits, the most significant first; `STATUS` is 0 and no register changes. -/
def Obligations.GrEncWritesCodewords : Prop :=
  decode 0x00#8 = .ok .grEnc ∧
  ∀ s : State, s.Inv → ∃ t, exec .grEnc s = .next t ∧ Frame s t ∧
    Succeeds t {} [] (s.inSym.flatMap fun v =>
      List.replicate (v.val / s.grK) false ++ true :: msbFirst (v.val % s.grK) (clog2 s.grK)) []

/-- R152: `GR.DEC`, the word `0x01`, reads codewords of a run of zeros, a one and `clog2(k)` bits, as `k*q + suf`, a
suffix of `k` or more included; it changes no register. -/
def Obligations.GrDecReadsCodewords : Prop :=
  decode 0x01#8 = .ok .grDec ∧
  ∀ s : State, s.Inv → ∃ t, exec .grDec s = .next t ∧ Frame s t ∧
    DecodesBy (grWord s.grK (clog2 s.grK)) (grCut (clog2 s.grK)) s t

/-- R156, which the spec derives: for every `k >= 1` and every text, `GR.DEC` on the result of `GR.ENC` gives the
text. The second command takes the result through the listing's `$` (R98; log entries 1 and 12). -/
def Obligations.GrRoundTrip : Prop :=
  ∀ (s : State) (m : SymSeq) (cells : CellSeq) (p : Param) (rest : List HostMove), s.Inv →
    s.host = .command 0x00#8 m cells p :: .chain 0x01#8 :: rest →
    ∃ t u, step s = .next t ∧ statusErr t.status = 0#3 ∧ step t = .next u ∧ Succeeds u {} m [] []

/-! ## Elias-Gamma -/

/-- R170, R171, R123: `EG.ENC`, the word `0x10`, turns each symbol `v >= 1`, with `n = flog2(v)`, into `n` zeros, a
one, and the `n` low bits of `v`; a text with the code point zero ends with `ZERO_SYMBOL` at the first one. -/
def Obligations.EgEncWritesCodewords : Prop :=
  decode 0x10#8 = .ok .egEnc ∧
  ∀ s : State, ∃ t, exec .egEnc s = .next t ∧ Frame s t ∧
    (∀ i, FirstZeroAt s.inSym i → Fails t 1 1 i []) ∧
    ((∀ v ∈ s.inSym, v.val ≠ 0) → Succeeds t {} [] (s.inSym.flatMap fun v =>
      List.replicate (flog2 v.val) false ++ true :: msbFirst (v.val - 2 ^ flog2 v.val) (flog2 v.val)) [])

/-- R172: `EG.DEC` reads codewords of `n` zeros, a one and `n` bits, as `2^n + suf`; it changes no register. -/
def Obligations.EgDecReadsCodewords : Prop :=
  ∀ s : State, ∃ t, exec .egDec s = .next t ∧ Frame s t ∧ DecodesBy egWord egCut s t

/-- R172, in a sentence the spec derives: `EG.DEC` is injective on the operands it accepts: each is the `EG.ENC`
image of its text, which has no symbol 0. -/
def Obligations.EgDecAcceptsImagesOnly : Prop :=
  ∀ s t : State, exec .egDec s = .next t → statusErr t.status = 0#3 →
    (∀ v ∈ t.outSym, v.val ≠ 0) ∧
    ∃ u, exec .egEnc { s with inSym := t.outSym } = .next u ∧ statusErr u.status = 0#3 ∧
      s.inBit = cellsOf u.outBit

/-- R176, which the spec derives: for every text without the code point zero, `EG.DEC` on the result of `EG.ENC`
gives the text. The second command takes the result through the listing's `$` (R98; log entries 1 and 12). -/
def Obligations.EgRoundTrip : Prop :=
  ∀ (s : State) (m : SymSeq) (cells : CellSeq) (p : Param) (rest : List HostMove),
    (∀ v ∈ m, v.val ≠ 0) → s.host = .command 0x10#8 m cells p :: .chain 0x11#8 :: rest →
    ∃ t u, step s = .next t ∧ statusErr t.status = 0#3 ∧ step t = .next u ∧ Succeeds u {} m [] []

/-! ## Fibonacci -/

/-- R191: `fib(i) = F(i)` for every `i`, whatever the cache held before; reading it keeps what the cache held,
extends it with further terms, and just as far as it must. -/
def Obligations.FibCacheIsExact : Prop :=
  ∀ (c : List Nat) (i : Nat), FibCacheOk c → fibTerm i c = fibNum i ∧ FibCacheOk (fibReach i c) ∧
    c <+: fibReach i c ∧ (fibReach i c).length = max c.length (i + 1)

/-- R193 to R195, R123: `FIB.ENC` turns each symbol into its Zeckendorf codeword, and there is one way only to do
so, the uniqueness that R193 states; a text with the code point zero ends with `ZERO_SYMBOL` at the first one and
leaves the cache; the cache only grows, past every term that was needed, and no other register changes. -/
def Obligations.FibEncWritesCodewords : Prop :=
  ∀ s : State, s.Inv → ∃ t, exec .fibEnc s = .next t ∧ SamePersistentButFib s t ∧ SameHost s t ∧
    FibCacheOk t.fibCache ∧ s.fibCache <+: t.fibCache ∧
    (∀ i, FirstZeroAt s.inSym i → Fails t 1 1 i [] ∧ t.fibCache = s.fibCache) ∧
    ((∀ v ∈ s.inSym, v.val ≠ 0) →
      (∃ ws : List BitSeq, List.Forall₂ (fun (v : Sym) b => fibWord v.val b ∧ b.length ≤ t.fibCache.length)
        s.inSym ws ∧ Succeeds t {} [] ws.flatten []) ∧
      ∀ ws : List BitSeq, List.Forall₂ (fun (v : Sym) b => fibWord v.val b) s.inSym ws →
        t.outBit = ws.flatten)

/-- R196: `FIB.DEC` reads codewords up to their first `11`, as the sum of the terms at their ones but the last; the
cache only grows, also when the command fails, and no other register changes. -/
def Obligations.FibDecReadsCodewords : Prop :=
  ∀ s : State, s.Inv → ∃ t, exec .fibDec s = .next t ∧ SamePersistentButFib s t ∧ SameHost s t ∧
    FibCacheOk t.fibCache ∧ s.fibCache <+: t.fibCache ∧ DecodesBy fibWord fibCut s t

/-- R196, in a sentence the spec derives: `FIB.DEC` is injective on the operands it accepts: each is the `FIB.ENC`
image of its text, which has no symbol 0. -/
def Obligations.FibDecAcceptsImagesOnly : Prop :=
  ∀ s t : State, s.Inv → exec .fibDec s = .next t → statusErr t.status = 0#3 →
    (∀ v ∈ t.outSym, v.val ≠ 0) ∧
    ∃ u, exec .fibEnc { s with inSym := t.outSym } = .next u ∧ statusErr u.status = 0#3 ∧
      s.inBit = cellsOf u.outBit

/-- R200, which the spec derives: for every text without the code point zero, `FIB.DEC` on the result of `FIB.ENC`
gives the text. The second command takes the result through the listing's `$` (R98; log entries 1 and 12). -/
def Obligations.FibRoundTrip : Prop :=
  ∀ (s : State) (m : SymSeq) (cells : CellSeq) (p : Param) (rest : List HostMove), s.Inv →
    (∀ v ∈ m, v.val ≠ 0) → s.host = .command 0x20#8 m cells p :: .chain 0x21#8 :: rest →
    ∃ t u, step s = .next t ∧ statusErr t.status = 0#3 ∧ step t = .next u ∧ Succeeds u {} m [] []

/-! ## Huffman -/

/-- R211, R212, R214, R220: `HUF.ENC` builds the arena of its text: a leaf with its count for each distinct symbol
in the order of first occurrence, then the merges of the two lowest nodes in the order of weight and insertion,
the first one the left child, `2M - 1` nodes in all and the last one the root; nothing of the other units
changes. The order of creation and of the children is the spec's own choice (D21). -/
def Obligations.HufEncBuildsArena : Prop :=
  ∀ s : State, ∃ (t : State) (syms : List Sym), exec .hufEnc s = .next t ∧ t.hufHave = true ∧
    HufArenaOk s.inSym syms t.hufNodes t.hufRoot ∧ (∀ u, u ≠ .huf → SameUnit u s t) ∧ SameHost s t

/-- R213, R215, R219: after `HUF.ENC` the table has a code for the symbols of the text and no other: the path from
the root to the symbol's leaf, or `0` for a symbol that stands alone; the result is the codes of the text's
symbols one after the other, and `STATUS` is 0. -/
def Obligations.HufEncWritesCodes : Prop :=
  ∀ s : State, ∃ t, exec .hufEnc s = .next t ∧
    (∀ x, (∃ b, tableGet x t.hufTable = some b) ↔ x ∈ s.inSym) ∧
    (∀ x b, hufPart t [] → (tableGet x t.hufTable = some b ↔ hufWord t x b)) ∧
    (∀ x, hufWord t x [] → t.hufTable = [(x, [false])]) ∧
    ∃ codes : List BitSeq, List.Forall₂ (fun x b => tableGet x t.hufTable = some b) s.inSym codes ∧
      Succeeds t {} [] codes.flatten []

/-- R216: `HUF.DEC` in its four cases: no tree; the empty tree; a lone leaf; a tree with an inner root, whose walk
gives the symbols of the whole paths and, if it ends between the root and a leaf, `TRUNCATED` at the first bit
of that path. Every operand of bits is whole paths and a part of one. No register changes. -/
def Obligations.HufDecWalksTree : Prop :=
  ∀ s : State, s.Inv → ∃ t, exec .hufDec s = .next t ∧ Frame s t ∧
    (s.hufHave = false → Fails t 4 1 0 []) ∧
    (s.hufHave = true →
      (∀ i, FirstBad s.inBit i → Fails t 2 1 i []) ∧
      (s.hufRoot = none → (s.inBit = [] → Succeeds t {} [] [] []) ∧
        ∀ bits, bits ≠ [] → s.inBit = cellsOf bits → Fails t 2 5 0 []) ∧
      (∀ x, hufWord s x [] →
        (∀ n, s.inBit = cellsOf (List.replicate n false) → Succeeds t {} (List.replicate n x) [] []) ∧
        ∀ n rest, s.inBit = cellsOf (List.replicate n false ++ true :: rest) → Fails t 2 5 n []) ∧
      (hufPart s [] →
        (∀ (ws : List (Sym × BitSeq)) (tail : BitSeq), (∀ p ∈ ws, hufWord s p.1 p.2) → hufPart s tail →
          s.inBit = cellsOf (wordBits ws ++ tail) →
          (tail = [] → Succeeds t {} (ws.map Prod.fst) [] []) ∧
          (tail ≠ [] → Fails t 2 3 (wordBits ws).length [])) ∧
        ∀ bits : BitSeq, ∃ (ws : List (Sym × BitSeq)) (tail : BitSeq), (∀ p ∈ ws, hufWord s p.1 p.2) ∧
          hufPart s tail ∧ bits = wordBits ws ++ tail))

/-- R221 (a): the code of `HUF.ENC` is a prefix code. -/
def Obligations.HufCodeIsPrefixFree : Prop :=
  ∀ s : State, ∃ t, exec .hufEnc s = .next t ∧ ∀ x y b c, tableGet x t.hufTable = some b →
    tableGet y t.hufTable = some c → x ≠ y → ¬ b <+: c

/-- R221 (c): a symbol that occurs more often never has the longer code. The spec takes this from general knowledge
(G4 of spec/93_implementation_defined.md), not from the document. -/
def Obligations.HufLengthsFollowCounts : Prop :=
  ∀ s : State, ∃ t, exec .hufEnc s = .next t ∧ ∀ x y b c, tableGet x t.hufTable = some b →
    tableGet y t.hufTable = some c → s.inSym.count x < s.inSym.count y → c.length ≤ b.length

/-- R221 (d): the length of the result is the sum, over the distinct symbols, of count times code length. -/
def Obligations.HufResultLength : Prop :=
  ∀ s : State, ∃ t, exec .hufEnc s = .next t ∧
    t.outBit.length = ∑ x ∈ s.inSym.toFinset, s.inSym.count x * ((tableGet x t.hufTable).getD []).length

/-- R222, which the spec derives: for every text, `HUF.DEC` on the result of `HUF.ENC` gives the text. The second
command takes the result through the listing's `$` (R98; log entries 1 and 12). -/
def Obligations.HufRoundTrip : Prop :=
  ∀ (s : State) (m : SymSeq) (cells : CellSeq) (p : Param) (rest : List HostMove),
    s.host = .command 0x30#8 m cells p :: .chain 0x31#8 :: rest →
    ∃ t u, step s = .next t ∧ statusErr t.status = 0#3 ∧ step t = .next u ∧ Succeeds u {} m [] []

/-! ## Repetition -/

/-- R240, R241: `REP.ENC`, the word `0x40`, replaces each bit by `r` copies of it; a `BX` cell ends it with
`NON_BINARY` at the first one; no register changes. -/
def Obligations.RepEncRepeatsBits : Prop :=
  decode 0x40#8 = .ok .repEnc ∧
  ∀ s : State, ∃ t, exec .repEnc s = .next t ∧ Frame s t ∧
    (∀ i, FirstBad s.inBit i → Fails t 1 2 i []) ∧
    ∀ bits, s.inBit = cellsOf bits →
      ∃ out, Succeeds t {} [] out [] ∧ out.length = bits.length * s.repR ∧
        ∀ i j, i < bits.length → j < s.repR → out[i * s.repR + j]? = bits[i]?

/-- R242: `REP.DEC`, the word `0x41`, gives the majority bit of each block, with a record for each block that is not
unanimous; the first block with as many ones as zeros ends it with `TIE`; a length that is no multiple of `r`,
and a `BX` cell, end it before any block. No register changes. -/
def Obligations.RepDecVotes : Prop :=
  decode 0x41#8 = .ok .repDec ∧
  ∀ s : State, s.Inv → ∃ t, exec .repDec s = .next t ∧ Frame s t ∧
    (∀ i, FirstBad s.inBit i → Fails t 2 1 i []) ∧
    (∀ bits, s.inBit = cellsOf bits → bits.length % s.repR ≠ 0 → Fails t 2 2 bits.length []) ∧
    (∀ blks : List BitSeq, (∀ b ∈ blks, b.length = s.repR) → s.inBit = cellsOf blks.flatten →
      (∀ b ∈ blks, 2 * b.count true ≠ s.repR) →
      Succeeds t { corr := !(blks.zipIdx.filterMap (voteRecord s.repR)).isEmpty } []
        (blks.map (majorityOf s.repR)) (blks.zipIdx.filterMap (voteRecord s.repR))) ∧
    ∀ (pre : List BitSeq) (blk : BitSeq) (post : List BitSeq),
      (∀ b ∈ pre ++ blk :: post, b.length = s.repR) → s.inBit = cellsOf (pre ++ blk :: post).flatten →
      (∀ b ∈ pre, 2 * b.count true ≠ s.repR) → 2 * blk.count true = s.repR →
      Fails t 3 1 pre.length (cellsOf blk)

/-- R244, which the spec derives: a block decodes to its source bit when fewer than half of its copies were flipped,
to the other bit when more were, and a block with exactly half flipped ends the command with `TIE`; a record is
there unless none or all of the copies were flipped. -/
def Obligations.RepCorrectionPower : Prop :=
  ∀ (s : State) (blks : List (Bit × BitSeq)), s.Inv → (∀ p ∈ blks, p.2.length = s.repR) →
    s.inBit = cellsOf (blks.flatMap flippedBlock) → ∃ t, exec .repDec s = .next t ∧
    ((∀ p ∈ blks, 2 * p.2.count true ≠ s.repR) → statusErr t.status = 0#3 ∧
      t.outBit = blks.map (fun p => if 2 * p.2.count true < s.repR then p.1 else !p.1) ∧
      t.diag = blks.zipIdx.filterMap (fun q =>
        if 0 < q.1.2.count true ∧ q.1.2.count true < s.repR then
          some (.repFix q.2 (flippedBlock q.1) (if 2 * q.1.2.count true < s.repR then q.1.1 else !q.1.1))
        else none)) ∧
    ∀ pre p post, blks = pre ++ p :: post → (∀ q ∈ pre, 2 * q.2.count true ≠ s.repR) →
      2 * p.2.count true = s.repR → Fails t 3 1 pre.length (cellsOf (flippedBlock p))

/-- R245, which the spec derives: for every `r >= 1` and every bit string, `REP.DEC` on the result of `REP.ENC`
gives the bit string, with empty `DIAG` and `CORR = 0`. The second command takes the result through the listing's
`$` (R98; log entries 1 and 12). -/
def Obligations.RepRoundTrip : Prop :=
  ∀ (s : State) (m : BitSeq) (syms : SymSeq) (p : Param) (rest : List HostMove), s.Inv →
    s.host = .command 0x40#8 syms (cellsOf m) p :: .chain 0x41#8 :: rest →
    ∃ t u, step s = .next t ∧ statusErr t.status = 0#3 ∧ step t = .next u ∧ Succeeds u {} [] m []

/-! ## CRC -/

/-- R264, with the remainder as R265 and R266 derive it: `CRC.ENC` gives the operand and behind it the remainder of
the operand with `d - 1` zeros appended, divided by the generator as polynomials (R260, whose reading of a string as
a polynomial is general knowledge, G3); a `BX` cell ends it with `NON_BINARY` at the first one; no register changes. -/
def Obligations.CrcEncAppendsRemainder : Prop :=
  ∀ s : State, s.Inv → ∃ t, exec .crcEnc s = .next t ∧ Frame s t ∧
    (∀ i, FirstBad s.inBit i → Fails t 1 2 i []) ∧
    ∀ bits, s.inBit = cellsOf bits → ∃ rem,
      IsRemainder s.crcGen (bits ++ List.replicate (s.crcGen.length - 1) false) rem ∧
      Succeeds t {} [] (bits ++ rem) []

/-- R270, R271, with the remainder as R265 and R266 derive it: `CRC.DEC` divides the received bits as they are, as
polynomials (R260, general knowledge, G3); a zero remainder gives the payload and `DETECT = 0`, any other gives the
payload with the remainder behind it, `DETECT = 1` and its record; an operand shorter than `d - 1` bits, and a `BX`
cell, end it; no register changes. -/
def Obligations.CrcDecDivides : Prop :=
  ∀ s : State, s.Inv → ∃ t, exec .crcDec s = .next t ∧ Frame s t ∧
    (∀ i, FirstBad s.inBit i → Fails t 2 1 i []) ∧
    (∀ bits, s.inBit = cellsOf bits → bits.length < s.crcGen.length - 1 → Fails t 2 2 bits.length []) ∧
    ∀ bits, s.inBit = cellsOf bits → s.crcGen.length - 1 ≤ bits.length → ∃ rem,
      IsRemainder s.crcGen bits rem ∧
      (true ∉ rem → Succeeds t {} [] (bits.take (bits.length - (s.crcGen.length - 1))) []) ∧
      (true ∈ rem → Succeeds t { detect := true } []
        (bits.take (bits.length - (s.crcGen.length - 1)) ++ rem) [.crcDetect rem])

/-- R265, which the spec derives: when the leading bit of `G` is 1, `CrcRem(G, S)` is the unique sequence of `d - 1`
bits whose polynomial (R260, general knowledge, G3) is the remainder of that of `S` divided by that of `G`. -/
def Obligations.CrcRemIsThePolynomialRemainder : Prop :=
  ∀ g S : BitSeq, (crcRem (true :: g) (g.length + 1) S).length = g.length ∧
    (∃ Q, polyOf S = Q * polyOf (true :: g) + polyOf (crcRem (true :: g) (g.length + 1) S)) ∧
    ∀ R : BitSeq, R.length = g.length → (∃ Q, polyOf S = Q * polyOf (true :: g) + polyOf R) →
      R = crcRem (true :: g) (g.length + 1) S

/-- R263, in a sentence the spec derives: for a string at least as long as the generator, the document's form of the
division, which loads the window with the first `d` bits, gives the same remainder. -/
def Obligations.CrcDocumentFormAgrees : Prop :=
  ∀ G S : BitSeq, 1 ≤ G.length → G.length ≤ S.length → crcRemDoc G S = crcRem G G.length S

/-- R266, which the spec derives: the leading bit of the generator is never observable: the remainder is that under
the generator with its leading bit forced to 1, and so are the outcomes of `CRC.ENC` and `CRC.DEC`. -/
def Obligations.CrcLeadingBitIsInvisible : Prop :=
  (∀ G S : BitSeq, 1 ≤ G.length → crcRem G G.length S = crcRem (true :: G.drop 1) G.length S) ∧
  ∀ (i : Instr) (s t : State), i ∈ [Instr.crcEnc, .crcDec] → s.Inv → exec i s = .next t →
    ∃ t', exec i { s with crcGen := true :: s.crcGen.drop 1 } = .next t' ∧ SameOutcome t t'

/-- R267, and R269, which the spec derives: a string shorter than the generator is its own remainder, with zeros in
front; under a generator of length 1 the remainder is empty, and `CRC.ENC` and `CRC.DEC` give their operand
back. -/
def Obligations.CrcShortStrings : Prop :=
  (∀ G S : BitSeq, S.length < G.length →
    crcRem G G.length S = List.replicate (G.length - 1 - S.length) false ++ S) ∧
  (∀ (b : Bit) (S : BitSeq), crcRem [b] 1 S = []) ∧
  ∀ (i : Instr) (s : State) (bits : BitSeq), i ∈ [Instr.crcEnc, .crcDec] → s.Inv → s.crcGen.length = 1 →
    s.inBit = cellsOf bits → ∃ t, exec i s = .next t ∧ Succeeds t {} [] bits []

/-- R268, which the spec derives: the four laws of `CrcRem` for every legal generator: linearity, leading zeros, a
codeword of `CRC.ENC` has the remainder zero, and the remainder of a received codeword is that of its error
pattern. -/
def Obligations.CrcRemLaws : Prop :=
  ∀ G : BitSeq, 1 ≤ G.length →
    (∀ A B : BitSeq, A.length = B.length → crcRem G G.length (xorSeq A B) =
      xorSeq (crcRem G G.length A) (crcRem G G.length B)) ∧
    (∀ S : BitSeq, crcRem G G.length (false :: S) = crcRem G G.length S) ∧
    ∀ M C : BitSeq, C = M ++ crcRem G G.length (M ++ List.replicate (G.length - 1) false) →
      crcRem G G.length C = List.replicate (G.length - 1) false ∧
      ∀ E : BitSeq, E.length = C.length → crcRem G G.length (xorSeq C E) = crcRem G G.length E

/-- R274, which the spec derives: when a codeword made by `CRC.ENC` arrives with the bits of `E` flipped, `CRC.DEC`
under the same generator reports `DETECT = 0` exactly when the polynomial of `E` (R260, general knowledge, G3) is a
multiple of that of `G'`; a single flipped bit is always detected when a bit of `G` behind the leading one is 1, and
never in the payload when none is. -/
def Obligations.CrcDetectsNonMultiples : Prop :=
  ∀ (s : State) (M : BitSeq), s.Inv → s.inBit = cellsOf M → ∃ t, exec .crcEnc s = .next t ∧
    ∀ E : BitSeq, E.length = t.outBit.length →
      ∃ u, exec .crcDec { t with inBit := cellsOf (xorSeq t.outBit E) } = .next u ∧
        statusErr u.status = 0#3 ∧
        (statusDetect u.status = false ↔ polyOf (true :: s.crcGen.drop 1) ∣ polyOf E) ∧
        (true ∈ s.crcGen.drop 1 → E.count true = 1 → statusDetect u.status = true) ∧
        (true ∉ s.crcGen.drop 1 → E.count true = 1 → true ∈ E.take M.length →
          statusDetect u.status = false)

/-- R277, which the spec derives: for every legal generator and every bit string, `CRC.DEC` on the result of
`CRC.ENC` gives the bit string with `DETECT = 0` and empty `DIAG`. The second command takes the result through the
listing's `$` (R98; log entries 1 and 12). -/
def Obligations.CrcRoundTrip : Prop :=
  ∀ (s : State) (m : BitSeq) (syms : SymSeq) (p : Param) (rest : List HostMove), s.Inv →
    s.host = .command 0x50#8 syms (cellsOf m) p :: .chain 0x51#8 :: rest →
    ∃ t u, step s = .next t ∧ statusErr t.status = 0#3 ∧ step t = .next u ∧ Succeeds u {} [] m []

/-! ## Hamming(7,4) -/

/-- R300 to R302: `HAM.ENC`, the word `0x60`, pads its operand with zeros to whole blocks of four, reports how many
in `PAD`, and writes each block's data bits and its three parity bits; a `BX` cell ends it with `NON_BINARY` at
the first one; no register changes. -/
def Obligations.HamEncWritesCodewords : Prop :=
  decode 0x60#8 = .ok .hamEnc ∧
  ∀ s : State, ∃ t, exec .hamEnc s = .next t ∧ Frame s t ∧
    (∀ i, FirstBad s.inBit i → Fails t 1 2 i []) ∧
    ∀ bits, s.inBit = cellsOf bits → ∃ (pad : Nat) (blks : List BitSeq), pad < 4 ∧
      (∀ d ∈ blks, d.length = 4) ∧ blks.flatten = bits ++ List.replicate pad false ∧
      Succeeds t { pad := BitVec.ofNat 2 pad } [] (blks.flatMap hamWord) []

/-- R304 to R308, R312, and R309, which the spec derives: `HAM.DEC` puts right every block that is a codeword with
at most one bit flipped, and says which bit it was; every block of seven bits is such a block, so it never ends
with `UNCORRECTABLE`; a length that is no multiple of 7, and a `BX` cell, end it. No register changes. -/
def Obligations.HamDecCorrectsOneFlip : Prop :=
  (∀ blk : BitSeq, blk.length = 7 → ∃ (d : BitSeq) (q : Option Nat), d.length = 4 ∧ (∀ i ∈ q, i < 7) ∧
    blk = hamReceived (d, q)) ∧
  ∀ s : State, ∃ t, exec .hamDec s = .next t ∧ Frame s t ∧
    (∀ i, FirstBad s.inBit i → Fails t 2 1 i []) ∧
    (∀ bits, s.inBit = cellsOf bits → bits.length % 7 ≠ 0 → Fails t 2 2 bits.length []) ∧
    ∀ blks : List (BitSeq × Option Nat), (∀ p ∈ blks, p.1.length = 4 ∧ ∀ i ∈ p.2, i < 7) →
      s.inBit = cellsOf (blks.flatMap hamReceived) →
      Succeeds t { corr := blks.any fun p => p.2.isSome } [] (blks.flatMap Prod.fst)
        (blks.zipIdx.filterMap hamRecord)

/-- R303, which the spec derives: any two codewords differ in at least three positions. -/
def Obligations.HamCodewordsAreThreeApart : Prop :=
  ∀ a b c d a' b' c' d' : Bit, [a, b, c, d] ≠ [a', b', c', d'] →
    3 ≤ (xorSeq (hamCode a b c d) (hamCode a' b' c' d')).count true

/-- R313, which the spec derives: `HAM.DEC` on the result of `HAM.ENC` gives the bit string with the padding that
`HAM.ENC` reported in `PAD`, with empty `DIAG` and `CORR = 0`. The second command takes the result through the
listing's `$` (R98; log entries 1 and 12). -/
def Obligations.HamRoundTrip : Prop :=
  ∀ (s : State) (m : BitSeq) (syms : SymSeq) (p : Param) (rest : List HostMove),
    s.host = .command 0x60#8 syms (cellsOf m) p :: .chain 0x61#8 :: rest →
    ∃ t u, step s = .next t ∧ statusErr t.status = 0#3 ∧ step t = .next u ∧
      Succeeds u {} [] (m ++ List.replicate (statusPad t.status).toNat false) [] ∧
      (m.length + (statusPad t.status).toNat) % 4 = 0

/-! ## All units -/

/-- R133, which the spec derives, with R62: for every unit, whenever `U.ENC` ends with `ERR = OK`, `U.DEC` issued
next on its result, mapped to cells, ends with `ERR = OK`, an empty `DIAG`, `DETECT = 0`, `CORR = 0` and the operand
as its result; for `HAM` the zeros reported in `PAD` stand behind it. The word at `CMD` and what the other ports carry
make no difference. -/
def Obligations.DecInvertsEnc : Prop :=
  ∀ (e d : Instr) (s t : State), e.opOf = .enc → d.opOf = .dec → d.unitOf = e.unitOf → s.Inv →
    exec e s = .next t → statusErr t.status = 0#3 →
    ∀ (w : Byte) (syms : SymSeq) (p : Param), ∃ v,
      exec d (t.present w syms (cellsOf t.outBit) p) = .next v ∧ RoundTripped e.unitOf s t v

end
end

