-- ==== Sys2Proof/Laws/Flags.lean ====
section
/-! SUPPORT. The fields of the status words the engine writes (spec/10_state.md R23,
spec/60_exceptions.md R330, R335). -/

namespace Sys2Proof.Machine

/-- The fields of a status word laid out from its parts (R23). -/
theorem layStatus_fields (e : ErrCode) (r : Report) :
    statusErr (layStatus e r) = e.bits ∧ statusRej (layStatus e r) = r.rej ∧
      statusValid (layStatus e r) = r.valid ∧ statusDetect (layStatus e r) = r.detect ∧
      statusCorr (layStatus e r) = r.corr ∧ statusPad (layStatus e r) = r.pad ∧
      statusZero (layStatus e r) = 0#7 := by
  obtain ⟨rej, valid, detect, corr, pad⟩ := r
  revert pad
  cases e <;> cases rej <;> cases valid <;> cases detect <;> cases corr <;> decide

@[simp] theorem statusErr_okStatus (r : Report) : statusErr (okStatus r) = 0#3 :=
  (layStatus_fields .ok r).1

@[simp] theorem statusRej_okStatus (r : Report) : statusRej (okStatus r) = r.rej :=
  (layStatus_fields .ok r).2.1

@[simp] theorem statusValid_okStatus (r : Report) : statusValid (okStatus r) = r.valid :=
  (layStatus_fields .ok r).2.2.1

@[simp] theorem statusDetect_okStatus (r : Report) : statusDetect (okStatus r) = r.detect :=
  (layStatus_fields .ok r).2.2.2.1

@[simp] theorem statusCorr_okStatus (r : Report) : statusCorr (okStatus r) = r.corr :=
  (layStatus_fields .ok r).2.2.2.2.1

@[simp] theorem statusPad_okStatus (r : Report) : statusPad (okStatus r) = r.pad :=
  (layStatus_fields .ok r).2.2.2.2.2.1

@[simp] theorem statusZero_okStatus (r : Report) : statusZero (okStatus r) = 0#7 :=
  (layStatus_fields .ok r).2.2.2.2.2.2

/-- An error outcome's status word is the laid-out word with every other field 0 (R335). -/
theorem errStatus_eq_layStatus (e : ErrCode) : errStatus e = layStatus e {} := by cases e <;> decide

@[simp] theorem statusErr_errStatus (e : ErrCode) : statusErr (errStatus e) = e.bits := by
  cases e <;> decide

@[simp] theorem statusValid_errStatus (e : ErrCode) : statusValid (errStatus e) = false := by
  cases e <;> decide

@[simp] theorem statusDetect_errStatus (e : ErrCode) : statusDetect (errStatus e) = false := by
  cases e <;> decide

@[simp] theorem statusCorr_errStatus (e : ErrCode) : statusCorr (errStatus e) = false := by
  cases e <;> decide

@[simp] theorem statusZero_errStatus (e : ErrCode) : statusZero (errStatus e) = 0#7 := by
  cases e <;> decide

/-- No cause has the code of success (R330, R331). -/
theorem code_bits_ne_zero (c : Cause) : c.code.bits ≠ 0#3 := by cases c <;> simp [Cause.code, ErrCode.bits]

end Sys2Proof.Machine
end

