-- ==== Sys2Proof/Laws/Operands.lean ====
section
/-! SUPPORT. Laws of the bit-string utilities, of the operand checks and of the operand cursor
(spec/00_scope.md R12, spec/40_common.md R122 to R128, spec/20_memory.md R62, R63). -/

namespace Sys2Proof.Machine

/-! ## `clog2`, `flog2`, `bin`, `val` -/

theorem clog2_one : clog2 1 = 0 := by decide

theorem le_two_pow_clog2 (k : Nat) : k ≤ 2 ^ clog2 k := by
  unfold clog2
  split
  · omega
  · rename_i h
    have := Nat.lt_log2_self (n := k - 1)
    omega

theorem clog2_least {k s : Nat} (h : k ≤ 2 ^ s) : clog2 k ≤ s := by
  unfold clog2
  split
  · omega
  · rename_i h1
    have h2 : Nat.log2 (k - 1) < s := (Nat.log2_lt (by omega)).2 (by omega)
    omega

theorem two_pow_flog2_le {v : Nat} (hv : 1 ≤ v) : 2 ^ flog2 v ≤ v := Nat.log2_self_le (by omega)

theorem lt_two_pow_flog2 (v : Nat) : v < 2 ^ (flog2 v + 1) := Nat.lt_log2_self

theorem bin_length (v w : Nat) : (bin v w).length = w := by
  induction w with
  | zero => rfl
  | succ w ih => simp [bin, ih]

theorem bin_getElem? (v w i : Nat) : (bin v w)[i]? = if i < w then some (v.testBit (w - 1 - i)) else none := by
  induction w generalizing i with
  | zero => simp [bin]
  | succ w ih =>
    cases i with
    | zero => simp [bin]
    | succ i =>
      simp only [bin, List.getElem?_cons_succ, ih, Nat.add_lt_add_iff_right]
      congr 2
      congr 1
      omega

theorem val_foldl (s : BitSeq) (a : Nat) :
    s.foldl (fun a b => 2 * a + b.toNat) a = a * 2 ^ s.length + val s := by
  induction s generalizing a with
  | nil => simp [val]
  | cons b s ih =>
    have h := ih (b.toNat)
    simp only [val, List.foldl_cons, List.length_cons] at *
    rw [ih, Nat.mul_zero, Nat.zero_add, h]
    ring

theorem val_nil : val [] = 0 := rfl

theorem val_cons (b : Bit) (s : BitSeq) : val (b :: s) = b.toNat * 2 ^ s.length + val s := by
  have := val_foldl s b.toNat
  simpa [val] using this

theorem val_lt (s : BitSeq) : val s < 2 ^ s.length := by
  induction s with
  | nil => simp [val]
  | cons b s ih =>
    rw [val_cons, List.length_cons, Nat.pow_succ]
    cases b <;> simp <;> omega

theorem val_bin (v w : Nat) : val (bin v w) = v % 2 ^ w := by
  induction w with
  | zero => simp [bin, val, Nat.mod_one]
  | succ w ih =>
    rw [bin, val_cons, ih, bin_length, Nat.pow_succ, Nat.mod_mul, Nat.testBit_eq_decide_div_mod_eq]
    rcases Nat.mod_two_eq_zero_or_one (v / 2 ^ w) with h | h <;> simp [h, Nat.add_comm]

theorem val_bin_of_lt {v w : Nat} (h : v < 2 ^ w) : val (bin v w) = v := by
  rw [val_bin, Nat.mod_eq_of_lt h]

theorem bin_val (s : BitSeq) : bin (val s) s.length = s := by
  have aux : ∀ (w a v : Nat), bin (a * 2 ^ w + v) w = bin v w := by
    intro w
    induction w with
    | zero => intros; rfl
    | succ w ih =>
      intro a v
      have h1 := ih (2 * a) v
      have h2 : a * 2 ^ (w + 1) + v = 2 * a * 2 ^ w + v := by ring
      simp only [bin]
      rw [h2, h1]
      congr 1
      rw [Nat.testBit_eq_decide_div_mod_eq, Nat.testBit_eq_decide_div_mod_eq]
      have h3 : (2 * a * 2 ^ w + v) / 2 ^ w = 2 * a + v / 2 ^ w := by
        rw [Nat.add_comm, Nat.add_mul_div_right _ _ (by positivity), Nat.add_comm]
      rw [h3]
      congr 1
      simp
  induction s with
  | nil => rfl
  | cons b s ih =>
    rw [val_cons, List.length_cons, bin, aux, ih]
    congr 1
    have hlt := val_lt s
    rw [Nat.testBit_eq_decide_div_mod_eq]
    have : (b.toNat * 2 ^ s.length + val s) / 2 ^ s.length = b.toNat := by
      rw [Nat.add_comm, Nat.add_mul_div_right _ _ (by positivity), Nat.div_eq_of_lt hlt, Nat.zero_add]
    rw [this]
    cases b <;> simp

theorem unary_length (n : Nat) : (unary n).length = n + 1 := by simp [unary]

/-! ## Cells and the operand checks -/

@[simp] theorem cellBit_cellOfBit (b : Bit) : cellBit (cellOfBit b) = b := by cases b <;> rfl

@[simp] theorem cellsOf_length (s : BitSeq) : (cellsOf s).length = s.length := by simp [cellsOf]

theorem cellsOf_map_bit (s : BitSeq) : (cellsOf s).map cellBit = s := by
  simp [cellsOf, Function.comp_def]

theorem firstBX_cellsOf (s : BitSeq) : firstBX (cellsOf s) = none := by
  simp only [firstBX, cellsOf, List.findIdx?_eq_none_iff, List.mem_map]
  rintro _ ⟨b, -, rfl⟩
  cases b <;> rfl

/-- A cells operand without `BX` is the cells of the bits it carries. -/
theorem eq_cellsOf_of_firstBX_none {cs : CellSeq} (h : firstBX cs = none) :
    cs = cellsOf (cs.map cellBit) := by
  induction cs with
  | nil => rfl
  | cons c cs ih =>
    simp only [firstBX, List.findIdx?_eq_none_iff, List.mem_cons, forall_eq_or_imp] at h
    have h2 := ih (by simpa [firstBX, List.findIdx?_eq_none_iff] using h.2)
    have h1 : c = cellOfBit (cellBit c) := by
      cases c with
      | bX => simp at h
      | b0 => rfl
      | b1 => rfl
    simp only [cellsOf, List.map_cons, List.cons.injEq] at h2 ⊢
    exact ⟨h1, h2⟩

/-- The alphabet check says all it can say: it passes on the cells of a bit sequence, with those bits, and
otherwise names the first `BX` (R122). -/
theorem alphabetCheck_cellsOf (cause : Nat → Cause) (s : BitSeq) :
    alphabetCheck cause (cellsOf s) = .ok s := by
  simp [alphabetCheck, firstBX_cellsOf, cellsOf_map_bit]

theorem alphabetCheck_of_first {cause : Nat → Cause} {cs : CellSeq} {i : Nat} (h : firstBX cs = some i) :
    alphabetCheck cause cs = .error (cause i) := by simp [alphabetCheck, h]

theorem alphabetCheck_cases (cause : Nat → Cause) (cs : CellSeq) :
    (∃ i, firstBX cs = some i ∧ alphabetCheck cause cs = .error (cause i)) ∨
      (∃ s, cs = cellsOf s ∧ firstBX cs = none ∧ alphabetCheck cause cs = .ok s) := by
  cases h : firstBX cs with
  | some i => exact .inl ⟨i, rfl, alphabetCheck_of_first h⟩
  | none =>
    exact .inr ⟨cs.map cellBit, eq_cellsOf_of_firstBX_none h, rfl, by simp [alphabetCheck, h]⟩

/-- What "the least index of a `BX` cell" means (R122). -/
theorem firstBX_eq_some_iff (cs : CellSeq) (i : Nat) :
    firstBX cs = some i ↔ cs[i]? = some .bX ∧ ∀ j < i, cs[j]? ≠ some .bX := by
  rw [firstBX, List.findIdx?_eq_some_iff_getElem]
  constructor
  · rintro ⟨h, h1, h2⟩
    refine ⟨by simpa [List.getElem?_eq_getElem h] using h1, fun j hj => ?_⟩
    have := h2 j hj
    rw [List.getElem?_eq_getElem (by omega)]
    simpa using this
  · rintro ⟨h1, h2⟩
    obtain ⟨hlt, h3⟩ := List.getElem?_eq_some_iff.1 h1
    refine ⟨hlt, by simp [h3], fun j hj => ?_⟩
    have := h2 j hj
    rw [List.getElem?_eq_getElem (by omega)] at this
    simpa using this

theorem symbolCheck_cases (m : SymSeq) :
    (∃ i, firstZero m = some i ∧ symbolCheck m = .error (.zeroSymbol i)) ∨
      ((∀ v ∈ m, 1 ≤ v.val) ∧ firstZero m = none ∧ symbolCheck m = .ok m) := by
  cases h : firstZero m with
  | some i => exact .inl ⟨i, rfl, by simp [symbolCheck, h]⟩
  | none =>
    refine .inr ⟨fun v hv => ?_, rfl, by simp [symbolCheck, h]⟩
    simp only [firstZero, List.findIdx?_eq_none_iff] at h
    have := h v hv
    simp only [beq_eq_false_iff_ne, ne_eq] at this
    omega

theorem firstZero_eq_none_iff (m : SymSeq) : firstZero m = none ↔ ∀ v ∈ m, 1 ≤ v.val := by
  simp only [firstZero, List.findIdx?_eq_none_iff, beq_eq_false_iff_ne, ne_eq]
  exact forall₂_congr fun v _ => by omega

theorem symbolCheck_of_pos {m : SymSeq} (h : ∀ v ∈ m, 1 ≤ v.val) : symbolCheck m = .ok m := by
  simp [symbolCheck, (firstZero_eq_none_iff m).2 h]

/-! ## The cursor -/

/-- `read_run` on a run that ends (R127). -/
theorem readRun_run (start ip n q : Nat) (rest : BitSeq) :
    readRun start ip n (List.replicate q false ++ true :: rest) =
      .ok (n + q, { ip := ip + q + 1, rest := rest }) := by
  induction q generalizing ip n with
  | zero => simp [readRun]
  | succ q ih =>
    simp only [List.replicate_succ, List.cons_append, readRun, ih]
    rw [show n + 1 + q = n + (q + 1) by omega, show ip + 1 + q + 1 = ip + (q + 1) + 1 by omega]

/-- `read_run` on a run that the operand's end cuts (R127). -/
theorem readRun_zeros (start ip n q : Nat) :
    readRun start ip n (List.replicate q false) = .error (.truncated start) := by
  induction q generalizing ip n with
  | zero => rfl
  | succ q ih => simp [List.replicate_succ, readRun, ih]

/-- A bit sequence is all zeros, or a run of zeros with its stop bit and a rest. -/
theorem zeros_or_run (s : BitSeq) :
    s = List.replicate s.length false ∨ ∃ q rest, s = List.replicate q false ++ true :: rest := by
  induction s with
  | nil => exact .inl rfl
  | cons b s ih =>
    cases b with
    | true => exact .inr ⟨0, s, rfl⟩
    | false =>
      rcases ih with h | ⟨q, rest, h⟩
      · exact .inl (by rw [List.length_cons, List.replicate_succ, ← h])
      · exact .inr ⟨q + 1, rest, by rw [h, List.replicate_succ]; rfl⟩

theorem readRun_unary (start ip q : Nat) (rest : BitSeq) :
    readRun start ip 0 (unary q ++ rest) = .ok (q, { ip := ip + (unary q).length, rest := rest }) := by
  have := readRun_run start ip 0 q rest
  rw [Nat.zero_add] at this
  rw [unary_length, ← Nat.add_assoc]
  simpa [unary] using this

/-- `read_field` on a field that is there (R128). -/
theorem readField_append {w start ip : Nat} {f rest : BitSeq} (h : f.length = w) :
    readField w start { ip := ip, rest := f ++ rest } =
      .ok (val f, { ip := ip + w, rest := rest }) := by
  subst h
  simp [readField]

theorem readField_short {w start : Nat} {c : Cursor} (h : c.rest.length < w) :
    readField w start c = .error (.truncated start) := by simp [readField, h]

theorem emitSym_of_lt {v start : Nat} (h : v < Config.symMax + 1) : emitSym v start = .ok ⟨v, h⟩ := by
  simp [emitSym, h]

theorem emitSym_val (x : Sym) (start : Nat) : emitSym x.val start = .ok x := by
  simp [emitSym, x.isLt]

theorem emitSym_of_gt {v start : Nat} (h : Config.symMax < v) : emitSym v start = .error (.outOfRange start) := by
  have : ¬ v < Config.symMax + 1 := by omega
  simp [emitSym, this]

theorem emitSym_ok {v start : Nat} {x : Sym} (h : emitSym v start = .ok x) : v = x.val := by
  unfold emitSym at h
  split at h
  · cases h; rfl
  · cases h

/-! ## The loop over codewords -/

section loop

variable {σ : Type} {one : σ → Cursor → σ × Except Cause (Sym × Cursor)} {P : σ → Prop}

/-- The words `ws`, each with the symbol it stands for, are read one after the other. -/
def ReadsWords (P : σ → Prop) (one : σ → Cursor → σ × Except Cause (Sym × Cursor))
    (ws : List (Sym × BitSeq)) : Prop :=
  ∀ p ∈ ws, p.2 ≠ [] ∧ ∀ r ip rest, P r → ∃ r', P r' ∧
    one r { ip := ip, rest := p.2 ++ rest } = (r', .ok (p.1, { ip := ip + p.2.length, rest := rest }))

/-- A loop over readable words and a rest: it goes on at the rest with the words' symbols read. -/
theorem readCodewords_words {ws : List (Sym × BitSeq)} (h : ReadsWords P one ws) (tail : BitSeq) :
    ∀ n r ip, P r → ((ws.map Prod.snd).flatten ++ tail).length ≤ n → ∃ n' r', P r' ∧ tail.length ≤ n' ∧
      readCodewords one n r { ip := ip, rest := (ws.map Prod.snd).flatten ++ tail } =
        match readCodewords one n' r'
          { ip := ip + (ws.map Prod.snd).flatten.length, rest := tail } with
        | (r'', .error e) => (r'', .error e)
        | (r'', .ok xs) => (r'', .ok (ws.map Prod.fst ++ xs)) := by
  induction ws with
  | nil =>
    intro n r ip hr hn
    refine ⟨n, r, hr, by simpa using hn, ?_⟩
    simp only [List.map_nil, List.flatten_nil, List.nil_append, List.length_nil, Nat.add_zero]
    rcases readCodewords one n r { ip := ip, rest := tail } with ⟨r', _ | _⟩ <;> rfl
  | cons p ws ih =>
    intro n r ip hr hn
    obtain ⟨hne, hp⟩ := h p (by simp)
    obtain ⟨r₁, hr₁, h₁⟩ := hp r ip ((ws.map Prod.snd).flatten ++ tail) hr
    have hpos : 0 < p.2.length := List.length_pos_iff.2 hne
    simp only [List.map_cons, List.flatten_cons, List.append_assoc, List.length_append] at hn ⊢
    obtain ⟨k, rfl⟩ : ∃ k, n = k + 1 := ⟨n - 1, by omega⟩
    obtain ⟨n', r', hr', hn', h₂⟩ := ih (fun q hq => h q (by simp [hq])) k r₁ (ip + p.2.length) hr₁
      (by simp only [List.length_append]; omega)
    refine ⟨n', r', hr', hn', ?_⟩
    have hcons : ∃ b bs, p.2 ++ ((ws.map Prod.snd).flatten ++ tail) = b :: bs := by
      cases hp2 : p.2 with
      | nil => exact absurd hp2 hne
      | cons b bs => exact ⟨b, _, rfl⟩
    obtain ⟨b, bs, hb⟩ := hcons
    rw [readCodewords]
    split
    · simp_all
    · rw [h₁]
      simp only [h₂]
      rw [Nat.add_assoc]
      rcases readCodewords one n' r' _ with ⟨r'', _ | _⟩ <;> rfl

theorem readCodewords_nil (n : Nat) (r : σ) (ip : Nat) :
    readCodewords one n r { ip := ip, rest := [] } = (r, .ok []) := by
  cases n <;> rfl

/-- An operand of readable words alone decodes to their symbols. -/
theorem readCodewords_ok {ws : List (Sym × BitSeq)} (h : ReadsWords P one ws) {r : σ} (hr : P r) {bits : BitSeq}
    (hb : bits = (ws.map Prod.snd).flatten) :
    ∃ r', P r' ∧ readCodewords one bits.length r (startCursor bits) = (r', .ok (ws.map Prod.fst)) := by
  obtain ⟨n', r', hr', -, h₁⟩ := readCodewords_words h [] bits.length r 0 hr (by simp [hb])
  refine ⟨r', hr', ?_⟩
  rw [readCodewords_nil] at h₁
  simpa [startCursor, hb] using h₁

/-- An operand of readable words and a rest whose first codeword fails ends with that failure. -/
theorem readCodewords_error {ws : List (Sym × BitSeq)} (h : ReadsWords P one ws) {r : σ} (hr : P r)
    {bits tail : BitSeq} (hb : bits = (ws.map Prod.snd).flatten ++ tail) (ht : tail ≠ []) {e : Cause}
    (he : ∀ r', P r' → ∃ r'', P r'' ∧
      one r' { ip := (ws.map Prod.snd).flatten.length, rest := tail } = (r'', .error e)) :
    ∃ r', P r' ∧ readCodewords one bits.length r (startCursor bits) = (r', .error e) := by
  obtain ⟨n', r', hr', hn', h₁⟩ := readCodewords_words h tail bits.length r 0 hr (by simp [hb])
  obtain ⟨r'', hr'', h₂⟩ := he r' hr'
  refine ⟨r'', hr'', ?_⟩
  obtain ⟨k, rfl⟩ : ∃ k, n' = k + 1 := ⟨n' - 1, by have := List.length_pos_iff.2 ht; omega⟩
  obtain ⟨b, bs, rfl⟩ := List.exists_cons_of_ne_nil ht
  rw [Nat.zero_add, readCodewords] at h₁
  simp only [h₂] at h₁
  simpa [startCursor, hb] using h₁

/-- The registers the loop carries keep a property that reading one codeword keeps. -/
theorem readCodewords_keeps (h : ∀ r c, P r → P (one r c).1) :
    ∀ n r c, P r → P (readCodewords one n r c).1 := by
  intro n
  induction n with
  | zero => intro r c hr; exact hr
  | succ n ih =>
    intro r c hr
    have h1 := h r c hr
    rw [readCodewords]
    split
    · exact hr
    · rcases ho : one r c with ⟨r', e | ⟨x, c'⟩⟩
      · rw [ho] at h1; exact h1
      · rw [ho] at h1
        have h2 := ih r' c' h1
        rcases hc : readCodewords one n r' c' with ⟨r'', _ | _⟩ <;> simp only [hc] at h2 ⊢ <;> exact h2

/-- What the loop reads does not depend on the registers, if reading one codeword does not. -/
theorem readCodewords_indep (hk : ∀ r c, P r → P (one r c).1)
    (h : ∀ r r' c, P r → P r' → (one r c).2 = (one r' c).2) :
    ∀ n r r' c, P r → P r' → (readCodewords one n r c).2 = (readCodewords one n r' c).2 := by
  intro n
  induction n with
  | zero => intros; rfl
  | succ n ih =>
    intro r r' c hr hr'
    have h1 := h r r' c hr hr'
    have hk1 := hk r c hr
    have hk2 := hk r' c hr'
    rw [readCodewords, readCodewords]
    split
    · rfl
    · rcases ho : one r c with ⟨r₁, e | ⟨x, c'⟩⟩ <;> rcases ho' : one r' c with ⟨r₂, e' | ⟨x', c''⟩⟩ <;>
        simp only [ho, ho'] at h1 hk1 hk2 <;> cases h1
      · rfl
      · have h2 := ih r₁ r₂ c' hk1 hk2
        rcases hc : readCodewords one n r₁ c' with ⟨r₃, _ | _⟩ <;>
          rcases hc' : readCodewords one n r₂ c' with ⟨r₄, _ | _⟩ <;>
          simp only [hc, hc'] at h2 ⊢ <;> cases h2 <;> rfl

/-- What a loop that succeeds has read: words that make up the operand, each read by `one`. -/
theorem readCodewords_inv {W : Sym → BitSeq → Prop}
    (h : ∀ r c r' x c', one r c = (r', .ok (x, c')) → ∃ w, W x w ∧ w ≠ [] ∧ c.rest = w ++ c'.rest) :
    ∀ n r c r' xs, c.rest.length ≤ n → readCodewords one n r c = (r', .ok xs) →
      ∃ ws : List BitSeq, List.Forall₂ W xs ws ∧ c.rest = ws.flatten := by
  intro n
  induction n with
  | zero =>
    intro r c r' xs hn hr
    have : c.rest = [] := List.length_eq_zero_iff.1 (by omega)
    simp only [readCodewords, Prod.mk.injEq, Except.ok.injEq] at hr
    exact ⟨[], by rw [← hr.2]; exact .nil, by simpa using this⟩
  | succ n ih =>
    intro r c r' xs hn hr
    rw [readCodewords] at hr
    split at hr
    · rename_i hc
      simp only [Prod.mk.injEq, Except.ok.injEq] at hr
      exact ⟨[], by rw [← hr.2]; exact .nil, by simpa using hc⟩
    · rcases ho : one r c with ⟨r₁, e | ⟨x, c'⟩⟩
      · simp [ho] at hr
      · simp only [ho] at hr
        rcases hc : readCodewords one n r₁ c' with ⟨r₂, e | ys⟩
        · simp [hc] at hr
        · simp only [hc, Prod.mk.injEq, Except.ok.injEq] at hr
          obtain ⟨w, hw, hne, hcw⟩ := h r c r₁ x c' ho
          have hpos : 0 < w.length := List.length_pos_iff.2 hne
          have hl : c'.rest.length ≤ n := by
            rw [hcw, List.length_append] at hn
            omega
          obtain ⟨ws, h1, h2⟩ := ih r₁ c' r₂ ys hl hc
          refine ⟨w :: ws, ?_, by rw [hcw, h2, List.flatten_cons]⟩
          rw [← hr.2]
          exact .cons hw h1

end loop

end Sys2Proof.Machine
end

