-- ==== Sys2Proof/Laws/State.lean ====
section
/-! SUPPORT. What each update of the state leaves in each field: one lemma per field per update, so that
no proof unfolds an update again. -/

namespace Sys2Proof.Machine

variable (s : State)

/-! ## `State.commit`: the commit of a successful command (R64, R65): the result registers, nothing else -/

@[simp] theorem State.commit_grK (r : Report) (syms : SymSeq) (bits : BitSeq) (dg : List DiagRec) :
    (s.commit r syms bits dg).grK = s.grK := rfl

@[simp] theorem State.commit_grSuflen (r : Report) (syms : SymSeq) (bits : BitSeq) (dg : List DiagRec) :
    (s.commit r syms bits dg).grSuflen = s.grSuflen := rfl

@[simp] theorem State.commit_fibCache (r : Report) (syms : SymSeq) (bits : BitSeq) (dg : List DiagRec) :
    (s.commit r syms bits dg).fibCache = s.fibCache := rfl

@[simp] theorem State.commit_hufHave (r : Report) (syms : SymSeq) (bits : BitSeq) (dg : List DiagRec) :
    (s.commit r syms bits dg).hufHave = s.hufHave := rfl

@[simp] theorem State.commit_hufNodes (r : Report) (syms : SymSeq) (bits : BitSeq) (dg : List DiagRec) :
    (s.commit r syms bits dg).hufNodes = s.hufNodes := rfl

@[simp] theorem State.commit_hufRoot (r : Report) (syms : SymSeq) (bits : BitSeq) (dg : List DiagRec) :
    (s.commit r syms bits dg).hufRoot = s.hufRoot := rfl

@[simp] theorem State.commit_hufTable (r : Report) (syms : SymSeq) (bits : BitSeq) (dg : List DiagRec) :
    (s.commit r syms bits dg).hufTable = s.hufTable := rfl

@[simp] theorem State.commit_repR (r : Report) (syms : SymSeq) (bits : BitSeq) (dg : List DiagRec) :
    (s.commit r syms bits dg).repR = s.repR := rfl

@[simp] theorem State.commit_crcGen (r : Report) (syms : SymSeq) (bits : BitSeq) (dg : List DiagRec) :
    (s.commit r syms bits dg).crcGen = s.crcGen := rfl

@[simp] theorem State.commit_crcDeg (r : Report) (syms : SymSeq) (bits : BitSeq) (dg : List DiagRec) :
    (s.commit r syms bits dg).crcDeg = s.crcDeg := rfl

@[simp] theorem State.commit_status (r : Report) (syms : SymSeq) (bits : BitSeq) (dg : List DiagRec) :
    (s.commit r syms bits dg).status = okStatus r := rfl

@[simp] theorem State.commit_errInfo (r : Report) (syms : SymSeq) (bits : BitSeq) (dg : List DiagRec) :
    (s.commit r syms bits dg).errInfo = ErrInfo.clear := rfl

@[simp] theorem State.commit_outSym (r : Report) (syms : SymSeq) (bits : BitSeq) (dg : List DiagRec) :
    (s.commit r syms bits dg).outSym = syms := rfl

@[simp] theorem State.commit_outBit (r : Report) (syms : SymSeq) (bits : BitSeq) (dg : List DiagRec) :
    (s.commit r syms bits dg).outBit = bits := rfl

@[simp] theorem State.commit_diag (r : Report) (syms : SymSeq) (bits : BitSeq) (dg : List DiagRec) :
    (s.commit r syms bits dg).diag = dg := rfl

@[simp] theorem State.commit_cmd (r : Report) (syms : SymSeq) (bits : BitSeq) (dg : List DiagRec) :
    (s.commit r syms bits dg).cmd = s.cmd := rfl

@[simp] theorem State.commit_inSym (r : Report) (syms : SymSeq) (bits : BitSeq) (dg : List DiagRec) :
    (s.commit r syms bits dg).inSym = s.inSym := rfl

@[simp] theorem State.commit_inBit (r : Report) (syms : SymSeq) (bits : BitSeq) (dg : List DiagRec) :
    (s.commit r syms bits dg).inBit = s.inBit := rfl

@[simp] theorem State.commit_param (r : Report) (syms : SymSeq) (bits : BitSeq) (dg : List DiagRec) :
    (s.commit r syms bits dg).param = s.param := rfl

@[simp] theorem State.commit_host (r : Report) (syms : SymSeq) (bits : BitSeq) (dg : List DiagRec) :
    (s.commit r syms bits dg).host = s.host := rfl

/-! ## `State.raise`: the error outcome (R335): the result registers, nothing else -/

@[simp] theorem State.raise_grK (c : Cause) :
    (s.raise c).grK = s.grK := rfl

@[simp] theorem State.raise_grSuflen (c : Cause) :
    (s.raise c).grSuflen = s.grSuflen := rfl

@[simp] theorem State.raise_fibCache (c : Cause) :
    (s.raise c).fibCache = s.fibCache := rfl

@[simp] theorem State.raise_hufHave (c : Cause) :
    (s.raise c).hufHave = s.hufHave := rfl

@[simp] theorem State.raise_hufNodes (c : Cause) :
    (s.raise c).hufNodes = s.hufNodes := rfl

@[simp] theorem State.raise_hufRoot (c : Cause) :
    (s.raise c).hufRoot = s.hufRoot := rfl

@[simp] theorem State.raise_hufTable (c : Cause) :
    (s.raise c).hufTable = s.hufTable := rfl

@[simp] theorem State.raise_repR (c : Cause) :
    (s.raise c).repR = s.repR := rfl

@[simp] theorem State.raise_crcGen (c : Cause) :
    (s.raise c).crcGen = s.crcGen := rfl

@[simp] theorem State.raise_crcDeg (c : Cause) :
    (s.raise c).crcDeg = s.crcDeg := rfl

@[simp] theorem State.raise_status (c : Cause) :
    (s.raise c).status = errStatus c.code := rfl

@[simp] theorem State.raise_errInfo (c : Cause) :
    (s.raise c).errInfo = c.info := rfl

@[simp] theorem State.raise_outSym (c : Cause) :
    (s.raise c).outSym = [] := rfl

@[simp] theorem State.raise_outBit (c : Cause) :
    (s.raise c).outBit = [] := rfl

@[simp] theorem State.raise_diag (c : Cause) :
    (s.raise c).diag = [] := rfl

@[simp] theorem State.raise_cmd (c : Cause) :
    (s.raise c).cmd = s.cmd := rfl

@[simp] theorem State.raise_inSym (c : Cause) :
    (s.raise c).inSym = s.inSym := rfl

@[simp] theorem State.raise_inBit (c : Cause) :
    (s.raise c).inBit = s.inBit := rfl

@[simp] theorem State.raise_param (c : Cause) :
    (s.raise c).param = s.param := rfl

@[simp] theorem State.raise_host (c : Cause) :
    (s.raise c).host = s.host := rfl

/-! ## `State.answer`: the end of a `VAL` command (R130) -/

@[simp] theorem State.answer_grK (valid : Bit) :
    (s.answer valid).grK = s.grK := rfl

@[simp] theorem State.answer_grSuflen (valid : Bit) :
    (s.answer valid).grSuflen = s.grSuflen := rfl

@[simp] theorem State.answer_fibCache (valid : Bit) :
    (s.answer valid).fibCache = s.fibCache := rfl

@[simp] theorem State.answer_hufHave (valid : Bit) :
    (s.answer valid).hufHave = s.hufHave := rfl

@[simp] theorem State.answer_hufNodes (valid : Bit) :
    (s.answer valid).hufNodes = s.hufNodes := rfl

@[simp] theorem State.answer_hufRoot (valid : Bit) :
    (s.answer valid).hufRoot = s.hufRoot := rfl

@[simp] theorem State.answer_hufTable (valid : Bit) :
    (s.answer valid).hufTable = s.hufTable := rfl

@[simp] theorem State.answer_repR (valid : Bit) :
    (s.answer valid).repR = s.repR := rfl

@[simp] theorem State.answer_crcGen (valid : Bit) :
    (s.answer valid).crcGen = s.crcGen := rfl

@[simp] theorem State.answer_crcDeg (valid : Bit) :
    (s.answer valid).crcDeg = s.crcDeg := rfl

@[simp] theorem State.answer_status (valid : Bit) :
    (s.answer valid).status = okStatus { valid := valid } := rfl

@[simp] theorem State.answer_errInfo (valid : Bit) :
    (s.answer valid).errInfo = ErrInfo.clear := rfl

@[simp] theorem State.answer_outSym (valid : Bit) :
    (s.answer valid).outSym = [] := rfl

@[simp] theorem State.answer_outBit (valid : Bit) :
    (s.answer valid).outBit = [] := rfl

@[simp] theorem State.answer_diag (valid : Bit) :
    (s.answer valid).diag = [] := rfl

@[simp] theorem State.answer_cmd (valid : Bit) :
    (s.answer valid).cmd = s.cmd := rfl

@[simp] theorem State.answer_inSym (valid : Bit) :
    (s.answer valid).inSym = s.inSym := rfl

@[simp] theorem State.answer_inBit (valid : Bit) :
    (s.answer valid).inBit = s.inBit := rfl

@[simp] theorem State.answer_param (valid : Bit) :
    (s.answer valid).param = s.param := rfl

@[simp] theorem State.answer_host (valid : Bit) :
    (s.answer valid).host = s.host := rfl

/-! ## `State.configured`: the end of a `CFG` command (R131) -/

@[simp] theorem State.configured_grK (rej : Bit) :
    (s.configured rej).grK = s.grK := rfl

@[simp] theorem State.configured_grSuflen (rej : Bit) :
    (s.configured rej).grSuflen = s.grSuflen := rfl

@[simp] theorem State.configured_fibCache (rej : Bit) :
    (s.configured rej).fibCache = s.fibCache := rfl

@[simp] theorem State.configured_hufHave (rej : Bit) :
    (s.configured rej).hufHave = s.hufHave := rfl

@[simp] theorem State.configured_hufNodes (rej : Bit) :
    (s.configured rej).hufNodes = s.hufNodes := rfl

@[simp] theorem State.configured_hufRoot (rej : Bit) :
    (s.configured rej).hufRoot = s.hufRoot := rfl

@[simp] theorem State.configured_hufTable (rej : Bit) :
    (s.configured rej).hufTable = s.hufTable := rfl

@[simp] theorem State.configured_repR (rej : Bit) :
    (s.configured rej).repR = s.repR := rfl

@[simp] theorem State.configured_crcGen (rej : Bit) :
    (s.configured rej).crcGen = s.crcGen := rfl

@[simp] theorem State.configured_crcDeg (rej : Bit) :
    (s.configured rej).crcDeg = s.crcDeg := rfl

@[simp] theorem State.configured_status (rej : Bit) :
    (s.configured rej).status = okStatus { rej := rej } := rfl

@[simp] theorem State.configured_errInfo (rej : Bit) :
    (s.configured rej).errInfo = ErrInfo.clear := rfl

@[simp] theorem State.configured_outSym (rej : Bit) :
    (s.configured rej).outSym = [] := rfl

@[simp] theorem State.configured_outBit (rej : Bit) :
    (s.configured rej).outBit = [] := rfl

@[simp] theorem State.configured_diag (rej : Bit) :
    (s.configured rej).diag = [] := rfl

@[simp] theorem State.configured_cmd (rej : Bit) :
    (s.configured rej).cmd = s.cmd := rfl

@[simp] theorem State.configured_inSym (rej : Bit) :
    (s.configured rej).inSym = s.inSym := rfl

@[simp] theorem State.configured_inBit (rej : Bit) :
    (s.configured rej).inBit = s.inBit := rfl

@[simp] theorem State.configured_param (rej : Bit) :
    (s.configured rej).param = s.param := rfl

@[simp] theorem State.configured_host (rej : Bit) :
    (s.configured rej).host = s.host := rfl

/-! ## `State.present`: a command at the ports (R61) -/

@[simp] theorem State.present_grK (word : Byte) (syms : SymSeq) (cells : CellSeq) (p : Param) :
    (s.present word syms cells p).grK = s.grK := rfl

@[simp] theorem State.present_grSuflen (word : Byte) (syms : SymSeq) (cells : CellSeq) (p : Param) :
    (s.present word syms cells p).grSuflen = s.grSuflen := rfl

@[simp] theorem State.present_fibCache (word : Byte) (syms : SymSeq) (cells : CellSeq) (p : Param) :
    (s.present word syms cells p).fibCache = s.fibCache := rfl

@[simp] theorem State.present_hufHave (word : Byte) (syms : SymSeq) (cells : CellSeq) (p : Param) :
    (s.present word syms cells p).hufHave = s.hufHave := rfl

@[simp] theorem State.present_hufNodes (word : Byte) (syms : SymSeq) (cells : CellSeq) (p : Param) :
    (s.present word syms cells p).hufNodes = s.hufNodes := rfl

@[simp] theorem State.present_hufRoot (word : Byte) (syms : SymSeq) (cells : CellSeq) (p : Param) :
    (s.present word syms cells p).hufRoot = s.hufRoot := rfl

@[simp] theorem State.present_hufTable (word : Byte) (syms : SymSeq) (cells : CellSeq) (p : Param) :
    (s.present word syms cells p).hufTable = s.hufTable := rfl

@[simp] theorem State.present_repR (word : Byte) (syms : SymSeq) (cells : CellSeq) (p : Param) :
    (s.present word syms cells p).repR = s.repR := rfl

@[simp] theorem State.present_crcGen (word : Byte) (syms : SymSeq) (cells : CellSeq) (p : Param) :
    (s.present word syms cells p).crcGen = s.crcGen := rfl

@[simp] theorem State.present_crcDeg (word : Byte) (syms : SymSeq) (cells : CellSeq) (p : Param) :
    (s.present word syms cells p).crcDeg = s.crcDeg := rfl

@[simp] theorem State.present_status (word : Byte) (syms : SymSeq) (cells : CellSeq) (p : Param) :
    (s.present word syms cells p).status = s.status := rfl

@[simp] theorem State.present_errInfo (word : Byte) (syms : SymSeq) (cells : CellSeq) (p : Param) :
    (s.present word syms cells p).errInfo = s.errInfo := rfl

@[simp] theorem State.present_outSym (word : Byte) (syms : SymSeq) (cells : CellSeq) (p : Param) :
    (s.present word syms cells p).outSym = s.outSym := rfl

@[simp] theorem State.present_outBit (word : Byte) (syms : SymSeq) (cells : CellSeq) (p : Param) :
    (s.present word syms cells p).outBit = s.outBit := rfl

@[simp] theorem State.present_diag (word : Byte) (syms : SymSeq) (cells : CellSeq) (p : Param) :
    (s.present word syms cells p).diag = s.diag := rfl

@[simp] theorem State.present_cmd (word : Byte) (syms : SymSeq) (cells : CellSeq) (p : Param) :
    (s.present word syms cells p).cmd = word := rfl

@[simp] theorem State.present_inSym (word : Byte) (syms : SymSeq) (cells : CellSeq) (p : Param) :
    (s.present word syms cells p).inSym = syms := rfl

@[simp] theorem State.present_inBit (word : Byte) (syms : SymSeq) (cells : CellSeq) (p : Param) :
    (s.present word syms cells p).inBit = cells := rfl

@[simp] theorem State.present_param (word : Byte) (syms : SymSeq) (cells : CellSeq) (p : Param) :
    (s.present word syms cells p).param = p := rfl

@[simp] theorem State.present_host (word : Byte) (syms : SymSeq) (cells : CellSeq) (p : Param) :
    (s.present word syms cells p).host = s.host := rfl

/-! ## `State.installTree`: the commit of a Huffman tree (R214) -/

@[simp] theorem State.installTree_grK (t : HufTree) :
    (s.installTree t).grK = s.grK := rfl

@[simp] theorem State.installTree_grSuflen (t : HufTree) :
    (s.installTree t).grSuflen = s.grSuflen := rfl

@[simp] theorem State.installTree_fibCache (t : HufTree) :
    (s.installTree t).fibCache = s.fibCache := rfl

@[simp] theorem State.installTree_hufHave (t : HufTree) :
    (s.installTree t).hufHave = true := rfl

@[simp] theorem State.installTree_hufNodes (t : HufTree) :
    (s.installTree t).hufNodes = t.nodes := rfl

@[simp] theorem State.installTree_hufRoot (t : HufTree) :
    (s.installTree t).hufRoot = t.root := rfl

@[simp] theorem State.installTree_hufTable (t : HufTree) :
    (s.installTree t).hufTable = t.table := rfl

@[simp] theorem State.installTree_repR (t : HufTree) :
    (s.installTree t).repR = s.repR := rfl

@[simp] theorem State.installTree_crcGen (t : HufTree) :
    (s.installTree t).crcGen = s.crcGen := rfl

@[simp] theorem State.installTree_crcDeg (t : HufTree) :
    (s.installTree t).crcDeg = s.crcDeg := rfl

@[simp] theorem State.installTree_status (t : HufTree) :
    (s.installTree t).status = s.status := rfl

@[simp] theorem State.installTree_errInfo (t : HufTree) :
    (s.installTree t).errInfo = s.errInfo := rfl

@[simp] theorem State.installTree_outSym (t : HufTree) :
    (s.installTree t).outSym = s.outSym := rfl

@[simp] theorem State.installTree_outBit (t : HufTree) :
    (s.installTree t).outBit = s.outBit := rfl

@[simp] theorem State.installTree_diag (t : HufTree) :
    (s.installTree t).diag = s.diag := rfl

@[simp] theorem State.installTree_cmd (t : HufTree) :
    (s.installTree t).cmd = s.cmd := rfl

@[simp] theorem State.installTree_inSym (t : HufTree) :
    (s.installTree t).inSym = s.inSym := rfl

@[simp] theorem State.installTree_inBit (t : HufTree) :
    (s.installTree t).inBit = s.inBit := rfl

@[simp] theorem State.installTree_param (t : HufTree) :
    (s.installTree t).param = s.param := rfl

@[simp] theorem State.installTree_host (t : HufTree) :
    (s.installTree t).host = s.host := rfl

/-! ## `State.issueNext`: a command put before the host's moves -/

@[simp] theorem State.issueNext_grK (word : Byte) :
    (s.issueNext word).grK = s.grK := rfl

@[simp] theorem State.issueNext_grSuflen (word : Byte) :
    (s.issueNext word).grSuflen = s.grSuflen := rfl

@[simp] theorem State.issueNext_fibCache (word : Byte) :
    (s.issueNext word).fibCache = s.fibCache := rfl

@[simp] theorem State.issueNext_hufHave (word : Byte) :
    (s.issueNext word).hufHave = s.hufHave := rfl

@[simp] theorem State.issueNext_hufNodes (word : Byte) :
    (s.issueNext word).hufNodes = s.hufNodes := rfl

@[simp] theorem State.issueNext_hufRoot (word : Byte) :
    (s.issueNext word).hufRoot = s.hufRoot := rfl

@[simp] theorem State.issueNext_hufTable (word : Byte) :
    (s.issueNext word).hufTable = s.hufTable := rfl

@[simp] theorem State.issueNext_repR (word : Byte) :
    (s.issueNext word).repR = s.repR := rfl

@[simp] theorem State.issueNext_crcGen (word : Byte) :
    (s.issueNext word).crcGen = s.crcGen := rfl

@[simp] theorem State.issueNext_crcDeg (word : Byte) :
    (s.issueNext word).crcDeg = s.crcDeg := rfl

@[simp] theorem State.issueNext_status (word : Byte) :
    (s.issueNext word).status = s.status := rfl

@[simp] theorem State.issueNext_errInfo (word : Byte) :
    (s.issueNext word).errInfo = s.errInfo := rfl

@[simp] theorem State.issueNext_outSym (word : Byte) :
    (s.issueNext word).outSym = s.outSym := rfl

@[simp] theorem State.issueNext_outBit (word : Byte) :
    (s.issueNext word).outBit = s.outBit := rfl

@[simp] theorem State.issueNext_diag (word : Byte) :
    (s.issueNext word).diag = s.diag := rfl

@[simp] theorem State.issueNext_cmd (word : Byte) :
    (s.issueNext word).cmd = s.cmd := rfl

@[simp] theorem State.issueNext_inSym (word : Byte) :
    (s.issueNext word).inSym = s.inSym := rfl

@[simp] theorem State.issueNext_inBit (word : Byte) :
    (s.issueNext word).inBit = s.inBit := rfl

@[simp] theorem State.issueNext_param (word : Byte) :
    (s.issueNext word).param = s.param := rfl

@[simp] theorem State.issueNext_host (word : Byte) :
    (s.issueNext word).host = .command word s.inSym s.inBit s.param :: s.host := rfl

/-! ## `State.assertReset`: the values of R371, and the host's side as it was -/

@[simp] theorem State.assertReset_grK : s.assertReset.grK = State.reset.grK := rfl

@[simp] theorem State.assertReset_grSuflen : s.assertReset.grSuflen = State.reset.grSuflen := rfl

@[simp] theorem State.assertReset_fibCache : s.assertReset.fibCache = State.reset.fibCache := rfl

@[simp] theorem State.assertReset_hufHave : s.assertReset.hufHave = State.reset.hufHave := rfl

@[simp] theorem State.assertReset_hufNodes : s.assertReset.hufNodes = State.reset.hufNodes := rfl

@[simp] theorem State.assertReset_hufRoot : s.assertReset.hufRoot = State.reset.hufRoot := rfl

@[simp] theorem State.assertReset_hufTable : s.assertReset.hufTable = State.reset.hufTable := rfl

@[simp] theorem State.assertReset_repR : s.assertReset.repR = State.reset.repR := rfl

@[simp] theorem State.assertReset_crcGen : s.assertReset.crcGen = State.reset.crcGen := rfl

@[simp] theorem State.assertReset_crcDeg : s.assertReset.crcDeg = State.reset.crcDeg := rfl

@[simp] theorem State.assertReset_status : s.assertReset.status = State.reset.status := rfl

@[simp] theorem State.assertReset_errInfo : s.assertReset.errInfo = State.reset.errInfo := rfl

@[simp] theorem State.assertReset_outSym : s.assertReset.outSym = State.reset.outSym := rfl

@[simp] theorem State.assertReset_outBit : s.assertReset.outBit = State.reset.outBit := rfl

@[simp] theorem State.assertReset_diag : s.assertReset.diag = State.reset.diag := rfl

@[simp] theorem State.assertReset_cmd : s.assertReset.cmd = s.cmd := rfl

@[simp] theorem State.assertReset_inSym : s.assertReset.inSym = s.inSym := rfl

@[simp] theorem State.assertReset_inBit : s.assertReset.inBit = s.inBit := rfl

@[simp] theorem State.assertReset_param : s.assertReset.param = s.param := rfl

@[simp] theorem State.assertReset_host : s.assertReset.host = s.host := rfl

end Sys2Proof.Machine
end

