-- ==== Sys2Proof/Laws/Ops.lean ====
section
/-! SUPPORT. What each shared operation can do, said once: the outcomes a command can end with, the
host's moves, and the step (spec/20_memory.md R60 to R65, spec/40_common.md R120, R121,
spec/60_exceptions.md R335). -/

namespace Sys2Proof.Machine

/-! ## Frames -/

theorem SamePersistentButFib.refl (s : State) : SamePersistentButFib s s :=
  ⟨rfl, rfl, rfl, rfl, rfl, rfl, rfl, rfl, rfl⟩

theorem SamePersistent.refl (s : State) : SamePersistent s s := ⟨.refl s, rfl⟩

theorem SameHost.refl (s : State) : SameHost s s := ⟨rfl, rfl, rfl, rfl, rfl⟩

/-- A commit changes no persistent register (R64). -/
theorem commit_samePersistent (r : Report) (syms : SymSeq) (bits : BitSeq) (dg : List DiagRec) (s : State) :
    SamePersistent s (s.commit r syms bits dg) := ⟨⟨rfl, rfl, rfl, rfl, rfl, rfl, rfl, rfl, rfl⟩, rfl⟩

/-- An error outcome changes no persistent register (R335). -/
theorem raise_samePersistent (c : Cause) (s : State) : SamePersistent s (s.raise c) :=
  ⟨⟨rfl, rfl, rfl, rfl, rfl, rfl, rfl, rfl, rfl⟩, rfl⟩

/-- A commit shows what it was given (R23 to R26). -/
theorem commit_succeeds (r : Report) (syms : SymSeq) (bits : BitSeq) (dg : List DiagRec) (s : State) :
    Succeeds (s.commit r syms bits dg) r syms bits dg := ⟨rfl, rfl, rfl, rfl, rfl⟩

/-- An error outcome shows its cause and no result (R335). -/
theorem raise_fails (c : Cause) (s : State) :
    Fails (s.raise c) c.code.bits.toNat c.info.sub c.info.index c.info.data := by
  refine ⟨?_, rfl, rfl, rfl, rfl⟩
  cases c <;> rfl

/-! ## The three ends of a command that can fail -/

theorem endSyms_cases (r : Except Cause SymSeq) (s : State) :
    (∃ syms, r = .ok syms ∧ s.endSyms r = s.commit {} syms [] []) ∨
      (∃ c, r = .error c ∧ s.endSyms r = s.raise c) := by
  cases r with
  | ok syms => exact .inl ⟨syms, rfl, rfl⟩
  | error c => exact .inr ⟨c, rfl, rfl⟩

theorem endBits_cases (r : Except Cause (Report × BitSeq × List DiagRec)) (s : State) :
    (∃ rep bits dg, r = .ok (rep, bits, dg) ∧ s.endBits r = s.commit rep [] bits dg) ∨
      (∃ c, r = .error c ∧ s.endBits r = s.raise c) := by
  match r with
  | .ok (rep, bits, dg) => exact .inl ⟨rep, bits, dg, rfl, rfl⟩
  | .error c => exact .inr ⟨c, rfl, rfl⟩

@[simp] theorem endSyms_ok (syms : SymSeq) (s : State) : s.endSyms (.ok syms) = s.commit {} syms [] [] := rfl

@[simp] theorem endSyms_error (c : Cause) (s : State) : s.endSyms (.error c) = s.raise c := rfl

@[simp] theorem endBits_ok (rep : Report) (bits : BitSeq) (dg : List DiagRec) (s : State) :
    s.endBits (.ok (rep, bits, dg)) = s.commit rep [] bits dg := rfl

@[simp] theorem endBits_error (c : Cause) (s : State) : s.endBits (.error c) = s.raise c := rfl

/-! ## The ports and the step -/

/-- Everything a step can do: idle, reset, an illegal word, or one command (R120, R121). -/
theorem step_cases (s : State) :
    (s.host = [] ∧ step s = .next s) ∨
    (∃ rest, s.host = .reset :: rest ∧ step s = .next ({ s with host := rest }.assertReset)) ∨
    (∃ s', (s.nextMove = (.command, s')) ∧ step s = runCommand s') := by
  unfold step
  rcases h : s.host with _ | ⟨m, rest⟩
  · left; simp [State.nextMove, h]
  · right
    cases m with
    | reset => left; exact ⟨rest, rfl, by simp [State.nextMove, h]⟩
    | command w syms cells p => right; simp [State.nextMove, h]
    | chain w => right; simp [State.nextMove, h]

theorem runCommand_cases (s : State) :
    (∃ i, decode s.cmd = .ok i ∧ runCommand s = exec i s) ∨
      ((∃ e, decode s.cmd = .error e) ∧ runCommand s = .next s.illegalWord) := by
  unfold runCommand State.fetch decodeBytes
  cases h : decode s.cmd with
  | ok i => exact .inl ⟨i, rfl, by simp [h]⟩
  | error e => exact .inr ⟨⟨e, rfl⟩, by simp [h]⟩

/-- The move that issues a command changes the ports and the moves to come, nothing else (R60). -/
theorem nextMove_command_frame {s s' : State} (h : s.nextMove = (.command, s')) :
    SamePersistent s s' ∧ SameOutcome s s' := by
  unfold State.nextMove at h
  split at h
  · cases h
  · cases h
  · simp only [Prod.mk.injEq, true_and] at h
    subst h
    exact ⟨⟨⟨rfl, rfl, rfl, rfl, rfl, rfl, rfl, rfl, rfl⟩, rfl⟩, ⟨rfl, rfl, rfl, rfl, rfl⟩⟩
  · simp only [Prod.mk.injEq, true_and] at h
    subst h
    exact ⟨⟨⟨rfl, rfl, rfl, rfl, rfl, rfl, rfl, rfl, rfl⟩, rfl⟩, ⟨rfl, rfl, rfl, rfl, rfl⟩⟩

/-- The invariants rest on the persistent registers alone (R44). -/
theorem State.Inv.of_samePersistent {s t : State} (hs : s.Inv) (h : SamePersistent s t) : t.Inv := by
  obtain ⟨⟨h1, h2, h3, h4, h5, h6, h7, h8, h9⟩, h10⟩ := h
  constructor
  · rw [h1]; exact hs.grK_pos
  · rw [h1, h2]; exact hs.grSuflen_eq
  · rw [h7]; exact hs.repR_pos
  · rw [h8]; exact hs.crcGen_pos
  · rw [h9, h8]; exact hs.crcDeg_eq
  · rw [h10]; exact hs.fibCache_ok
  · rw [h3, h4, h5, h6]; exact hs.huf_empty
  · rw [h3, h4, h5, h6]; exact hs.huf_built

end Sys2Proof.Machine
end

