-- ==== Sys2Proof/Laws/Crc.lean ====
section
/-! SUPPORT. The division window and the remainder of the CRC unit: lengths, linearity, short strings,
codewords, and the reading as polynomials over GF(2) (spec/46_crc.md R260 to R268, R274). -/

namespace Sys2Proof.Machine

open Polynomial

/-! ## Element-wise xor -/

@[simp] theorem xorSeq_length (a b : BitSeq) : (xorSeq a b).length = min a.length b.length := by
  simp [xorSeq]

theorem xorSeq_cons (x y : Bit) (a b : BitSeq) : xorSeq (x :: a) (y :: b) = (x ^^ y) :: xorSeq a b := rfl

theorem xorSeq_append {a b a' b' : BitSeq} (h : a.length = b.length) :
    xorSeq (a ++ a') (b ++ b') = xorSeq a b ++ xorSeq a' b' := by
  unfold xorSeq
  exact List.zipWith_append h

theorem xorSeq_drop (n : Nat) (a b : BitSeq) : (xorSeq a b).drop n = xorSeq (a.drop n) (b.drop n) := by
  unfold xorSeq
  exact List.drop_zipWith

theorem xorSeq_zeros (a : BitSeq) : xorSeq a (List.replicate a.length false) = a := by
  induction a with
  | nil => rfl
  | cons x a ih => rw [List.length_cons, List.replicate_succ, xorSeq_cons, ih, Bool.xor_false]

theorem xorSeq_self (a : BitSeq) : xorSeq a a = List.replicate a.length false := by
  induction a with
  | nil => rfl
  | cons x a ih => rw [xorSeq_cons, ih, Bool.xor_self, List.length_cons, List.replicate_succ]

theorem xorSeq_comm (a b : BitSeq) : xorSeq a b = xorSeq b a := by
  unfold xorSeq
  exact List.zipWith_comm_of_comm Bool.xor_comm

theorem xorSeq_assoc : ∀ (a b c : BitSeq), xorSeq (xorSeq a b) c = xorSeq a (xorSeq b c)
  | [], _, _ => rfl
  | _ :: _, [], _ => rfl
  | _ :: _, _ :: _, [] => rfl
  | x :: a, y :: b, z :: c => by simp only [xorSeq_cons, xorSeq_assoc a b c, Bool.xor_assoc]

/-! ## The window -/

theorem crcReduce_length {G W : BitSeq} (h : W.length = G.length) : (crcReduce G W).length = G.length := by
  unfold crcReduce
  split <;> simp [h]

theorem crcShift_length {G W : BitSeq} (hG : 1 ≤ G.length) (h : W.length = G.length) (b : Bit) :
    (crcShift G W b).length = G.length := by
  simp [crcShift, crcReduce_length h]
  omega

theorem crcFold_length {G : BitSeq} (hG : 1 ≤ G.length) : ∀ (S W : BitSeq), W.length = G.length →
    (S.foldl (crcShift G) W).length = G.length := by
  intro S
  induction S with
  | nil => intro W h; exact h
  | cons b S ih => intro W h; exact ih _ (crcShift_length hG h b)

theorem crcWindow_length {G : BitSeq} (hG : 1 ≤ G.length) (S : BitSeq) :
    (crcWindow G G.length S).length = G.length := crcFold_length hG S _ (by simp)

/-- The remainder has `d - 1` bits (R261). -/
theorem crcRem_length {G : BitSeq} (hG : 1 ≤ G.length) (S : BitSeq) :
    (crcRem G G.length S).length = G.length - 1 := by
  simp [crcRem, crcReduce_length (crcWindow_length hG S)]

/-! ## Linearity (R268) -/

theorem crcReduce_xor {G A B : BitSeq} (hG : 1 ≤ G.length) (hA : A.length = G.length) (hB : B.length = G.length) :
    crcReduce G (xorSeq A B) = xorSeq (crcReduce G A) (crcReduce G B) := by
  have hhead : (xorSeq A B).headD false = (A.headD false ^^ B.headD false) := by
    match A, B, hA, hB with
    | [], _, hA, _ => simp at hA; omega
    | _ :: _, [], _, hB => simp at hB; omega
    | x :: A, y :: B, _, _ => simp [xorSeq_cons]
  unfold crcReduce
  rw [hhead]
  cases A.headD false <;> cases B.headD false <;>
    simp only [Bool.false_xor, Bool.true_xor, Bool.not_false, Bool.not_true, Bool.false_eq_true,
      if_true, if_false]
  · rw [xorSeq_assoc]
  · rw [xorSeq_assoc, xorSeq_comm B G, ← xorSeq_assoc]
  · rw [xorSeq_comm B G, ← xorSeq_assoc, xorSeq_assoc A G G, xorSeq_self, ← hA, xorSeq_zeros]

theorem crcShift_xor {G A B : BitSeq} (hG : 1 ≤ G.length) (hA : A.length = G.length) (hB : B.length = G.length)
    (a b : Bit) : crcShift G (xorSeq A B) (a ^^ b) = xorSeq (crcShift G A a) (crcShift G B b) := by
  unfold crcShift
  rw [crcReduce_xor hG hA hB, xorSeq_drop, xorSeq_append (by simp [crcReduce_length hA, crcReduce_length hB])]
  rfl

theorem crcFold_xor {G : BitSeq} (hG : 1 ≤ G.length) : ∀ (S T A B : BitSeq), S.length = T.length →
    A.length = G.length → B.length = G.length →
    (xorSeq S T).foldl (crcShift G) (xorSeq A B) =
      xorSeq (S.foldl (crcShift G) A) (T.foldl (crcShift G) B) := by
  intro S
  induction S with
  | nil => intro T A B h _ _; rw [List.length_eq_zero_iff.1 h.symm]; rfl
  | cons s S ih =>
    intro T A B h hA hB
    match T, h with
    | t :: T, h =>
      rw [xorSeq_cons, List.foldl_cons, crcShift_xor hG hA hB,
        ih T _ _ (by simpa using h) (crcShift_length hG hA s) (crcShift_length hG hB t)]
      rfl

/-- The remainder is linear (R268, item 1). -/
theorem crcRem_xor {G : BitSeq} (hG : 1 ≤ G.length) {S T : BitSeq} (h : S.length = T.length) :
    crcRem G G.length (xorSeq S T) = xorSeq (crcRem G G.length S) (crcRem G G.length T) := by
  have hz : List.replicate G.length false =
      xorSeq (List.replicate G.length false) (List.replicate G.length false) := by
    rw [xorSeq_self, List.length_replicate]
  unfold crcRem crcWindow
  rw [hz, crcFold_xor hG _ _ _ _ h (by simp) (by simp), ← hz,
    crcReduce_xor hG (crcFold_length hG S _ (by simp)) (crcFold_length hG T _ (by simp)), xorSeq_drop]

/-! ## Short strings, leading zeros, codewords -/

/-- While zeros stand before it the window only shifts (R263, R267). -/
theorem crcFold_zeros (G : BitSeq) : ∀ (S A : BitSeq) (n : Nat), S.length ≤ n →
    S.foldl (crcShift G) (List.replicate n false ++ A) =
      List.replicate (n - S.length) false ++ (A ++ S) := by
  intro S
  induction S with
  | nil => intro A n _; simp
  | cons b S ih =>
    intro A n h
    obtain ⟨k, rfl⟩ : ∃ k, n = k + 1 := ⟨n - 1, by simp at h; omega⟩
    have h1 : crcShift G (List.replicate (k + 1) false ++ A) b = List.replicate k false ++ (A ++ [b]) := by
      simp [crcShift, crcReduce, List.replicate_succ]
    rw [List.foldl_cons, h1, ih _ _ (by simpa using h)]
    simp

/-- The remainder of a string shorter than the generator (R267). -/
theorem crcRem_short {G S : BitSeq} (h : S.length < G.length) :
    crcRem G G.length S = List.replicate (G.length - 1 - S.length) false ++ S := by
  have h1 := crcFold_zeros G S [] G.length (by omega)
  rw [List.append_nil, List.nil_append] at h1
  unfold crcRem crcWindow
  rw [h1]
  obtain ⟨k, hk⟩ : ∃ k, G.length - S.length = k + 1 := ⟨G.length - S.length - 1, by omega⟩
  rw [hk, List.replicate_succ, show G.length - 1 - S.length = k by omega]
  simp [crcReduce]

/-- A zero in front changes nothing (R268, item 2). -/
theorem crcRem_cons_zero {G : BitSeq} (hG : 1 ≤ G.length) (S : BitSeq) :
    crcRem G G.length (false :: S) = crcRem G G.length S := by
  have h1 := crcFold_zeros G [false] [] G.length (by simpa using hG)
  simp only [List.foldl_cons, List.foldl_nil, List.append_nil, List.nil_append, List.length_singleton] at h1
  unfold crcRem crcWindow
  rw [List.foldl_cons, h1, ← List.replicate_succ', Nat.sub_add_cancel hG]

theorem crcRem_zeros_append {G : BitSeq} (hG : 1 ≤ G.length) (n : Nat) (S : BitSeq) :
    crcRem G G.length (List.replicate n false ++ S) = crcRem G G.length S := by
  induction n with
  | zero => simp
  | succ n ih => rw [List.replicate_succ, List.cons_append, crcRem_cons_zero hG, ih]

/-- A codeword leaves no remainder (R268, item 3). -/
theorem crcRem_codeword {G : BitSeq} (hG : 1 ≤ G.length) (M : BitSeq) :
    crcRem G G.length (crcEncode G G.length M) = List.replicate (G.length - 1) false := by
  unfold crcEncode
  generalize hR : crcRem G G.length (M ++ List.replicate (G.length - 1) false) = R
  have hlen : R.length = G.length - 1 := by rw [← hR]; exact crcRem_length hG _
  have hsplit : M ++ R =
      xorSeq (M ++ List.replicate (G.length - 1) false) (List.replicate M.length false ++ R) := by
    rw [xorSeq_append (by simp), xorSeq_zeros, xorSeq_comm, ← hlen, xorSeq_zeros]
  rw [hsplit, crcRem_xor hG (by simp [hlen]), hR, crcRem_zeros_append hG, crcRem_short (by omega), hlen]
  simp [xorSeq_self, hlen]

theorem crcEncode_length {G : BitSeq} (hG : 1 ≤ G.length) (M : BitSeq) :
    (crcEncode G G.length M).length = M.length + (G.length - 1) := by
  simp [crcEncode, crcRem_length hG]

/-- `CRC.DEC` gives back the bits that `CRC.ENC` wrote under the same generator (R133, R277). -/
theorem crcDecode_crcEncode {G : BitSeq} (hG : 1 ≤ G.length) (m : BitSeq) :
    crcDecode G G.length (crcEncode G G.length m) = .ok ({}, m, []) := by
  have hl := crcEncode_length hG m
  rw [crcDecode, if_neg (by omega)]
  simp only [crcRem_codeword hG, if_true, hl, Nat.add_sub_cancel]
  rw [crcEncode, List.take_left]

/-- What the remainder of a received codeword depends on (R268, item 4). -/
theorem crcRem_codeword_xor {G : BitSeq} (hG : 1 ≤ G.length) (M : BitSeq) {E : BitSeq}
    (h : E.length = (crcEncode G G.length M).length) :
    crcRem G G.length (xorSeq (crcEncode G G.length M) E) = crcRem G G.length E := by
  rw [crcRem_xor hG h.symm, crcRem_codeword hG, xorSeq_comm, ← crcRem_length hG E, xorSeq_zeros]

/-! ## The leading bit of the generator (R266) -/

theorem crcReduce_drop_forceLead (G W : BitSeq) :
    (crcReduce (forceLead G) W).drop 1 = (crcReduce G W).drop 1 := by
  unfold crcReduce
  split
  · rw [xorSeq_drop, xorSeq_drop]
    rfl
  · rfl

theorem forceLead_length {G : BitSeq} (hG : 1 ≤ G.length) : (forceLead G).length = G.length := by
  simp [forceLead]
  omega

theorem crcRem_forceLead (G S : BitSeq) :
    crcRem (forceLead G) G.length S = crcRem G G.length S := by
  have hstep : crcShift (forceLead G) = crcShift G := by
    funext W b
    rw [crcShift, crcShift, crcReduce_drop_forceLead]
  unfold crcRem crcWindow
  rw [hstep, crcReduce_drop_forceLead]

/-! ## Polynomials over GF(2) -/

theorem polyOf_foldl (s : BitSeq) (p : (ZMod 2)[X]) :
    s.foldl (fun p b => p * X + (if b then 1 else 0)) p = p * X ^ s.length + polyOf s := by
  induction s generalizing p with
  | nil => simp [polyOf]
  | cons b s ih =>
    have h := ih (if b then 1 else 0)
    simp only [polyOf, List.foldl_cons, List.length_cons] at *
    rw [ih, zero_mul, zero_add, h]
    ring

theorem polyOf_append (a b : BitSeq) : polyOf (a ++ b) = polyOf a * X ^ b.length + polyOf b := by
  unfold polyOf
  rw [List.foldl_append, polyOf_foldl]
  rfl

theorem polyOf_cons (b : Bit) (s : BitSeq) :
    polyOf (b :: s) = (if b then 1 else 0) * X ^ s.length + polyOf s := by
  have := polyOf_append [b] s
  simpa [polyOf] using this

theorem polyOf_false_cons (s : BitSeq) : polyOf (false :: s) = polyOf s := by simp [polyOf_cons]

theorem polyOf_zeros (n : Nat) : polyOf (List.replicate n false) = 0 := by
  induction n with
  | zero => simp [polyOf]
  | succ n ih => rw [List.replicate_succ, polyOf_false_cons, ih]

theorem polyOf_xorSeq : ∀ {a b : BitSeq}, a.length = b.length → polyOf (xorSeq a b) = polyOf a + polyOf b := by
  intro a
  induction a with
  | nil => intro b h; rw [List.length_eq_zero_iff.1 h.symm]; simp [xorSeq, polyOf]
  | cons x a ih =>
    intro b h
    match b, h with
    | y :: b, h =>
      have h' : a.length = b.length := by simpa using h
      have h2 : (1 : (ZMod 2)[X]) + 1 = 0 := by
        have : (1 : ZMod 2) + 1 = 0 := by decide
        rw [← C_1, ← C_add, this, C_0]
      rw [xorSeq_cons, polyOf_cons, polyOf_cons, polyOf_cons, ih h']
      simp only [xorSeq_length, h', Nat.min_self]
      cases x <;> cases y <;> simp
      · ring
      · ring
      · have h3 : (X : (ZMod 2)[X]) ^ b.length + X ^ b.length = 0 := by
          linear_combination X ^ b.length * h2
        linear_combination -h3

theorem polyOf_degree_lt (s : BitSeq) : (polyOf s).degree < s.length := by
  induction s with
  | nil => simp [polyOf]
  | cons b s ih =>
    rw [polyOf_cons]
    refine lt_of_le_of_lt (degree_add_le _ _) (max_lt ?_ (ih.trans (by simp; exact_mod_cast Nat.lt_succ_self _)))
    cases b
    · simp
    · simp; exact_mod_cast Nat.lt_succ_self _

/-- A generator whose leading bit is 1 has degree `d - 1` (R261). -/
theorem polyOf_true_degree (s : BitSeq) : (polyOf (true :: s)).degree = s.length := by
  rw [polyOf_cons]
  simp only [if_true, one_mul]
  rw [degree_add_eq_left_of_degree_lt]
  · simp
  · rw [degree_X_pow]; exact polyOf_degree_lt s

theorem polyOf_injective : ∀ {a b : BitSeq}, a.length = b.length → polyOf a = polyOf b → a = b := by
  intro a
  induction a with
  | nil => intro b h _; exact (List.length_eq_zero_iff.1 h.symm).symm
  | cons x a ih =>
    intro b h hp
    match b, h with
    | y :: b, h =>
      have h' : a.length = b.length := by simpa using h
      have key : ∀ {s t : BitSeq}, s.length = t.length → polyOf (true :: s) ≠ polyOf (false :: t) := by
        intro s t hst he
        have h1 := polyOf_true_degree s
        have h2 := polyOf_degree_lt t
        rw [he, polyOf_false_cons, hst] at h1
        rw [h1] at h2
        exact lt_irrefl _ h2
      cases x <;> cases y
      · rw [polyOf_false_cons, polyOf_false_cons] at hp
        rw [ih h' hp]
      · exact absurd hp.symm (key h'.symm)
      · exact absurd hp (key h')
      · rw [polyOf_cons, polyOf_cons, h'] at hp
        rw [ih h' (add_left_cancel hp)]

/-- A reduction adds a multiple of the generator and clears the leading bit (R265). -/
theorem polyOf_crcReduce {g W : BitSeq} (h : W.length = (true :: g).length) :
    ∃ q, polyOf W = q * polyOf (true :: g) + polyOf ((crcReduce (true :: g) W).drop 1) := by
  match W, h with
  | w :: W, h =>
    have h' : W.length = g.length := by simpa using h
    cases w
    · refine ⟨0, ?_⟩
      simp [crcReduce, polyOf_false_cons]
    · refine ⟨1, ?_⟩
      simp only [crcReduce, List.headD_cons, if_true, xorSeq_cons, List.drop_succ_cons, List.drop_zero]
      rw [one_mul, polyOf_xorSeq h', polyOf_cons, polyOf_cons, h']
      have h2 : polyOf g + polyOf g = 0 := by
        rw [← polyOf_xorSeq rfl, xorSeq_self, polyOf_zeros]
      linear_combination -h2

/-- The window is what the bits read so far leave (R265). -/
theorem polyOf_crcFold (g : BitSeq) : ∀ (S W : BitSeq), W.length = (true :: g).length →
    ∃ q, polyOf W * X ^ S.length + polyOf S =
      q * polyOf (true :: g) + polyOf (S.foldl (crcShift (true :: g)) W) := by
  intro S
  induction S with
  | nil => intro W _; exact ⟨0, by simp [polyOf]⟩
  | cons b S ih =>
    intro W hW
    obtain ⟨q₁, h₁⟩ := polyOf_crcReduce hW
    obtain ⟨q₂, h₂⟩ := ih (crcShift (true :: g) W b) (crcShift_length (by simp) hW b)
    refine ⟨q₁ * X ^ (S.length + 1) + q₂, ?_⟩
    have h₃ : polyOf (crcShift (true :: g) W b) =
        polyOf ((crcReduce (true :: g) W).drop 1) * X + (if b then 1 else 0) := by
      rw [crcShift, polyOf_append]
      simp [polyOf]
    rw [List.foldl_cons, h₁, polyOf_cons b S, List.length_cons]
    rw [h₃] at h₂
    linear_combination h₂

/-- The remainder is the remainder of the division (R265). -/
theorem polyOf_crcRem (g S : BitSeq) :
    ∃ q, polyOf S = q * polyOf (true :: g) + polyOf (crcRem (true :: g) (true :: g).length S) := by
  obtain ⟨q₁, h₁⟩ := polyOf_crcFold g S (List.replicate (true :: g).length false) (by simp)
  obtain ⟨q₂, h₂⟩ := polyOf_crcReduce (g := g) (crcWindow_length (G := true :: g) (by simp) S)
  rw [polyOf_zeros, zero_mul, zero_add] at h₁
  refine ⟨q₁ + q₂, ?_⟩
  unfold crcRem
  rw [h₁]
  rw [crcWindow] at h₂ ⊢
  rw [h₂]
  ring

/-- There is one remainder (R265). -/
theorem crcRem_unique {g S R : BitSeq} {q : (ZMod 2)[X]} (hR : R.length = g.length)
    (h : polyOf S = q * polyOf (true :: g) + polyOf R) : R = crcRem (true :: g) (true :: g).length S := by
  obtain ⟨q', h'⟩ := polyOf_crcRem g S
  have hlen := crcRem_length (G := true :: g) (by simp) S
  apply polyOf_injective
  · rw [hlen, hR]; simp
  · have hm : (polyOf (true :: g)).Monic := by
      rw [polyOf_cons, if_pos rfl, one_mul]
      exact monic_X_pow_add (by exact_mod_cast polyOf_degree_lt g)
    have h1 := (div_modByMonic_unique (f := polyOf S) q (polyOf R) hm
      ⟨by rw [h]; ring, by rw [polyOf_true_degree, ← hR]; exact polyOf_degree_lt R⟩).2
    have h2 := (div_modByMonic_unique (f := polyOf S) q'
      (polyOf (crcRem (true :: g) (true :: g).length S)) hm
      ⟨by conv_rhs => rw [h']
          ring, by
        rw [polyOf_true_degree]
        refine (polyOf_degree_lt _).trans_le ?_
        rw [hlen]; simp⟩).2
    exact h1.symm.trans h2

/-- The remainder is zero exactly for the multiples of the generator (R274). -/
theorem crcRem_eq_zeros_iff (g S : BitSeq) :
    crcRem (true :: g) (true :: g).length S = List.replicate g.length false ↔ polyOf (true :: g) ∣ polyOf S := by
  constructor
  · intro h
    obtain ⟨q, hq⟩ := polyOf_crcRem g S
    rw [h, polyOf_zeros, add_zero] at hq
    exact ⟨q, by rw [hq]; ring⟩
  · rintro ⟨q, hq⟩
    exact (crcRem_unique (q := q) (by simp) (by rw [polyOf_zeros, hq]; ring)).symm

end Sys2Proof.Machine
end

