-- ==== Sys2Proof/Laws/EliasGamma.lean ====
section
/-! SUPPORT. What one codeword of the Elias-Gamma decoder does, and what the codewords of the encoder are
to it (spec/42_elias_gamma.md R170 to R172, R176). -/

namespace Sys2Proof.Machine

/-- A codeword whose value is a symbol is read (R172). -/
theorem egReadOne_word {ip : Nat} {suf rest : BitSeq} {x : Sym}
    (hx : x.val = 2 ^ suf.length + val suf) :
    egReadOne { ip := ip, rest := (unary suf.length ++ suf) ++ rest } =
      .ok (x, { ip := ip + (unary suf.length ++ suf).length, rest := rest }) := by
  unfold egReadOne
  rw [List.append_assoc, readRun_unary]
  simp only [readField_append rfl, ← hx, emitSym_val, List.length_append, Nat.add_assoc]

/-- A codeword whose value is no symbol is out of range (R124, R172). -/
theorem egReadOne_range {ip : Nat} {suf rest : BitSeq}
    (hv : Config.symMax < 2 ^ suf.length + val suf) :
    egReadOne { ip := ip, rest := (unary suf.length ++ suf) ++ rest } = .error (.outOfRange ip) := by
  unfold egReadOne
  rw [List.append_assoc, readRun_unary]
  simp only [readField_append rfl, emitSym_of_gt hv]

/-- A run without its stop bit is truncated (R127). -/
theorem egReadOne_zeros (q ip : Nat) :
    egReadOne { ip := ip, rest := List.replicate q false } = .error (.truncated ip) := by
  simp only [egReadOne, readRun_zeros]

/-- A suffix that the operand's end cuts is truncated (R128). -/
theorem egReadOne_short {n ip : Nat} {suf : BitSeq} (hs : suf.length < n) :
    egReadOne { ip := ip, rest := unary n ++ suf } = .error (.truncated ip) := by
  unfold egReadOne
  rw [readRun_unary]
  simp only [readField_short (c := { ip := ip + (unary n).length, rest := suf }) hs]

/-- What a codeword that is read looks like (R172). -/
theorem egReadOne_inv {c c' : Cursor} {x : Sym} (h : egReadOne c = .ok (x, c')) :
    ∃ suf, x.val = 2 ^ suf.length + val suf ∧ c.rest = (unary suf.length ++ suf) ++ c'.rest := by
  obtain ⟨ip, rest⟩ := c
  rcases zeros_or_run rest with hz | ⟨q, tail, hq⟩
  · rw [hz, egReadOne_zeros] at h; cases h
  · have hu : rest = unary q ++ tail := by rw [hq]; simp [unary]
    unfold egReadOne at h
    simp only at h
    rw [hu, readRun_unary] at h
    simp only [readField] at h
    split at h
    · cases h
    · rename_i suf c₂ hf
      split at hf
      · cases hf
      · rename_i hlen
        simp only [Except.ok.injEq, Prod.mk.injEq] at hf
        obtain ⟨rfl, rfl⟩ := hf
        split at h
        · cases h
        · rename_i y hy
          simp only [Except.ok.injEq, Prod.mk.injEq] at h
          obtain ⟨rfl, rfl⟩ := h
          have hl : (tail.take q).length = q := by simp; omega
          refine ⟨tail.take q, by rw [hl]; exact (emitSym_ok hy).symm, ?_⟩
          simp only [hl, hu, List.append_assoc, List.take_append_drop]

/-- The words the loop reads. -/
theorem eg_readsWords {ws : List (Sym × BitSeq)}
    (h : ∀ p ∈ ws, ∃ suf, p.1.val = 2 ^ suf.length + val suf ∧ p.2 = unary suf.length ++ suf) :
    ReadsWords (fun _ : Unit => True) (fun (_ : Unit) c => ((), egReadOne c)) ws := by
  intro p hp
  obtain ⟨suf, hx, hw⟩ := h p hp
  refine ⟨by simp [hw, unary], fun r ip rest _ => ⟨(), trivial, ?_⟩⟩
  simp only [hw, egReadOne_word hx]

/-- The encoder's codeword, as the decoder reads it (R170, R176). -/
theorem egCode_reads {v : Nat} (hv : 1 ≤ v) :
    ∃ suf, v = 2 ^ suf.length + val suf ∧ egCode v = unary suf.length ++ suf := by
  have h1 := two_pow_flog2_le hv
  have h2 := lt_two_pow_flog2 v
  rw [Nat.pow_succ] at h2
  refine ⟨bin (v - 2 ^ flog2 v) (flog2 v), ?_, by rw [bin_length]; rfl⟩
  rw [bin_length, val_bin_of_lt (by omega)]
  omega

/-- A value and its codeword determine each other (R170, R172): the suffix is the encoder's. -/
theorem egCode_of_value {v : Nat} {suf : BitSeq} (h : v = 2 ^ suf.length + val suf) :
    egCode v = unary suf.length ++ suf := by
  have hlt := val_lt suf
  have hlog : flog2 v = suf.length := by
    unfold flog2
    refine (Nat.log2_eq_iff (by have := Nat.two_pow_pos suf.length; omega)).2 ⟨by omega, ?_⟩
    rw [Nat.pow_succ]
    omega
  unfold egCode
  rw [hlog, show v - 2 ^ suf.length = val suf by omega, bin_val]

/-- Decoding readable codewords (R172). -/
theorem egDecode_words {ws : List (Sym × BitSeq)}
    (h : ∀ p ∈ ws, ∃ suf, p.1.val = 2 ^ suf.length + val suf ∧ p.2 = unary suf.length ++ suf) :
    egDecode (ws.map Prod.snd).flatten = .ok (ws.map Prod.fst) := by
  obtain ⟨r', -, h₁⟩ := readCodewords_ok (eg_readsWords h) (r := ()) trivial rfl
  rw [egDecode, h₁]

/-- Decoding readable codewords and a rest whose first codeword fails (R172). -/
theorem egDecode_error {ws : List (Sym × BitSeq)} {tail : BitSeq} {e : Cause}
    (h : ∀ p ∈ ws, ∃ suf, p.1.val = 2 ^ suf.length + val suf ∧ p.2 = unary suf.length ++ suf)
    (ht : tail ≠ []) (he : egReadOne { ip := (ws.map Prod.snd).flatten.length, rest := tail } = .error e) :
    egDecode ((ws.map Prod.snd).flatten ++ tail) = .error e := by
  obtain ⟨r', -, h₁⟩ := readCodewords_error (eg_readsWords h) (r := ()) trivial rfl ht
    (e := e) (fun r' _ => ⟨(), trivial, by rw [he]⟩)
  rw [egDecode, h₁]

/-- `EG.DEC` gives back the text that `EG.ENC` wrote (R133, R176). -/
theorem egDecode_egCodes {m : SymSeq} (hm : ∀ v ∈ m, 1 ≤ v.val) :
    egDecode (m.flatMap fun v => egCode v.val) = .ok m := by
  have h := egDecode_words (ws := m.map fun v => (v, egCode v.val)) fun p hp => by
    obtain ⟨v, hv, rfl⟩ := List.mem_map.1 hp
    exact egCode_reads (hm v hv)
  rwa [List.map_map, List.map_map, show (Prod.fst ∘ fun v : Sym => (v, egCode v.val)) = id from rfl,
    List.map_id, show (Prod.snd ∘ fun v : Sym => (v, egCode v.val)) = fun v => egCode v.val from rfl,
    ← List.flatMap_def] at h

end Sys2Proof.Machine
end

