-- ==== Sys2Proof/Laws/Fibonacci.lean ====
section
/-! SUPPORT. The Fibonacci sequence and its cache, the greedy selection, and what one codeword of the
decoder does (spec/43_fibonacci.md R190 to R196). -/

namespace Sys2Proof.Machine

/-! ## The sequence -/

theorem fibNum_add_two (n : Nat) : fibNum (n + 2) = fibNum (n + 1) + fibNum n := rfl

theorem fibNum_pos (n : Nat) : 1 ≤ fibNum n := by
  induction n using fibNum.induct with
  | case1 => decide
  | case2 => decide
  | case3 n _ _ => rw [fibNum_add_two]; omega

theorem fibNum_lt_succ (n : Nat) : fibNum n < fibNum (n + 1) := by
  cases n with
  | zero => decide
  | succ n => rw [fibNum_add_two]; have := fibNum_pos n; omega

theorem lt_fibNum (n : Nat) : n < fibNum n := by
  induction n with
  | zero => decide
  | succ n ih => have := fibNum_lt_succ n; omega

theorem fibNum_le {i j : Nat} (h : i ≤ j) : fibNum i ≤ fibNum j := by
  induction h with
  | refl => exact Nat.le_refl _
  | step _ ih => exact ih.trans (fibNum_lt_succ _).le

/-! ## The cache -/

theorem FibCacheOk.getD_eq {c : List Nat} (h : FibCacheOk c) (i : Nat) (hi : i < c.length) :
    c.getD i 0 = fibNum i := by
  induction i using fibNum.induct with
  | case1 => exact h.seed_zero
  | case2 => exact h.seed_one
  | case3 n ih₁ ih₂ =>
    have h1 := ih₁ (by omega)
    have h2 := ih₂ (by omega)
    rw [h.recurrence _ (by omega) hi]
    exact congrArg₂ (· + ·) h1 h2

/-- A cache is sound when it holds terms of the sequence, the seed among them. -/
theorem fibCacheOk_of_getD {c : List Nat} (h2 : 2 ≤ c.length) (h : ∀ i < c.length, c.getD i 0 = fibNum i) :
    FibCacheOk c where
  two_le_length := h2
  seed_zero := h 0 (by omega)
  seed_one := h 1 (by omega)
  recurrence i hi hl := by
    obtain ⟨j, rfl⟩ : ∃ j, i = j + 2 := ⟨i - 2, by omega⟩
    rw [h _ hl, h _ (by omega), h _ (by omega)]
    rfl

theorem fibCacheOk_seed : FibCacheOk Config.fibSeed := by
  refine fibCacheOk_of_getD (by decide) ?_
  decide

theorem fibExtend_ok (n : Nat) : ∀ {c : List Nat}, FibCacheOk c →
    FibCacheOk (fibExtend n c) ∧ (fibExtend n c).length = c.length + n ∧ c <+: fibExtend n c := by
  induction n with
  | zero => intro c h; exact ⟨h, rfl, List.prefix_refl c⟩
  | succ n ih =>
    intro c h
    have h2 := h.two_le_length
    have hok : FibCacheOk (c ++ [c.getD (c.length - 1) 0 + c.getD (c.length - 2) 0]) := by
      refine fibCacheOk_of_getD (by simp; omega) fun i hi => ?_
      rcases Nat.lt_or_ge i c.length with hlt | hge
      · rw [List.getD_append _ _ _ _ hlt, h.getD_eq i hlt]
      · have hi' : i = c.length := by simp at hi; omega
        subst hi'
        rw [List.getD_append_right _ _ _ _ (Nat.le_refl _), h.getD_eq _ (by omega), h.getD_eq _ (by omega)]
        obtain ⟨j, hj⟩ : ∃ j, c.length = j + 2 := ⟨c.length - 2, by omega⟩
        simp [hj, fibNum_add_two]
    obtain ⟨h3, h4, h5⟩ := ih hok
    refine ⟨h3, ?_, (List.prefix_append _ _).trans h5⟩
    rw [fibExtend, h4]
    simp
    omega

theorem fibReach_ok (i : Nat) {c : List Nat} (h : FibCacheOk c) : FibCacheOk (fibReach i c) :=
  (fibExtend_ok _ h).1

theorem lt_fibReach_length (i : Nat) {c : List Nat} (h : FibCacheOk c) : i < (fibReach i c).length := by
  rw [fibReach, (fibExtend_ok _ h).2.1]
  omega

theorem fibReach_length (i : Nat) {c : List Nat} (h : FibCacheOk c) :
    (fibReach i c).length = max c.length (i + 1) := by
  rw [fibReach, (fibExtend_ok _ h).2.1]
  omega

theorem prefix_fibReach (i : Nat) {c : List Nat} (h : FibCacheOk c) : c <+: fibReach i c :=
  (fibExtend_ok _ h).2.2

/-- `fib(i) = F(i)`, whatever the cache held before (R191). -/
theorem fibTerm_eq (i : Nat) {c : List Nat} (h : FibCacheOk c) : fibTerm i c = fibNum i :=
  (fibReach_ok i h).getD_eq i (lt_fibReach_length i h)

/-! ## The encoder -/

/-- The search ends at the greatest `h` with `F(h) <= v`, and the cache reaches past it (R195). -/
theorem fibTop_spec {v : Nat} : ∀ (n : Nat) {c : List Nat} {h : Nat}, FibCacheOk c → fibNum h ≤ v → v ≤ h + n →
    FibCacheOk (fibTop v n c h).1 ∧ c <+: (fibTop v n c h).1 ∧ fibNum (fibTop v n c h).2 ≤ v ∧
      v < fibNum ((fibTop v n c h).2 + 1) ∧ (n ≠ 0 → (fibTop v n c h).2 + 1 < (fibTop v n c h).1.length) := by
  intro n
  induction n with
  | zero =>
    intro c h _ h1 h2
    have := lt_fibNum h
    omega
  | succ n ih =>
    intro c h hc h1 h2
    simp only [fibTop, fibTerm_eq (h + 1) hc]
    split
    · rename_i h3
      obtain ⟨g1, g2, g3, g4, g5⟩ := ih (fibReach_ok (h + 1) hc) h3 (by omega)
      refine ⟨g1, (prefix_fibReach _ hc).trans g2, g3, g4, fun _ => g5 ?_⟩
      rintro rfl
      have := lt_fibNum (h + 1)
      omega
    · rename_i h3
      exact ⟨fibReach_ok _ hc, prefix_fibReach _ hc, h1, Nat.lt_of_not_le h3, fun _ => lt_fibReach_length _ hc⟩

theorem fibGreedy_length (c : List Nat) (n rem : Nat) : (fibGreedy c n rem).length = n := by
  induction n generalizing rem with
  | zero => rfl
  | succ n ih => simp only [fibGreedy]; split <;> simp [ih]

theorem fibSum_append (i : Nat) (a b : BitSeq) : fibSum i (a ++ b) = fibSum i a + fibSum (i + a.length) b := by
  induction a generalizing i with
  | nil => simp [fibSum]
  | cons x a ih =>
    simp only [List.cons_append, fibSum, ih, List.length_cons]
    rw [show i + 1 + a.length = i + (a.length + 1) by omega]
    omega

/-- The greedy selection uses up what it is given (R193). -/
theorem fibGreedy_sum {c : List Nat} (hc : FibCacheOk c) : ∀ (n rem : Nat), rem < fibNum n →
    fibSum 0 (fibGreedy c n rem) = rem := by
  intro n
  induction n with
  | zero => intro rem h; simp only [fibNum] at h; simp only [fibGreedy, fibSum]; omega
  | succ n ih =>
    intro rem h
    simp only [fibGreedy, fibTerm_eq n hc]
    split
    · rename_i hle
      rw [fibSum_append, ih, fibGreedy_length]
      · simp only [fibSum, Nat.zero_add, if_true]; omega
      · cases n with
        | zero => simp only [fibNum] at *; omega
        | succ n => rw [fibNum_add_two] at h; have := fibNum_lt_succ n; omega
    · rename_i hle
      rw [fibSum_append, ih _ (by omega), fibGreedy_length]
      simp [fibSum]

/-- The last bit of a selection is 0 when what is left is below the term before. -/
theorem fibGreedy_last {c : List Nat} (hc : FibCacheOk c) {n rem : Nat} (h : rem < fibNum n) :
    fibGreedy c (n + 1) rem = fibGreedy c n rem ++ [false] := by
  simp only [fibGreedy, fibTerm_eq n hc]
  rw [if_neg (by omega)]

theorem fibGreedy_last_true {c : List Nat} (hc : FibCacheOk c) {n rem : Nat} (h : fibNum n ≤ rem) :
    fibGreedy c (n + 1) rem = fibGreedy c n (rem - fibNum n) ++ [true] := by
  simp only [fibGreedy, fibTerm_eq n hc]
  rw [if_pos h]

/-! ## Pairs of ones -/

theorem noPair_nil : NoPair [] := by simp [NoPair]

theorem NoPair.append_false {b : BitSeq} (h : NoPair b) : NoPair (b ++ [false]) := by
  rintro ⟨s, t, hst⟩
  rcases List.eq_nil_or_concat t with rfl | ⟨t', x, rfl⟩
  · rw [List.append_nil] at hst
    have h2 : (s ++ [true]) ++ [true] = b ++ [false] := by simpa using hst
    have h3 := List.append_inj_right' h2 rfl
    simp at h3
  · have h2 : (s ++ [true, true] ++ t') ++ [x] = b ++ [false] := by simpa using hst
    exact h ⟨s, t', List.append_inj_left' h2 rfl⟩

theorem NoPair.append_false_true {b : BitSeq} (h : NoPair b) : NoPair (b ++ [false] ++ [true]) := by
  rintro ⟨s, t, hst⟩
  rcases List.eq_nil_or_concat t with rfl | ⟨t', x, rfl⟩
  · rw [List.append_nil] at hst
    have h2 : (s ++ [true]) ++ [true] = (b ++ [false]) ++ [true] := by simpa using hst
    have h3 := List.append_inj_left' h2 rfl
    have h4 := List.append_inj_right' h3 rfl
    simp at h4
  · have h2 : (s ++ [true, true] ++ t') ++ [x] = (b ++ [false]) ++ [true] := by simpa using hst
    exact h.append_false ⟨s, t', List.append_inj_left' h2 rfl⟩

theorem NoPair.of_append_left {a b : BitSeq} (h : NoPair (a ++ b)) : NoPair a := fun h' =>
  h (h'.trans (List.infix_append' [] a b))

theorem NoPair.of_cons {x : Bit} {b : BitSeq} (h : NoPair (x :: b)) : NoPair b := fun h' =>
  h (h'.trans ⟨[x], [], by simp⟩)

theorem noPair_cons_iff (x y : Bit) (b : BitSeq) :
    NoPair (x :: y :: b) ↔ ¬ (x = true ∧ y = true) ∧ NoPair (y :: b) := by
  constructor
  · intro h
    exact ⟨fun ⟨hx, hy⟩ => h ⟨[], b, by simp [hx, hy]⟩, h.of_cons⟩
  · rintro ⟨h1, h2⟩ ⟨s, t, hst⟩
    cases s with
    | nil =>
      simp only [List.nil_append, List.cons_append, List.cons.injEq] at hst
      exact h1 ⟨hst.1.symm, hst.2.1.symm⟩
    | cons z s =>
      simp only [List.cons_append, List.cons.injEq] at hst
      exact h2 ⟨s, t, hst.2⟩

/-- A greedy selection uses no two adjacent terms (R193). -/
theorem fibGreedy_noPair {c : List Nat} (hc : FibCacheOk c) : ∀ (n rem : Nat), rem < fibNum n →
    NoPair (fibGreedy c n rem) := by
  intro n
  induction n using Nat.strong_induction_on with
  | _ n ih =>
    intro rem h
    rcases n with _ | n
    · exact noPair_nil
    · rcases Nat.lt_or_ge rem (fibNum n) with hlt | hge
      · rw [fibGreedy_last hc hlt]
        exact (ih n (by omega) rem hlt).append_false
      · rw [fibGreedy_last_true hc hge]
        rcases n with _ | n
        · simp [fibGreedy, NoPair, List.infix_iff_prefix_suffix]
          intro x hx hs
          have := hs.length_le
          have := hx.length_le
          simp at *
          omega
        · have h2 : rem - fibNum (n + 1) < fibNum n := by rw [fibNum_add_two] at h; omega
          rw [fibGreedy_last hc h2]
          exact (ih n (by omega) _ h2).append_false_true

/-- A codeword of the encoder (R193, R194): the terms at its ones sum to the value, no two of them are
adjacent, the highest bit is 1, and a 1 follows it. -/
theorem fibEncodeOne_spec {c : List Nat} (hc : FibCacheOk c) {v : Nat} (hv : 1 ≤ v) :
    FibCacheOk (fibEncodeOne c v).1 ∧ c <+: (fibEncodeOne c v).1 ∧
      ∃ b, (fibEncodeOne c v).2 = b ++ [true, true] ∧ NoPair (b ++ [true]) ∧ fibSum 0 (b ++ [true]) = v ∧
        b.length + 2 ≤ (fibEncodeOne c v).1.length := by
  obtain ⟨h1, h2, h3, h4, h5⟩ := fibTop_spec (v := v) v (c := c) (h := 0) hc (by simpa [fibNum] using hv) (by omega)
  refine ⟨h1, h2, fibGreedy (fibTop v v c 0).1 (fibTop v v c 0).2 (v - fibNum (fibTop v v c 0).2), ?_, ?_, ?_, ?_⟩
  · simp only [fibEncodeOne, fibGreedy_last_true h1 h3, List.append_assoc, List.cons_append, List.nil_append]
  · rw [← fibGreedy_last_true h1 h3]; exact fibGreedy_noPair h1 _ _ h4
  · rw [← fibGreedy_last_true h1 h3]; exact fibGreedy_sum h1 _ _ h4
  · rw [fibGreedy_length]
    have := h5 (by omega)
    simp only [fibEncodeOne]
    omega

/-- The encoder on a text (R195): codewords one after the other, and the cache has grown. -/
theorem fibEncode_spec : ∀ (vs : List Nat) {c : List Nat}, FibCacheOk c → (∀ v ∈ vs, 1 ≤ v) →
    FibCacheOk (fibEncode c vs).1 ∧ c <+: (fibEncode c vs).1 ∧
      ∃ ws : List BitSeq, (fibEncode c vs).2 = ws.flatten ∧
        List.Forall₂ (fun v w => ∃ b, w = b ++ [true, true] ∧ NoPair (b ++ [true]) ∧
          fibSum 0 (b ++ [true]) = v ∧ b.length + 2 ≤ (fibEncode c vs).1.length) vs ws := by
  intro vs
  induction vs with
  | nil => intro c hc _; exact ⟨hc, List.prefix_refl c, [], rfl, .nil⟩
  | cons v vs ih =>
    intro c hc hv
    obtain ⟨h1, h2, b, h3, h4, h5, h5'⟩ := fibEncodeOne_spec hc (hv v (by simp))
    obtain ⟨h6, h7, ws, h8, h9⟩ := ih h1 (fun w hw => hv w (by simp [hw]))
    refine ⟨h6, h2.trans h7, (fibEncodeOne c v).2 :: ws, ?_, .cons ⟨b, h3, h4, h5, ?_⟩ h9⟩
    · simp only [fibEncode, h8, List.flatten_cons]
    · exact h5'.trans h7.length_le

/-! ## The decoder -/

/-- The scan over bits without a pair (R196). -/
theorem fibReadSum_noPair (start : Nat) (rest : BitSeq) : ∀ (b : BitSeq) {c : List Nat} (ip acc i : Nat) (prev : Bit),
    FibCacheOk c → NoPair (prev :: b) → ∃ c', FibCacheOk c' ∧ c <+: c' ∧
      fibReadSum start c ip acc i prev (b ++ rest) =
        fibReadSum start c' (ip + b.length) (acc + fibSum i b) (i + b.length) (b.getLastD prev) rest := by
  intro b
  induction b with
  | nil => intro c ip acc i prev hc _; exact ⟨c, hc, List.prefix_refl c, by simp [fibSum]⟩
  | cons x b ih =>
    intro c ip acc i prev hc hp
    rw [noPair_cons_iff] at hp
    cases x with
    | true =>
      have hprev : prev = false := by simpa using hp.1
      subst hprev
      obtain ⟨c', h1, h2, h3⟩ := ih (ip + 1) (acc + fibNum i) (i + 1) true (fibReach_ok i hc) hp.2
      refine ⟨c', h1, (prefix_fibReach i hc).trans h2, ?_⟩
      simp only [List.cons_append, fibReadSum, fibTerm_eq i hc, h3, List.length_cons, fibSum, if_true,
        Bool.false_eq_true, if_false]
      rw [show ip + 1 + b.length = ip + (b.length + 1) by omega, show i + 1 + b.length = i + (b.length + 1) by omega,
        Nat.add_assoc, List.getLastD_cons]
    | false =>
      obtain ⟨c', h1, h2, h3⟩ := ih (ip + 1) acc (i + 1) false hc hp.2
      refine ⟨c', h1, h2, ?_⟩
      simp only [List.cons_append, fibReadSum, h3, List.length_cons, fibSum, Bool.false_eq_true, if_false,
        Nat.zero_add]
      rw [show ip + 1 + b.length = ip + (b.length + 1) by omega, show i + 1 + b.length = i + (b.length + 1) by omega,
        List.getLastD_cons]

/-- A sequence without `11` has none with a zero before it. -/
theorem NoPair.cons_false {b : BitSeq} (h : NoPair b) : NoPair (false :: b) := by
  cases b with
  | nil => simp only [NoPair]; rintro h; have := h.length_le; simp at this
  | cons x b => rw [noPair_cons_iff]; exact ⟨by simp, h⟩

/-- The scan of a terminated codeword (R196). -/
theorem fibReadSum_word {c : List Nat} (hc : FibCacheOk c) (start ip : Nat) {b : BitSeq} (hb : NoPair (b ++ [true]))
    (rest : BitSeq) : ∃ c', FibCacheOk c' ∧ c <+: c' ∧
      fibReadSum start c ip 0 0 false ((b ++ [true, true]) ++ rest) =
        (c', .ok (fibSum 0 (b ++ [true]), { ip := ip + (b ++ [true, true]).length, rest := rest })) := by
  obtain ⟨c', h1, h2, h3⟩ := fibReadSum_noPair start (true :: rest) (b ++ [true]) ip 0 0 false hc hb.cons_false
  refine ⟨c', h1, h2, ?_⟩
  rw [show (b ++ [true, true]) ++ rest = (b ++ [true]) ++ true :: rest by simp, h3]
  rw [List.getLastD_concat]
  simp only [fibReadSum, if_true, List.length_append, List.length_cons, List.length_nil, Nat.zero_add,
    Nat.add_assoc]

/-- The scan of bits without a terminator (R196). -/
theorem fibReadSum_open {c : List Nat} (hc : FibCacheOk c) (start ip : Nat) {b : BitSeq} (hb : NoPair b) :
    ∃ c', FibCacheOk c' ∧ c <+: c' ∧
      fibReadSum start c ip 0 0 false b = (c', .error (.truncated start)) := by
  obtain ⟨c', h1, h2, h3⟩ := fibReadSum_noPair start [] b ip 0 0 false hc hb.cons_false
  refine ⟨c', h1, h2, ?_⟩
  rw [List.append_nil] at h3
  rw [h3, fibReadSum]

/-- A bit sequence has no `11`, or splits behind its first one (R196). -/
theorem noPair_or_word (s : BitSeq) :
    NoPair s ∨ ∃ b rest, NoPair (b ++ [true]) ∧ s = (b ++ [true, true]) ++ rest := by
  induction s with
  | nil => exact .inl noPair_nil
  | cons x s ih =>
    cases s with
    | nil => left; simp only [NoPair]; rintro h; have := h.length_le; simp at this
    | cons y s =>
      by_cases hxy : x = true ∧ y = true
      · right
        refine ⟨[], s, ?_, by simp [hxy.1, hxy.2]⟩
        simp only [NoPair, List.nil_append]
        rintro h
        have := h.length_le
        simp at this
      · rcases ih with h | ⟨b, rest, hb, hs⟩
        · exact .inl ((noPair_cons_iff x y s).2 ⟨hxy, h⟩)
        · right
          refine ⟨x :: b, rest, ?_, by rw [hs]; simp⟩
          cases b with
          | nil =>
            simp only [List.nil_append, List.cons_append, List.cons.injEq] at hs
            rw [List.cons_append, List.nil_append, noPair_cons_iff]
            refine ⟨fun h => hxy ⟨h.1, hs.1⟩, hb⟩
          | cons z b =>
            simp only [List.cons_append, List.cons.injEq] at hs
            rw [List.cons_append, List.cons_append, noPair_cons_iff]
            exact ⟨fun h => hxy ⟨h.1, by rw [hs.1]; exact h.2⟩, by simpa using hb⟩

/-- A codeword whose sum is a symbol is read (R196). -/
theorem fibReadOne_word {c : List Nat} (hc : FibCacheOk c) (ip : Nat) {b : BitSeq} (hb : NoPair (b ++ [true]))
    (rest : BitSeq) {x : Sym} (hx : x.val = fibSum 0 (b ++ [true])) : ∃ c', FibCacheOk c' ∧ c <+: c' ∧
      fibReadOne c { ip := ip, rest := (b ++ [true, true]) ++ rest } =
        (c', .ok (x, { ip := ip + (b ++ [true, true]).length, rest := rest })) := by
  obtain ⟨c', h1, h2, h3⟩ := fibReadSum_word hc ip ip hb rest
  refine ⟨c', h1, h2, ?_⟩
  simp only [fibReadOne, h3, ← hx, emitSym_val]

/-- A codeword whose sum is no symbol is out of range (R124, R196). -/
theorem fibReadOne_range {c : List Nat} (hc : FibCacheOk c) (ip : Nat) {b : BitSeq} (hb : NoPair (b ++ [true]))
    (rest : BitSeq) (hv : Config.symMax < fibSum 0 (b ++ [true])) : ∃ c', FibCacheOk c' ∧ c <+: c' ∧
      fibReadOne c { ip := ip, rest := (b ++ [true, true]) ++ rest } = (c', .error (.outOfRange ip)) := by
  obtain ⟨c', h1, h2, h3⟩ := fibReadSum_word hc ip ip hb rest
  refine ⟨c', h1, h2, ?_⟩
  simp only [fibReadOne, h3, emitSym_of_gt hv]

/-- Bits without a terminator are truncated (R196). -/
theorem fibReadOne_open {c : List Nat} (hc : FibCacheOk c) (ip : Nat) {b : BitSeq} (hb : NoPair b) :
    ∃ c', FibCacheOk c' ∧ c <+: c' ∧
      fibReadOne c { ip := ip, rest := b } = (c', .error (.truncated ip)) := by
  obtain ⟨c', h1, h2, h3⟩ := fibReadSum_open hc ip ip hb
  refine ⟨c', h1, h2, ?_⟩
  simp only [fibReadOne, h3]

/-- Everything that reading one codeword can do (R196). -/
theorem fibReadOne_cases {c : List Nat} (hc : FibCacheOk c) (cur : Cursor) :
    ∃ c', FibCacheOk c' ∧ c <+: c' ∧
      ((NoPair cur.rest ∧ fibReadOne c cur = (c', .error (.truncated cur.ip))) ∨
       ∃ b rest, NoPair (b ++ [true]) ∧ cur.rest = (b ++ [true, true]) ++ rest ∧
        ((Config.symMax < fibSum 0 (b ++ [true]) ∧ fibReadOne c cur = (c', .error (.outOfRange cur.ip))) ∨
         ∃ x : Sym, x.val = fibSum 0 (b ++ [true]) ∧
          fibReadOne c cur = (c', .ok (x, { ip := cur.ip + (b ++ [true, true]).length, rest := rest })))) := by
  obtain ⟨ip, bits⟩ := cur
  rcases noPair_or_word bits with h | ⟨b, rest, hb, rfl⟩
  · obtain ⟨c', h1, h2, h3⟩ := fibReadOne_open hc ip h
    exact ⟨c', h1, h2, .inl ⟨h, h3⟩⟩
  · rcases Nat.lt_or_ge Config.symMax (fibSum 0 (b ++ [true])) with hv | hv
    · obtain ⟨c', h1, h2, h3⟩ := fibReadOne_range hc ip hb rest hv
      exact ⟨c', h1, h2, .inr ⟨b, rest, hb, rfl, .inl ⟨hv, h3⟩⟩⟩
    · have hx : fibSum 0 (b ++ [true]) < Config.symMax + 1 := by omega
      obtain ⟨c', h1, h2, h3⟩ := fibReadOne_word hc ip hb rest (x := ⟨_, hx⟩) rfl
      exact ⟨c', h1, h2, .inr ⟨b, rest, hb, rfl, .inr ⟨⟨_, hx⟩, rfl, h3⟩⟩⟩

/-- Reading one codeword keeps the cache sound and only extends it (R32, R191). -/
theorem fibReadOne_keeps (c₀ : List Nat) (c : List Nat) (cur : Cursor) (h : FibCacheOk c ∧ c₀ <+: c) :
    FibCacheOk (fibReadOne c cur).1 ∧ c₀ <+: (fibReadOne c cur).1 := by
  obtain ⟨c', h1, h2, h3⟩ := fibReadOne_cases h.1 cur
  have : (fibReadOne c cur).1 = c' := by
    rcases h3 with ⟨-, h3⟩ | ⟨_, _, _, _, ⟨-, h3⟩ | ⟨_, _, h3⟩⟩ <;> rw [h3]
  rw [this]
  exact ⟨h1, h.2.trans h2⟩

/-- What reading one codeword gives does not depend on the length of the cache (R192). -/
theorem fibReadOne_indep (c c' : List Nat) (cur : Cursor) (h : FibCacheOk c) (h' : FibCacheOk c') :
    (fibReadOne c cur).2 = (fibReadOne c' cur).2 := by
  obtain ⟨ip, bits⟩ := cur
  rcases noPair_or_word bits with hb | ⟨b, rest, hb, rfl⟩
  · obtain ⟨_, -, -, h1⟩ := fibReadOne_open h ip hb
    obtain ⟨_, -, -, h2⟩ := fibReadOne_open h' ip hb
    rw [h1, h2]
  · rcases Nat.lt_or_ge Config.symMax (fibSum 0 (b ++ [true])) with hv | hv
    · obtain ⟨_, -, -, h1⟩ := fibReadOne_range h ip hb rest hv
      obtain ⟨_, -, -, h2⟩ := fibReadOne_range h' ip hb rest hv
      rw [h1, h2]
    · have hx : fibSum 0 (b ++ [true]) < Config.symMax + 1 := by omega
      obtain ⟨_, -, -, h1⟩ := fibReadOne_word h ip hb rest (x := ⟨_, hx⟩) rfl
      obtain ⟨_, -, -, h2⟩ := fibReadOne_word h' ip hb rest (x := ⟨_, hx⟩) rfl
      rw [h1, h2]

/-- The words the loop reads. -/
theorem fib_readsWords (c₀ : List Nat) {ws : List (Sym × BitSeq)}
    (h : ∀ p ∈ ws, ∃ b, NoPair (b ++ [true]) ∧ p.1.val = fibSum 0 (b ++ [true]) ∧ p.2 = b ++ [true, true]) :
    ReadsWords (fun c => FibCacheOk c ∧ c₀ <+: c) fibReadOne ws := by
  intro p hp
  obtain ⟨b, hb, hx, hw⟩ := h p hp
  refine ⟨by simp [hw], fun c ip rest hc => ?_⟩
  obtain ⟨c', h1, h2, h3⟩ := fibReadOne_word hc.1 ip hb rest hx
  exact ⟨c', ⟨h1, hc.2.trans h2⟩, by rw [hw, h3]⟩

/-- The cache after a decode, whatever its outcome (R192). -/
theorem fibDecode_cache {c : List Nat} (hc : FibCacheOk c) (bits : BitSeq) :
    FibCacheOk (fibDecode c bits).1 ∧ c <+: (fibDecode c bits).1 :=
  readCodewords_keeps (P := fun c' => FibCacheOk c' ∧ c <+: c') (fibReadOne_keeps c) _ _ _
    ⟨hc, List.prefix_refl c⟩

/-- A decode gives the same, whatever the length of the cache (R192). -/
theorem fibDecode_indep {c c' : List Nat} (h : FibCacheOk c) (h' : FibCacheOk c') (bits : BitSeq) :
    (fibDecode c bits).2 = (fibDecode c' bits).2 :=
  readCodewords_indep (P := FibCacheOk)
    (fun r cur hr => (fibReadOne_keeps [] r cur ⟨hr, List.nil_prefix⟩).1)
    (fun r r' cur hr hr' => fibReadOne_indep r r' cur hr hr') _ _ _ _ h h'

/-- Decoding readable codewords (R196). -/
theorem fibDecode_words {c : List Nat} (hc : FibCacheOk c) {ws : List (Sym × BitSeq)}
    (h : ∀ p ∈ ws, ∃ b, NoPair (b ++ [true]) ∧ p.1.val = fibSum 0 (b ++ [true]) ∧ p.2 = b ++ [true, true]) :
    (fibDecode c (ws.map Prod.snd).flatten).2 = .ok (ws.map Prod.fst) := by
  obtain ⟨r', -, h₁⟩ := readCodewords_ok (fib_readsWords c h) (r := c) ⟨hc, List.prefix_refl c⟩ rfl
  rw [fibDecode, h₁]

/-- Decoding readable codewords and a rest whose first codeword fails (R196). -/
theorem fibDecode_error {c : List Nat} (hc : FibCacheOk c) {ws : List (Sym × BitSeq)} {tail : BitSeq} {e : Cause}
    (h : ∀ p ∈ ws, ∃ b, NoPair (b ++ [true]) ∧ p.1.val = fibSum 0 (b ++ [true]) ∧ p.2 = b ++ [true, true])
    (ht : tail ≠ [])
    (he : ∀ c', FibCacheOk c' → (fibReadOne c' { ip := (ws.map Prod.snd).flatten.length, rest := tail }).2 = .error e) :
    (fibDecode c ((ws.map Prod.snd).flatten ++ tail)).2 = .error e := by
  obtain ⟨r', -, h₁⟩ := readCodewords_error (fib_readsWords c h) (r := c) ⟨hc, List.prefix_refl c⟩ rfl ht
    (e := e) (fun r' hr' => ⟨_, fibReadOne_keeps c r' _ hr', Prod.ext rfl (he r' hr'.1)⟩)
  rw [fibDecode, h₁]

/-- `FIB.DEC` gives back the text that `FIB.ENC` wrote, whatever legal cache it starts from (R133, R200). -/
theorem fibDecode_fibEncode {c c' : List Nat} (hc : FibCacheOk c) (hc' : FibCacheOk c') {m : SymSeq}
    (hm : ∀ v ∈ m, 1 ≤ v.val) : (fibDecode c' (fibEncode c (m.map Fin.val)).2).2 = .ok m := by
  obtain ⟨-, -, ws, he, hw⟩ := fibEncode_spec (m.map Fin.val) hc (by simpa using hm)
  rw [List.forall₂_map_left_iff] at hw
  have hlen := hw.length_eq
  have h := fibDecode_words hc' (ws := m.zip ws) fun p hp => by
    obtain ⟨b, h1, h2, h3, -⟩ := (List.forall₂_iff_zip.1 hw).2 hp
    exact ⟨b, h2, h3.symm, h1⟩
  rwa [List.map_fst_zip (by omega), List.map_snd_zip (by omega), ← he] at h

end Sys2Proof.Machine
end

