-- ==== Sys2Proof/Laws/Golomb.lean ====
section
/-! SUPPORT. What one codeword of the Golomb-Rice decoder does, and what the codewords of the encoder are
to it (spec/41_golomb_rice.md R150 to R152, R156). -/

namespace Sys2Proof.Machine

/-- A codeword whose value is a symbol is read (R152). -/
theorem grReadOne_word {k w q ip : Nat} {suf rest : BitSeq} (hs : suf.length = w) {x : Sym}
    (hx : x.val = k * q + val suf) :
    grReadOne k w { ip := ip, rest := (unary q ++ suf) ++ rest } =
      .ok (x, { ip := ip + (unary q ++ suf).length, rest := rest }) := by
  unfold grReadOne
  rw [List.append_assoc, readRun_unary]
  simp only [readField_append hs, ← hx, emitSym_val, List.length_append, hs, Nat.add_assoc]

/-- A codeword whose value is no symbol is out of range (R124, R152). -/
theorem grReadOne_range {k w q ip : Nat} {suf rest : BitSeq} (hs : suf.length = w)
    (hv : Config.symMax < k * q + val suf) :
    grReadOne k w { ip := ip, rest := (unary q ++ suf) ++ rest } = .error (.outOfRange ip) := by
  unfold grReadOne
  rw [List.append_assoc, readRun_unary]
  simp only [readField_append hs, emitSym_of_gt hv]

/-- A run without its stop bit is truncated (R127). -/
theorem grReadOne_zeros (k w q ip : Nat) :
    grReadOne k w { ip := ip, rest := List.replicate q false } = .error (.truncated ip) := by
  simp only [grReadOne, readRun_zeros]

/-- A suffix that the operand's end cuts is truncated (R128). -/
theorem grReadOne_short {k w q ip : Nat} {suf : BitSeq} (hs : suf.length < w) :
    grReadOne k w { ip := ip, rest := unary q ++ suf } = .error (.truncated ip) := by
  unfold grReadOne
  rw [readRun_unary]
  simp only [readField_short (c := { ip := ip + (unary q).length, rest := suf }) hs]

/-- What a codeword that is read looks like (R152). -/
theorem grReadOne_inv {k w : Nat} {c c' : Cursor} {x : Sym} (h : grReadOne k w c = .ok (x, c')) :
    ∃ q suf, suf.length = w ∧ x.val = k * q + val suf ∧ c.rest = (unary q ++ suf) ++ c'.rest := by
  obtain ⟨ip, rest⟩ := c
  rcases zeros_or_run rest with hz | ⟨q, tail, hq⟩
  · rw [hz, grReadOne_zeros] at h; cases h
  · have hu : rest = unary q ++ tail := by rw [hq]; simp [unary]
    unfold grReadOne at h
    simp only at h
    rw [hu, readRun_unary] at h
    simp only [readField] at h
    split at h
    · cases h
    · rename_i suf c₂ hf
      split at hf
      · cases hf
      · rename_i hlen
        simp only [Except.ok.injEq, Prod.mk.injEq] at hf
        obtain ⟨rfl, rfl⟩ := hf
        split at h
        · cases h
        · rename_i y hy
          simp only [Except.ok.injEq, Prod.mk.injEq] at h
          obtain ⟨rfl, rfl⟩ := h
          refine ⟨q, tail.take w, by simp; omega, (emitSym_ok hy).symm, ?_⟩
          simp [hu]

/-- The codewords of a list of pairs of run length and suffix, as the loop reads them. -/
theorem gr_readsWords {k w : Nat} {ws : List (Sym × BitSeq)}
    (h : ∀ p ∈ ws, ∃ q suf, suf.length = w ∧ p.1.val = k * q + val suf ∧ p.2 = unary q ++ suf) :
    ReadsWords (fun _ : Unit => True) (fun (_ : Unit) c => ((), grReadOne k w c)) ws := by
  intro p hp
  obtain ⟨q, suf, hs, hx, hw⟩ := h p hp
  refine ⟨by simp [hw, unary], fun r ip rest _ => ⟨(), trivial, ?_⟩⟩
  simp only [hw, grReadOne_word hs hx]

/-- The encoder's codeword, as the decoder reads it (R150, R156). -/
theorem grCode_reads {k w : Nat} (hw : k ≤ 2 ^ w) (hk : 1 ≤ k) (v : Nat) :
    ∃ q suf, suf.length = w ∧ v = k * q + val suf ∧ grCode k w v = unary q ++ suf := by
  refine ⟨v / k, bin (v % k) w, bin_length _ _, ?_, rfl⟩
  rw [val_bin_of_lt (lt_of_lt_of_le (Nat.mod_lt v (by omega)) hw), Nat.div_add_mod]

/-- Decoding readable codewords (R152). -/
theorem grDecode_words {k w : Nat} {ws : List (Sym × BitSeq)}
    (h : ∀ p ∈ ws, ∃ q suf, suf.length = w ∧ p.1.val = k * q + val suf ∧ p.2 = unary q ++ suf) :
    grDecode k w (ws.map Prod.snd).flatten = .ok (ws.map Prod.fst) := by
  obtain ⟨r', -, h₁⟩ := readCodewords_ok (gr_readsWords h) (r := ()) trivial rfl
  rw [grDecode, h₁]

/-- Decoding readable codewords and a rest whose first codeword fails (R152). -/
theorem grDecode_error {k w : Nat} {ws : List (Sym × BitSeq)} {tail : BitSeq} {e : Cause}
    (h : ∀ p ∈ ws, ∃ q suf, suf.length = w ∧ p.1.val = k * q + val suf ∧ p.2 = unary q ++ suf)
    (ht : tail ≠ [])
    (he : grReadOne k w { ip := (ws.map Prod.snd).flatten.length, rest := tail } = .error e) :
    grDecode k w ((ws.map Prod.snd).flatten ++ tail) = .error e := by
  obtain ⟨r', -, h₁⟩ := readCodewords_error (gr_readsWords h) (r := ()) trivial rfl ht
    (e := e) (fun r' _ => ⟨(), trivial, by rw [he]⟩)
  rw [grDecode, h₁]

/-- `GR.DEC` gives back the text that `GR.ENC` wrote under the same `k` (R133, R156). -/
theorem grDecode_grCodes {k w : Nat} (hw : k ≤ 2 ^ w) (hk : 1 ≤ k) (m : SymSeq) :
    grDecode k w (m.flatMap fun v => grCode k w v.val) = .ok m := by
  have h := grDecode_words (ws := m.map fun v => (v, grCode k w v.val)) fun p hp => by
    obtain ⟨v, _, rfl⟩ := List.mem_map.1 hp
    exact grCode_reads hw hk v.val
  rwa [List.map_map, List.map_map, show (Prod.fst ∘ fun v : Sym => (v, grCode k w v.val)) = id from rfl,
    List.map_id, show (Prod.snd ∘ fun v : Sym => (v, grCode k w v.val)) = fun v => grCode k w v.val from rfl,
    ← List.flatMap_def] at h

end Sys2Proof.Machine
end

