-- ==== Sys2Proof/Laws/Hamming.lean ====
section
/-! SUPPORT. The codewords and the classification of the Hamming(7,4) unit (spec/47_hamming74.md R300 to
R313). -/

namespace Sys2Proof.Machine

/-- The outcome of a received block by its syndrome (R308): the eight rows of the table. -/
theorem hamDecodeBlock_table (j : Nat) (c0 c1 c2 c3 c4 c5 c6 : Bit) :
    hamDecodeBlock j c0 c1 c2 c3 c4 c5 c6 =
      match c4 == (c0 ^^ c1 ^^ c2), c5 == (c1 ^^ c2 ^^ c3), c6 == (c0 ^^ c2 ^^ c3) with
      | true, true, true => .ok ([c0, c1, c2, c3], [])
      | false, true, true => .ok ([c0, c1, c2, c3], [.hamParity j 4])
      | true, false, true => .ok ([c0, c1, c2, c3], [.hamParity j 5])
      | true, true, false => .ok ([c0, c1, c2, c3], [.hamParity j 6])
      | false, true, false => .ok ([!c0, c1, c2, c3], [.hamData j 0 c0 (!c0)])
      | false, false, true => .ok ([c0, !c1, c2, c3], [.hamData j 1 c1 (!c1)])
      | true, false, false => .ok ([c0, c1, c2, !c3], [.hamData j 3 c3 (!c3)])
      | false, false, false => .ok ([c0, c1, !c2, c3], [.hamData j 2 c2 (!c2)]) := by
  cases c0 <;> cases c1 <;> cases c2 <;> cases c3 <;> cases c4 <;> cases c5 <;> cases c6 <;> rfl

/-- The blocks of seven one after the other: they never fail (R309), and every record is a correction
with the bounds of R26. -/
theorem hamDecodeBlocks_ok : ∀ (n : Nat) (bits : BitSeq) (j : Nat), bits.length ≤ n →
    ∃ out dg, hamDecodeBlocks j bits = .ok (out, dg) ∧
      ∀ rec ∈ dg, rec.isCorrection = true ∧ ∀ r d, rec.Ok r d := by
  intro n
  induction n with
  | zero =>
    intro bits j h
    rw [List.length_eq_zero_iff.1 (Nat.le_zero.1 h)]
    exact ⟨[], [], rfl, by simp⟩
  | succ n ih =>
    intro bits j h
    match bits with
    | c0 :: c1 :: c2 :: c3 :: c4 :: c5 :: c6 :: rest =>
      obtain ⟨out, dg, h1, h2⟩ := ih rest (j + 1) (by simp at h; omega)
      have hb : ∃ data dg', hamDecodeBlock j c0 c1 c2 c3 c4 c5 c6 = .ok (data, dg') ∧
          ∀ rec ∈ dg', rec.isCorrection = true ∧ ∀ r d, rec.Ok r d := by
        rw [hamDecodeBlock_table]
        split <;> exact ⟨_, _, rfl, by simp [DiagRec.isCorrection, DiagRec.Ok]⟩
      obtain ⟨data, dg', h3, h4⟩ := hb
      refine ⟨data ++ out, dg' ++ dg, by simp only [hamDecodeBlocks, h3, h1], fun rec hrec => ?_⟩
      rcases List.mem_append.1 hrec with hrec | hrec
      · exact h4 rec hrec
      · exact h2 rec hrec
    | [] | [_] | [_, _] | [_, _, _] | [_, _, _, _] | [_, _, _, _, _] | [_, _, _, _, _, _] =>
      exact ⟨[], [], rfl, by simp⟩

/-- One block of seven and a rest (R304). -/
theorem hamDecodeBlocks_append {j : Nat} {blk rest : BitSeq} (hb : blk.length = 7) {data : BitSeq}
    {dg : List DiagRec}
    (h : hamDecodeBlock j (blk.getD 0 false) (blk.getD 1 false) (blk.getD 2 false) (blk.getD 3 false)
      (blk.getD 4 false) (blk.getD 5 false) (blk.getD 6 false) = .ok (data, dg)) :
    hamDecodeBlocks j (blk ++ rest) =
      match hamDecodeBlocks (j + 1) rest with
      | .error e => .error e
      | .ok (out, dg') => .ok (data ++ out, dg ++ dg') := by
  match blk, hb with
  | [c0, c1, c2, c3, c4, c5, c6], _ =>
    have h' : hamDecodeBlock j c0 c1 c2 c3 c4 c5 c6 = .ok (data, dg) := h
    rcases hr : hamDecodeBlocks (j + 1) rest with _ | ⟨_, _⟩ <;>
      simp only [List.cons_append, List.nil_append, hamDecodeBlocks, h', hr]

/-- The encoder on a block of four and a rest (R302). -/
theorem hamEncode_cons (d0 d1 d2 d3 : Bit) (rest : BitSeq) :
    hamEncode (d0 :: d1 :: d2 :: d3 :: rest) = hamCode d0 d1 d2 d3 ++ hamEncode rest := rfl

theorem hamCode_length (d0 d1 d2 d3 : Bit) : (hamCode d0 d1 d2 d3).length = 7 := rfl

/-- The padded operand has a whole number of blocks (R302). -/
theorem hamPad_spec (n : Nat) : hamPad n < 4 ∧ (n + hamPad n) % 4 = 0 := by
  unfold hamPad
  omega

/-- The decoder undoes the encoder on whole blocks (R313). -/
theorem hamDecodeBlocks_hamEncode : ∀ (n : Nat) (s : BitSeq) (j : Nat), s.length = 4 * n →
    hamDecodeBlocks j (hamEncode s) = .ok (s, []) ∧ (hamEncode s).length = 7 * n := by
  intro n
  induction n with
  | zero =>
    intro s j h
    rw [List.length_eq_zero_iff.1 (by omega : s.length = 0)]
    exact ⟨rfl, rfl⟩
  | succ n ih =>
    intro s j h
    match s with
    | d0 :: d1 :: d2 :: d3 :: rest =>
      obtain ⟨h1, h2⟩ := ih rest (j + 1) (by simp at h; omega)
      have hb : hamDecodeBlock j d0 d1 d2 d3 (d0 ^^ d1 ^^ d2) (d1 ^^ d2 ^^ d3) (d0 ^^ d2 ^^ d3) =
          .ok ([d0, d1, d2, d3], []) := by
        rw [hamDecodeBlock_table]
        simp
      constructor
      · rw [hamEncode_cons]
        simp only [hamCode, List.cons_append, List.nil_append, hamDecodeBlocks, hb, h1]
      · rw [hamEncode_cons, List.length_append, hamCode_length, h2]
        omega
    | [] | [_] | [_, _] | [_, _, _] => simp at h; try omega

/-- `HAM.DEC` gives back the bits that `HAM.ENC` wrote, the padding behind them (R133, R313). -/
theorem hamDecode_hamEncode (m : BitSeq) :
    hamDecode (hamEncode (m ++ List.replicate (hamPad m.length) false)) =
      .ok ({}, m ++ List.replicate (hamPad m.length) false, []) := by
  have hp := (hamPad_spec m.length).2
  obtain ⟨h1, h2⟩ := hamDecodeBlocks_hamEncode ((m.length + hamPad m.length) / 4)
    (m ++ List.replicate (hamPad m.length) false) 0 (by simp; omega)
  rw [hamDecode, if_pos (by omega), h1]
  rfl

end Sys2Proof.Machine
end

