-- ==== Sys2Proof/Laws/HuffmanTree.lean ====
section
/-! SUPPORT. What the construction of a Huffman tree does (spec/44_huffman.md R211, R212): the counts, the
queue, the arena, and the tree the arena spells. -/

namespace Sys2Proof.Machine

/-! ## The frequency count (R211) -/

theorem hufFreqs_append (m : SymSeq) (x : Sym) : hufFreqs (m ++ [x]) = hufBump x (hufFreqs m) := by
  simp [hufFreqs]

theorem hufBump_keys (x : Sym) (fs : List (Sym × Nat)) :
    (hufBump x fs).map Prod.fst = if x ∈ fs.map Prod.fst then fs.map Prod.fst else fs.map Prod.fst ++ [x] := by
  induction fs with
  | nil => simp [hufBump]
  | cons p fs ih =>
    obtain ⟨y, f⟩ := p
    by_cases h : x = y
    · simp [hufBump, h]
    · rw [hufBump, if_neg h, List.map_cons, ih, List.map_cons]
      simp only [List.mem_cons, h, false_or]
      split <;> rfl

theorem mem_hufBump {x : Sym} {fs : List (Sym × Nat)} {p : Sym × Nat} (hn : (fs.map Prod.fst).Nodup)
    (hp : p ∈ hufBump x fs) : (p ∈ fs ∧ p.1 ≠ x) ∨ (∃ f, (x, f) ∈ fs ∧ p = (x, f + 1)) ∨
      (x ∉ fs.map Prod.fst ∧ p = (x, 1)) := by
  induction fs with
  | nil => right; right; simpa [hufBump] using hp
  | cons q fs ih =>
    obtain ⟨y, f⟩ := q
    rw [List.map_cons, List.nodup_cons] at hn
    by_cases h : x = y
    · subst h
      simp only [hufBump, if_true, List.mem_cons] at hp
      rcases hp with rfl | hp
      · exact .inr (.inl ⟨f, by simp, rfl⟩)
      · refine .inl ⟨by simp [hp], ?_⟩
        intro h
        exact hn.1 (h ▸ List.mem_map.2 ⟨p, hp, rfl⟩)
    · rw [hufBump, if_neg h, List.mem_cons] at hp
      rcases hp with rfl | hp
      · exact .inl ⟨by simp, Ne.symm h⟩
      · rcases ih hn.2 hp with ⟨h1, h2⟩ | ⟨g, h1, h2⟩ | ⟨h1, h2⟩
        · exact .inl ⟨by simp [h1], h2⟩
        · exact .inr (.inl ⟨g, by simp [h1], h2⟩)
        · refine .inr (.inr ⟨?_, h2⟩)
          rw [List.map_cons, List.mem_cons]
          rintro (h' | h')
          · exact h h'
          · exact h1 h'

/-- A count after one more occurrence of `x`, given that every count before was right. -/
theorem hufBump_counts {m : SymSeq} {fs : List (Sym × Nat)} (hk : ∀ x, x ∈ fs.map Prod.fst ↔ x ∈ m)
    (hn : (fs.map Prod.fst).Nodup) (hc : ∀ p ∈ fs, p.2 = m.count p.1) (x : Sym) :
    ∀ p ∈ hufBump x fs, p.2 = (m ++ [x]).count p.1 := by
  intro p hp
  rw [List.count_append]
  rcases mem_hufBump hn hp with ⟨h1, h2⟩ | ⟨f, h1, rfl⟩ | ⟨h1, rfl⟩
  · have : [x].count p.1 = 0 := List.count_eq_zero.2 (by simpa using h2)
    rw [hc p h1, this]
    rfl
  · have := hc _ h1
    simp only at this
    simp [this]
  · have : m.count x = 0 := List.count_eq_zero.2 (mt (hk x).2 h1)
    simp [this]

/-- The counts of R211: the distinct symbols of the text in the order of their first occurrence, each with
the number of times it occurs. -/
theorem hufFreqs_spec (m : SymSeq) :
    (∀ x, x ∈ (hufFreqs m).map Prod.fst ↔ x ∈ m) ∧ ((hufFreqs m).map Prod.fst).Nodup ∧
    (∀ p ∈ hufFreqs m, p.2 = m.count p.1) ∧
    ((hufFreqs m).map Prod.fst).Pairwise (fun x y => m.idxOf x < m.idxOf y) := by
  induction m using List.reverseRecOn with
  | nil => simp [hufFreqs]
  | append_singleton m x ih =>
    obtain ⟨hk, hn, hc, ho⟩ := ih
    rw [hufFreqs_append]
    have hkeys := hufBump_keys x (hufFreqs m)
    have ho' : ((hufFreqs m).map Prod.fst).Pairwise (fun a b => (m ++ [x]).idxOf a < (m ++ [x]).idxOf b) := by
      refine ho.imp_of_mem ?_
      intro a b ha hb hab
      rw [List.idxOf_append_of_mem ((hk a).1 ha), List.idxOf_append_of_mem ((hk b).1 hb)]
      exact hab
    refine ⟨?_, ?_, hufBump_counts hk hn hc x, ?_⟩
    · intro y
      rw [hkeys]
      by_cases h : x ∈ (hufFreqs m).map Prod.fst
      · rw [if_pos h, hk]
        simp only [List.mem_append, List.mem_singleton]
        constructor
        · exact .inl
        · rintro (h' | rfl)
          · exact h'
          · exact (hk _).1 h
      · rw [if_neg h]
        simp only [List.mem_append, List.mem_singleton, hk]
    · rw [hkeys]
      split
      · exact hn
      · rename_i h
        rw [List.nodup_append]
        refine ⟨hn, by simp, ?_⟩
        intro a ha b hb hab
        simp only [List.mem_singleton] at hb
        exact h (by rw [← hb, ← hab]; exact ha)
    · rw [hkeys]
      split
      · exact ho'
      · rename_i h
        rw [List.pairwise_append]
        refine ⟨ho', by simp, ?_⟩
        intro a ha b hb
        simp only [List.mem_singleton] at hb
        subst hb
        have ham := (hk a).1 ha
        have hbm : b ∉ m := mt (hk b).2 h
        rw [List.idxOf_append_of_mem ham, List.idxOf_append_of_notMem hbm]
        have := List.idxOf_lt_length_iff.2 ham
        omega

theorem mem_hufFreqs {m : SymSeq} {x : Sym} {f : Nat} : (x, f) ∈ hufFreqs m ↔ x ∈ m ∧ f = m.count x := by
  obtain ⟨hk, _, hc, _⟩ := hufFreqs_spec m
  constructor
  · intro h
    exact ⟨(hk x).1 (List.mem_map_of_mem (f := Prod.fst) h), hc _ h⟩
  · rintro ⟨h, rfl⟩
    obtain ⟨⟨y, f⟩, hp, rfl⟩ := List.mem_map.1 ((hk x).2 h)
    have := hc _ hp
    simp only at this
    rw [← this]
    exact hp

theorem hufFreqs_eq_nil {m : SymSeq} : hufFreqs m = [] ↔ m = [] := by
  obtain ⟨hk, _⟩ := hufFreqs_spec m
  constructor
  · intro h
    rw [h] at hk
    exact List.eq_nil_iff_forall_not_mem.2 fun x hx => by simpa using (hk x).2 hx
  · rintro rfl
    rfl

/-! ## The queue (R212) -/

/-- The order of the queue: by weight, and among equals by the order of insertion, which is the order of
the handles (R212). An entry is a handle and a weight. -/
def QueueLt (x y : Nat × Nat) : Prop := x.2 < y.2 ∨ (x.2 = y.2 ∧ x.1 < y.1)

theorem hufInsert_perm (x : Nat × Nat) (q : List (Nat × Nat)) : (hufInsert x q).Perm (x :: q) := by
  induction q with
  | nil => exact .refl _
  | cons y q ih =>
    unfold hufInsert
    split
    · exact (ih.cons y).trans (.swap x y q)
    · exact .refl _

theorem hufInsert_length (x : Nat × Nat) (q : List (Nat × Nat)) : (hufInsert x q).length = q.length + 1 :=
  (hufInsert_perm x q).length_eq

/-- A new handle goes behind every entry of a weight not above its own, so the queue stays in order. -/
theorem hufInsert_sorted {x : Nat × Nat} {q : List (Nat × Nat)} (hq : q.Pairwise QueueLt)
    (hx : ∀ y ∈ q, y.1 < x.1) : (hufInsert x q).Pairwise QueueLt := by
  induction q with
  | nil => simp [hufInsert]
  | cons y q ih =>
    rw [List.pairwise_cons] at hq
    have hxy := hx y (by simp)
    unfold hufInsert
    split
    · rename_i h
      rw [List.pairwise_cons]
      refine ⟨?_, ih hq.2 fun z hz => hx z (by simp [hz])⟩
      intro z hz
      rcases List.mem_cons.1 ((hufInsert_perm x q).mem_iff.1 hz) with rfl | hz
      · rcases Nat.lt_or_eq_of_le h with h | h
        · exact .inl h
        · exact .inr ⟨h, hxy⟩
      · exact hq.1 z hz
    · rename_i h
      rw [List.pairwise_cons]
      refine ⟨?_, List.pairwise_cons.2 hq⟩
      intro z hz
      rcases List.mem_cons.1 hz with rfl | hz
      · exact .inl (by omega)
      · have := hq.1 z hz
        unfold QueueLt at *
        omega

/-- What the leaves bring to the queue: their handles from `h` on, with their weights. -/
def queueEntries (h : Nat) (ns : List Node) : List (Nat × Nat) := (ns.zipIdx h).map fun p => (p.2, p.1.weight)

theorem hufQueue_perm : ∀ (ns : List Node) (h : Nat) (q : List (Nat × Nat)),
    (hufQueue h ns q).Perm (q ++ queueEntries h ns)
  | [], _, q => by simp [hufQueue, queueEntries]
  | n :: ns, h, q => by
    refine (hufQueue_perm ns (h + 1) _).trans ?_
    refine ((hufInsert_perm (h, n.weight) q).append_right _).trans ?_
    simp only [queueEntries, List.zipIdx_cons, List.map_cons]
    exact List.perm_middle.symm

theorem hufQueue_sorted : ∀ (ns : List Node) (h : Nat) (q : List (Nat × Nat)), q.Pairwise QueueLt →
    (∀ y ∈ q, y.1 < h) → (hufQueue h ns q).Pairwise QueueLt
  | [], _, _, hq, _ => hq
  | n :: ns, h, q, hq, hy => by
    refine hufQueue_sorted ns (h + 1) _ (hufInsert_sorted hq hy) ?_
    intro y h'
    rcases List.mem_cons.1 ((hufInsert_perm _ q).mem_iff.1 h') with rfl | h'
    · exact Nat.lt_succ_self _
    · exact (hy y h').trans (Nat.lt_succ_self _)

theorem mem_queueEntries {ns : List Node} {e : Nat × Nat} :
    e ∈ queueEntries 0 ns ↔ e.1 < ns.length ∧ e.2 = nodeWeight ns e.1 := by
  obtain ⟨h, w⟩ := e
  simp only [queueEntries, List.mem_map, Prod.mk.injEq, Prod.exists]
  constructor
  · rintro ⟨n, i, hm, rfl, rfl⟩
    have := List.mem_zipIdx_iff_getElem?.1 hm
    simp only at this
    refine ⟨(List.getElem?_eq_some_iff.1 this).1, ?_⟩
    rw [nodeWeight, this]
  · rintro ⟨hl, rfl⟩
    refine ⟨ns[h], h, ?_, rfl, ?_⟩
    · rw [List.mem_zipIdx_iff_getElem?]
      simp [hl]
    · rw [nodeWeight, List.getElem?_eq_getElem hl]

/-! ## The arena (R212) -/

theorem nodeWeight_append {ns : List Node} {h : Nat} (hl : h < ns.length) (ms : List Node) :
    nodeWeight (ns ++ ms) h = nodeWeight ns h := by
  rw [nodeWeight, List.getElem?_append_left hl, nodeWeight]

theorem isParent_append {ns : List Node} {p : Nat} (hl : p < ns.length) (ms : List Node) (c : Nat) :
    IsParent (ns ++ ms) p c ↔ IsParent ns p c := by
  rw [IsParent, List.getElem?_append_left hl, IsParent]

theorem IsParent.lt_length {ns : List Node} {p c : Nat} (h : IsParent ns p c) : p < ns.length := by
  obtain ⟨_, _, _, h, _⟩ := h
  exact (List.getElem?_eq_some_iff.1 h).1

theorem MergeOk.append {ns : List Node} {p w l r : Nat} (h : MergeOk ns p w l r) (hp : p < ns.length)
    (ms : List Node) : MergeOk (ns ++ ms) p w l r := by
  have hl := h.left_lt.trans hp
  have hr := h.right_lt.trans hp
  refine ⟨h.left_lt, h.right_lt, ?_, ?_, ?_, ?_⟩
  · rw [nodeWeight_append hl, nodeWeight_append hr, h.weight]
  · intro p' hp'
    rw [isParent_append (hp'.trans hp), isParent_append (hp'.trans hp)]
    exact h.fresh p' hp'
  · unfold QueueBefore
    rw [nodeWeight_append hl, nodeWeight_append hr]
    exact h.first
  · intro c hc h1 h2 h3
    unfold QueueBefore
    rw [nodeWeight_append hr, nodeWeight_append (hc.trans hp)]
    refine h.lowest c hc h1 h2 fun p' hp' => ?_
    rw [← isParent_append (hp'.trans hp) ms]
    exact h3 p' hp'

/-- What holds between two merges, of an arena that began with the leaves `ls` and of the queue. -/
structure MergeInv (ls ns : List Node) (q : List (Nat × Nat)) : Prop where
  leafy : ∀ n ∈ ls, ∃ x w, n = Node.leaf x w
  sorted : q.Pairwise QueueLt
  entries : ∀ e ∈ q, e.1 < ns.length ∧ e.2 = nodeWeight ns e.1
  free : ∀ c, c < ns.length → ((∃ e ∈ q, e.1 = c) ↔ ∀ p, ¬ IsParent ns p c)
  leaves : ns.take ls.length = ls
  le_length : ls.length ≤ ns.length
  length : ns.length + q.length = 2 * ls.length
  inner : ∀ p, ls.length ≤ p → p < ns.length → ∃ w l r, ns[p]? = some (.inner w l r) ∧ MergeOk ns p w l r

theorem MergeInv.init {ls : List Node} (h : ∀ n ∈ ls, ∃ x w, n = Node.leaf x w) :
    MergeInv ls ls (hufQueue 0 ls []) := by
  have hp := hufQueue_perm ls 0 []
  rw [List.nil_append] at hp
  refine ⟨h, hufQueue_sorted ls 0 [] .nil (by simp), ?_, ?_, List.take_length, Nat.le_refl _, ?_, ?_⟩
  · intro e he
    exact mem_queueEntries.1 (hp.mem_iff.1 he)
  · intro c hc
    refine ⟨fun _ p hpar => ?_, fun _ => ⟨(c, nodeWeight ls c), hp.mem_iff.2 (mem_queueEntries.2 ⟨hc, rfl⟩), rfl⟩⟩
    obtain ⟨w, l, r, hget, _⟩ := hpar
    obtain ⟨x, f, hx⟩ := h _ (List.mem_of_getElem? hget)
    simp at hx
  · rw [hp.length_eq, queueEntries, List.length_map, List.length_zipIdx]
    omega
  · intro p h1 h2
    omega

/-- One merge. -/
theorem MergeInv.merge {ls ns : List Node} {a b : Nat × Nat} {q : List (Nat × Nat)}
    (h : MergeInv ls ns (a :: b :: q)) :
    MergeInv ls (ns ++ [.inner (a.2 + b.2) a.1 b.1]) (hufInsert (ns.length, a.2 + b.2) q) := by
  obtain ⟨hleaf, hs, he, hf, hl, hle, hlen, hin⟩ := h
  obtain ⟨ha, hs⟩ := List.pairwise_cons.1 hs
  obtain ⟨hb, hs⟩ := List.pairwise_cons.1 hs
  obtain ⟨ha1, ha2⟩ := he a (by simp)
  obtain ⟨hb1, hb2⟩ := he b (by simp)
  have hq : ∀ e ∈ q, e.1 < ns.length ∧ e.2 = nodeWeight ns e.1 := fun e h => he e (by simp [h])
  have hperm := hufInsert_perm (ns.length, a.2 + b.2) q
  have hnew : nodeWeight (ns ++ [.inner (a.2 + b.2) a.1 b.1]) ns.length = a.2 + b.2 := by
    simp [nodeWeight, Node.weight]
  have hpar : ∀ p c, IsParent (ns ++ [.inner (a.2 + b.2) a.1 b.1]) p c ↔
      IsParent ns p c ∨ (p = ns.length ∧ (c = a.1 ∨ c = b.1)) := by
    intro p c
    constructor
    · intro h
      rcases Nat.lt_or_ge p ns.length with hp | hp
      · exact .inl ((isParent_append hp _ c).1 h)
      · have := h.lt_length
        simp only [List.length_append, List.length_singleton] at this
        have hp' : p = ns.length := by omega
        subst hp'
        obtain ⟨w, l, r, hget, hc⟩ := h
        simp only [List.getElem?_concat_length, Option.some.injEq, Node.inner.injEq] at hget
        obtain ⟨_, rfl, rfl⟩ := hget
        exact .inr ⟨rfl, hc⟩
    · rintro (h | ⟨rfl, hc⟩)
      · exact (isParent_append h.lt_length _ c).2 h
      · exact ⟨_, _, _, List.getElem?_concat_length, hc⟩
  refine ⟨hleaf, hufInsert_sorted hs fun y hy => (hq y hy).1, ?_, ?_, ?_, ?_, ?_, ?_⟩
  · intro e h'
    rw [List.length_append, List.length_singleton]
    rcases List.mem_cons.1 (hperm.mem_iff.1 h') with rfl | h'
    · exact ⟨Nat.lt_succ_self _, hnew.symm⟩
    · obtain ⟨h1, h2⟩ := hq e h'
      exact ⟨h1.trans (Nat.lt_succ_self _), by rw [nodeWeight_append h1, h2]⟩
  · intro c hc
    rw [List.length_append, List.length_singleton] at hc
    rcases Nat.lt_or_eq_of_le (Nat.le_of_lt_succ hc) with hc | rfl
    · constructor
      · rintro ⟨e, h', rfl⟩ p hp
        rcases List.mem_cons.1 (hperm.mem_iff.1 h') with rfl | h'
        · exact lt_irrefl _ hc
        · rcases (hpar p e.1).1 hp with hp | ⟨_, hp⟩
          · exact (hf e.1 hc).1 ⟨e, by simp [h'], rfl⟩ p hp
          · rcases hp with hp | hp
            · have := ha e (by simp [h'])
              have h2 := (hq e h').2
              unfold QueueLt at this
              rw [hp] at h2 this
              omega
            · have := hb e h'
              have h2 := (hq e h').2
              unfold QueueLt at this
              rw [hp] at h2 this
              omega
      · intro hno
        obtain ⟨e, h', rfl⟩ := (hf c hc).2 fun p hp => hno p ((hpar p c).2 (.inl hp))
        rcases List.mem_cons.1 h' with rfl | h'
        · exact absurd ((hpar ns.length e.1).2 (.inr ⟨rfl, .inl rfl⟩)) (hno _)
        · rcases List.mem_cons.1 h' with rfl | h'
          · exact absurd ((hpar ns.length e.1).2 (.inr ⟨rfl, .inr rfl⟩)) (hno _)
          · exact ⟨e, hperm.mem_iff.2 (by simp [h']), rfl⟩
    · constructor
      · intro _ p hp
        rcases (hpar p _).1 hp with hp | ⟨_, hp | hp⟩
        · have hpl := hp.lt_length
          obtain ⟨w, l, r, hget, hc'⟩ := hp
          rcases Nat.lt_or_ge p ls.length with hpm | hpm
          · have hx : ls[p]? = some (.inner w l r) := by
              rw [← hl, List.getElem?_take_of_lt hpm, hget]
            obtain ⟨_, _, hx'⟩ := hleaf _ (List.mem_of_getElem? hx)
            simp at hx'
          · obtain ⟨w', l', r', hget', hok⟩ := hin p hpm hpl
            rw [hget] at hget'
            simp only [Option.some.injEq, Node.inner.injEq] at hget'
            obtain ⟨_, rfl, rfl⟩ := hget'
            have h1 := hok.left_lt
            have h2 := hok.right_lt
            omega
        · omega
        · omega
      · intro _
        exact ⟨(ns.length, a.2 + b.2), hperm.mem_iff.2 (by simp), rfl⟩
  · rw [List.take_append_of_le_length hle, hl]
  · rw [List.length_append]
    omega
  · rw [hperm.length_eq]
    simp only [List.length_append, List.length_cons, List.length_nil] at *
    omega
  · intro p hp1 hp2
    rw [List.length_append, List.length_singleton] at hp2
    rcases Nat.lt_or_eq_of_le (Nat.le_of_lt_succ hp2) with hp | rfl
    · obtain ⟨w, l, r, hget, hok⟩ := hin p hp1 hp
      exact ⟨w, l, r, by rw [List.getElem?_append_left hp, hget], hok.append hp _⟩
    · refine ⟨_, _, _, List.getElem?_concat_length, ha1, hb1, ?_, ?_, ?_, ?_⟩
      · rw [nodeWeight_append ha1, nodeWeight_append hb1, ha2, hb2]
      · intro p' hp'
        rw [isParent_append hp', isParent_append hp']
        exact ⟨(hf a.1 ha1).1 ⟨a, by simp, rfl⟩ p', (hf b.1 hb1).1 ⟨b, by simp, rfl⟩ p'⟩
      · unfold QueueBefore
        rw [nodeWeight_append ha1, nodeWeight_append hb1, ← ha2, ← hb2]
        exact ha b (by simp)
      · intro c hc h1 h2 h3
        obtain ⟨e, h', rfl⟩ := (hf c hc).2 fun p hp => h3 p hp.lt_length ((isParent_append hp.lt_length _ c).2 hp)
        rcases List.mem_cons.1 h' with rfl | h'
        · exact absurd rfl h1
        · rcases List.mem_cons.1 h' with rfl | h'
          · exact absurd rfl h2
          · unfold QueueBefore
            rw [nodeWeight_append hb1, nodeWeight_append hc, ← hb2, ← (hq e h').2]
            exact hb e h'

/-- The merge loop with turns enough ends with at most one entry (R212). -/
theorem hufMerge_inv {ls : List Node} : ∀ (k : Nat) (ns : List Node) (q : List (Nat × Nat)),
    MergeInv ls ns q → q.length ≤ k + 1 →
    MergeInv ls (hufMerge k ns q).1 (hufMerge k ns q).2 ∧ (hufMerge k ns q).2.length ≤ 1 ∧
      ((hufMerge k ns q).2 = [] ↔ q = [])
  | 0, ns, q, h, hk => by
    rw [hufMerge]
    exact ⟨h, hk, Iff.rfl⟩
  | k + 1, ns, [], h, hk => ⟨h, by simp [hufMerge], by simp [hufMerge]⟩
  | k + 1, ns, [a], h, hk => ⟨h, by simp [hufMerge], by simp [hufMerge]⟩
  | k + 1, ns, a :: b :: q, h, hk => by
    have hk' : (hufInsert (ns.length, a.2 + b.2) q).length ≤ k + 1 := by
      rw [hufInsert_length]
      simp only [List.length_cons] at hk
      omega
    obtain ⟨h1, h2, h3⟩ := hufMerge_inv k _ _ h.merge hk'
    refine ⟨h1, h2, h3.trans ?_⟩
    constructor
    · intro h
      have := hufInsert_length (ns.length, a.2 + b.2) q
      rw [h] at this
      simp at this
    · intro h
      simp at h

theorem hufLeaves_leafy (fs : List (Sym × Nat)) : ∀ n ∈ hufLeaves fs, ∃ x w, n = Node.leaf x w := by
  intro n hn
  obtain ⟨p, _, rfl⟩ := List.mem_map.1 hn
  exact ⟨_, _, rfl⟩

theorem hufArena_inv (m : SymSeq) :
    MergeInv (hufLeaves (hufFreqs m)) (hufArena m).1 (hufArena m).2 ∧ (hufArena m).2.length ≤ 1 ∧
      ((hufArena m).2 = [] ↔ m = []) := by
  have hq := hufQueue_perm (hufLeaves (hufFreqs m)) 0 []
  have hlen : (hufQueue 0 (hufLeaves (hufFreqs m)) []).length = (hufLeaves (hufFreqs m)).length := by
    rw [hq.length_eq]
    simp [queueEntries]
  obtain ⟨h1, h2, h3⟩ := hufMerge_inv (hufLeaves (hufFreqs m)).length _ _
    (MergeInv.init (hufLeaves_leafy (hufFreqs m))) (by omega)
  refine ⟨h1, h2, h3.trans ?_⟩
  rw [← List.length_eq_zero_iff, hlen, hufLeaves, List.length_map, List.length_eq_zero_iff, hufFreqs_eq_nil]

theorem hufBuild_nodes (m : SymSeq) : (hufBuild m).nodes = (hufArena m).1 := by
  unfold hufBuild
  rcases hufArena m with ⟨ns, _ | ⟨r, q⟩⟩ <;> rfl

theorem hufBuild_root (m : SymSeq) : (hufBuild m).root = (hufArena m).2.head?.map Prod.fst := by
  unfold hufBuild
  rcases hufArena m with ⟨ns, _ | ⟨r, q⟩⟩ <;> rfl

theorem hufBuild_table (m : SymSeq) : (hufBuild m).table =
    match (hufBuild m).root with
    | none => []
    | some r => hufTableOf (hufBuild m).nodes r := by
  rw [hufBuild_root, hufBuild_nodes]
  unfold hufBuild
  rcases hufArena m with ⟨ns, _ | ⟨r, q⟩⟩ <;> rfl

/-- The arena of a text is the one R211 and R212 describe. -/
theorem hufBuild_arena (m : SymSeq) :
    HufArenaOk m ((hufFreqs m).map Prod.fst) (hufBuild m).nodes (hufBuild m).root := by
  obtain ⟨hk, hn, hc, ho⟩ := hufFreqs_spec m
  obtain ⟨hinv, hlen, hnil⟩ := hufArena_inv m
  have hL : (hufLeaves (hufFreqs m)).length = ((hufFreqs m).map Prod.fst).length := by
    simp [hufLeaves]
  have hlv := hinv.leaves
  have hin := hinv.inner
  have hll := hinv.length
  rw [hL] at hlv hin hll
  rw [hufBuild_nodes]
  refine ⟨hk, hn, ho, ?_, ?_, hin, ?_⟩
  · rw [hlv, hufLeaves, List.map_map]
    exact List.map_congr_left fun p hp => by simp [hc p hp]
  · rcases Nat.eq_zero_or_pos (hufArena m).2.length with h | h
    · have hm := hnil.1 (List.length_eq_zero_iff.1 h)
      subst hm
      rfl
    · omega
  · rw [hufBuild_root]
    by_cases hm : m = []
    · rw [if_pos hm, hnil.2 hm]
      rfl
    · rw [if_neg hm]
      match hq : (hufArena m).2 with
      | [] => exact absurd (hnil.1 hq) hm
      | e :: q =>
        rw [hq] at hlen hll
        have hq0 : q = [] := by
          simp only [List.length_cons] at hlen
          exact List.length_eq_zero_iff.1 (by omega)
        subst hq0
        have hpos : 0 < (hufArena m).1.length := by
          have := (hinv.entries e (by rw [hq]; simp)).1
          omega
        simp only [List.head?_cons, Option.map_some, Option.some.injEq]
        have hlast := (hinv.free ((hufArena m).1.length - 1) (by omega)).2 (by
          intro p hp
          have hpl := hp.lt_length
          obtain ⟨w, l, r, hget, hc'⟩ := hp
          rcases Nat.lt_or_ge p ((hufFreqs m).map Prod.fst).length with hpm | hpm
          · have hx : (hufLeaves (hufFreqs m))[p]? = some (.inner w l r) := by
              rw [← hlv, List.getElem?_take_of_lt hpm, hget]
            obtain ⟨_, _, hx'⟩ := hufLeaves_leafy _ _ (List.mem_of_getElem? hx)
            simp at hx'
          · obtain ⟨w', l', r', hget', hok⟩ := hin p hpm hpl
            rw [hget] at hget'
            simp only [Option.some.injEq, Node.inner.injEq] at hget'
            obtain ⟨_, rfl, rfl⟩ := hget'
            have h1 := hok.left_lt
            have h2 := hok.right_lt
            omega)
        rw [hq] at hlast
        obtain ⟨e', he', h'⟩ := hlast
        simp only [List.mem_singleton] at he'
        rw [← h', he']

/-! ## The tree the arena spells -/

/-- A Huffman tree as a value; only the leaves carry a weight. -/
inductive HTree where
  | leaf (x : Sym) (w : Nat)
  | node (l r : HTree)
deriving DecidableEq, Repr

/-- The weight of a tree: the sum of its leaves' weights (R212). -/
def HTree.weight : HTree → Nat
  | .leaf _ w => w
  | .node l r => l.weight + r.weight

/-- The symbols of a tree with their weights, from left to right. -/
def HTree.leaves : HTree → List (Sym × Nat)
  | .leaf x w => [(x, w)]
  | .node l r => l.leaves ++ r.leaves

/-- The symbols of a tree with their paths, from left to right (R213). -/
def HTree.codes : HTree → List (Sym × BitSeq)
  | .leaf x _ => [(x, [])]
  | .node l r => l.codes.map (fun c => (c.1, false :: c.2)) ++ r.codes.map (fun c => (c.1, true :: c.2))

/-- The tree below a handle of the arena; a child's handle is smaller than its parent's (R212). -/
def HTree.At (ns : List Node) : Nat → HTree → Prop
  | h, .leaf x w => ns[h]? = some (.leaf x w)
  | h, .node l r => ∃ a b, ns[h]? = some (.inner (l.weight + r.weight) a b) ∧ a < h ∧ b < h ∧
      HTree.At ns a l ∧ HTree.At ns b r

theorem HTree.At.append {ns : List Node} (ms : List Node) : ∀ {t : HTree} {h : Nat},
    HTree.At ns h t → HTree.At (ns ++ ms) h t
  | .leaf x w, h, ht => by
    rw [HTree.At] at ht ⊢
    rw [List.getElem?_append_left (List.getElem?_eq_some_iff.1 ht).1, ht]
  | .node l r, h, ht => by
    rw [HTree.At] at ht ⊢
    obtain ⟨a, b, hget, ha, hb, hl, hr⟩ := ht
    exact ⟨a, b, by rw [List.getElem?_append_left (List.getElem?_eq_some_iff.1 hget).1, hget], ha, hb,
      hl.append ms, hr.append ms⟩

theorem HTree.At.get {ns : List Node} {t : HTree} {h : Nat} (ht : HTree.At ns h t) :
    ∃ n, ns[h]? = some n ∧ n.weight = t.weight := by
  cases t with
  | leaf x w => exact ⟨_, ht, rfl⟩
  | node l r =>
    obtain ⟨a, b, hget, _⟩ := ht
    exact ⟨_, hget, rfl⟩

/-! ## The merge loop on trees -/

/-- `hufInsert` on trees. -/
def insertTree (t : HTree) : List HTree → List HTree
  | [] => [t]
  | u :: ts => if u.weight ≤ t.weight then u :: insertTree t ts else t :: u :: ts

/-- `hufMerge` on trees. -/
def mergeTrees : Nat → List HTree → List HTree
  | k + 1, a :: b :: ts => mergeTrees k (insertTree (.node a b) ts)
  | _, ts => ts

/-- A queue entry stands for a tree. -/
def EntryFor (ns : List Node) (e : Nat × Nat) (t : HTree) : Prop := HTree.At ns e.1 t ∧ e.2 = t.weight

theorem hufInsert_trees {ns : List Node} {x : Nat × Nat} {t : HTree} (hx : EntryFor ns x t) :
    ∀ {q : List (Nat × Nat)} {ts : List HTree}, List.Forall₂ (EntryFor ns) q ts →
      List.Forall₂ (EntryFor ns) (hufInsert x q) (insertTree t ts)
  | _, _, .nil => .cons hx .nil
  | _, _, .cons h hq => by
    unfold hufInsert insertTree
    rw [h.2, hx.2]
    split
    · exact .cons h (hufInsert_trees hx hq)
    · exact .cons hx (.cons h hq)

theorem hufMerge_trees : ∀ (k : Nat) {ns : List Node} {q : List (Nat × Nat)} {ts : List HTree},
    List.Forall₂ (EntryFor ns) q ts → (∀ e ∈ q, e.1 < ns.length) →
      List.Forall₂ (EntryFor (hufMerge k ns q).1) (hufMerge k ns q).2 (mergeTrees k ts)
  | 0, _, _, _, h, _ => by
    rw [hufMerge, mergeTrees]
    · exact h
    · intro _ _ _ _ h; simp at h
  | k + 1, _, _, _, .nil, _ => .nil
  | k + 1, _, _, _, .cons h .nil, _ => .cons h .nil
  | k + 1, ns, a :: b :: q, ta :: tb :: ts, .cons ha (.cons hb hq), hlt => by
    rw [hufMerge, mergeTrees]
    have key := hufMerge_trees k (ns := ns ++ [.inner (a.2 + b.2) a.1 b.1])
      (q := hufInsert (ns.length, a.2 + b.2) q) (ts := insertTree (.node ta tb) ts)
    refine key (hufInsert_trees ?_ ?_) ?_
    · refine ⟨⟨a.1, b.1, ?_, hlt a (by simp), hlt b (by simp), ha.1.append _, hb.1.append _⟩, ?_⟩
      · rw [List.getElem?_concat_length, ha.2, hb.2]
      · rw [HTree.weight, ha.2, hb.2]
    · exact hq.imp fun e t h => ⟨h.1.append _, h.2⟩
    · intro e he
      rw [List.length_append, List.length_singleton]
      rcases List.mem_cons.1 ((hufInsert_perm _ q).mem_iff.1 he) with rfl | he
      · exact Nat.lt_succ_self _
      · exact (hlt e (by simp [he])).trans (Nat.lt_succ_self _)

theorem insertTree_perm (t : HTree) (ts : List HTree) : (insertTree t ts).Perm (t :: ts) := by
  induction ts with
  | nil => exact .refl _
  | cons u ts ih =>
    unfold insertTree
    split
    · exact (ih.cons u).trans (.swap t u ts)
    · exact .refl _

theorem mergeTrees_leaves : ∀ (k : Nat) (ts : List HTree),
    ((mergeTrees k ts).flatMap HTree.leaves).Perm (ts.flatMap HTree.leaves)
  | 0, ts => by rw [mergeTrees]; intro _ _ _ _ h; simp at h
  | k + 1, [] => .refl _
  | k + 1, [a] => .refl _
  | k + 1, a :: b :: ts => by
    rw [mergeTrees]
    refine (mergeTrees_leaves k _).trans ?_
    refine ((insertTree_perm _ ts).flatMap_right _).trans ?_
    simp [HTree.leaves]

/-- The leaf of a symbol and its count. -/
def leafTree (p : Sym × Nat) : HTree := .leaf p.1 p.2

/-- The leaves put in order, as trees (R212). -/
def sortTrees (fs : List (Sym × Nat)) (ts : List HTree) : List HTree :=
  fs.foldl (fun ts p => insertTree (leafTree p) ts) ts

theorem hufQueue_trees : ∀ (fs : List (Sym × Nat)) (ns : List Node) (h : Nat) {q : List (Nat × Nat)}
    {ts : List HTree}, (∀ i, i < fs.length → ns[h + i]? = (hufLeaves fs)[i]?) →
    List.Forall₂ (EntryFor ns) q ts →
      List.Forall₂ (EntryFor ns) (hufQueue h (hufLeaves fs) q) (sortTrees fs ts)
  | [], _, _, _, _, _, hq => hq
  | p :: fs, ns, h, q, ts, hns, hq => by
    refine hufQueue_trees fs ns (h + 1) ?_ (hufInsert_trees ⟨?_, rfl⟩ hq)
    · intro i hi
      have := hns (i + 1) (by simpa using hi)
      rw [show h + (i + 1) = h + 1 + i by omega] at this
      exact this
    · exact hns 0 (by simp)

theorem sortTrees_perm : ∀ (fs : List (Sym × Nat)) (ts : List HTree),
    (sortTrees fs ts).Perm (fs.map leafTree ++ ts)
  | [], ts => .refl _
  | p :: fs, ts => by
    refine (sortTrees_perm fs _).trans ?_
    refine ((insertTree_perm (leafTree p) ts).append_left _).trans ?_
    exact List.perm_middle

theorem leafTree_leaves (fs : List (Sym × Nat)) : (fs.map leafTree).flatMap HTree.leaves = fs := by
  induction fs with
  | nil => rfl
  | cons p fs ih => rw [List.map_cons, List.flatMap_cons, ih]; rfl

/-- The tree of a text, as a value (R210 to R212). -/
def textTrees (m : SymSeq) : List HTree :=
  mergeTrees (hufFreqs m).length (sortTrees (hufFreqs m) [])

theorem hufArena_trees (m : SymSeq) :
    List.Forall₂ (EntryFor (hufArena m).1) (hufArena m).2 (textTrees m) := by
  have h := hufQueue_trees (hufFreqs m) (hufLeaves (hufFreqs m)) 0 (q := []) (ts := [])
    (fun i _ => by rw [Nat.zero_add]) .nil
  have hk : (hufLeaves (hufFreqs m)).length = (hufFreqs m).length := by simp [hufLeaves]
  have key := hufMerge_trees (hufLeaves (hufFreqs m)).length h
    (fun e he => ((MergeInv.init (hufLeaves_leafy (hufFreqs m))).entries e he).1)
  rw [hk] at key
  unfold hufArena textTrees
  simp only
  rw [hk]
  exact key

theorem textTrees_leaves (m : SymSeq) : ((textTrees m).flatMap HTree.leaves).Perm (hufFreqs m) := by
  refine (mergeTrees_leaves _ _).trans ?_
  refine ((sortTrees_perm (hufFreqs m) []).flatMap_right _).trans ?_
  rw [List.append_nil, leafTree_leaves]

theorem textTrees_nil : textTrees [] = [] := rfl

/-- The tree of a text that is not empty, and its place in the arena. -/
theorem textTree_exists {m : SymSeq} (hm : m ≠ []) : ∃ (T : HTree) (r : Nat), textTrees m = [T] ∧
    (hufBuild m).root = some r ∧ HTree.At (hufBuild m).nodes r T ∧ T.leaves.Perm (hufFreqs m) ∧
    r < (hufBuild m).nodes.length := by
  obtain ⟨hinv, hlen, hnil⟩ := hufArena_inv m
  have h2 := hufArena_trees m
  have hp := textTrees_leaves m
  rw [hufBuild_root, hufBuild_nodes]
  match hq : (hufArena m).2, ht : textTrees m, h2 with
  | [], [], _ => exact absurd (hnil.1 hq) hm
  | e :: q, T :: ts, h2 =>
    rw [hq] at hlen
    rw [ht] at hp
    have hq0 : q = [] := by
      simp only [List.length_cons] at hlen
      exact List.length_eq_zero_iff.1 (by omega)
    subst hq0
    match h2 with
    | .cons h .nil =>
      refine ⟨T, e.1, rfl, rfl, h.1, ?_, (hinv.entries e (by rw [hq]; simp)).1⟩
      simpa using hp

/-! ## Code lengths (R221) -/

/-- The tree with the depths of its leaves. -/
def HTree.depths : Nat → HTree → List (Sym × Nat × Nat)
  | d, .leaf x w => [(x, w, d)]
  | d, .node l r => l.depths (d + 1) ++ r.depths (d + 1)

theorem insertTree_split (t : HTree) (ts : List HTree) (hs : ts.Pairwise fun a b => a.weight ≤ b.weight) :
    ∃ pre post, ts = pre ++ post ∧ insertTree t ts = pre ++ t :: post ∧ (∀ u ∈ pre, u.weight ≤ t.weight) ∧
      ∀ u ∈ post, t.weight < u.weight := by
  induction ts with
  | nil => exact ⟨[], [], rfl, rfl, by simp, by simp⟩
  | cons u ts ih =>
    obtain ⟨h1, h2⟩ := List.pairwise_cons.1 hs
    unfold insertTree
    split
    · rename_i h
      obtain ⟨pre, post, e1, e2, e3, e4⟩ := ih h2
      refine ⟨u :: pre, post, by rw [e1]; rfl, by rw [e2]; rfl, ?_, e4⟩
      intro v hv
      rcases List.mem_cons.1 hv with rfl | hv
      · exact h
      · exact e3 v hv
    · rename_i h
      refine ⟨[], u :: ts, rfl, rfl, by simp, ?_⟩
      intro v hv
      rcases List.mem_cons.1 hv with rfl | hv
      · omega
      · have := h1 v hv
        omega

/-- The depths of the trees of a queue in the tree it is merged into. -/
structure QueueDepths (T : HTree) (E : List (HTree × Nat)) : Prop where
  leaves : (T.depths 0).Perm (E.flatMap fun e => e.1.depths e.2)
  falling : E.Pairwise fun x y => y.2 ≤ x.2
  close : ∀ a b rest, E = a :: b :: rest → ∀ x ∈ E, x.1.weight ≤ a.1.weight + b.1.weight → a.2 ≤ x.2 + 1

theorem mergeTrees_depths : ∀ (k : Nat) (ts : List HTree), ts.length ≤ k + 1 → ts ≠ [] →
    ts.Pairwise (fun a b => a.weight ≤ b.weight) →
    ∃ T E, mergeTrees k ts = [T] ∧ E.map Prod.fst = ts ∧ QueueDepths T E
  | k, [a], _, _, _ => by
    refine ⟨a, [(a, 0)], by cases k <;> rfl, rfl, by simp, by simp, ?_⟩
    intro a b rest h
    simp at h
  | 0, a :: b :: ts, hk, _, _ => by
    simp only [List.length_cons] at hk
    omega
  | k + 1, a :: b :: ts, hk, _, hs => by
    obtain ⟨ha, hs⟩ := List.pairwise_cons.1 hs
    obtain ⟨hb, hs⟩ := List.pairwise_cons.1 hs
    have hab := ha b (by simp)
    obtain ⟨pre, post, e1, e2, e3, e4⟩ := insertTree_split (.node a b) ts hs
    have hw : (HTree.node a b).weight = a.weight + b.weight := rfl
    have hs' : (insertTree (.node a b) ts).Pairwise fun a b => a.weight ≤ b.weight := by
      rw [e2]
      rw [e1, List.pairwise_append] at hs
      rw [List.pairwise_append]
      refine ⟨hs.1, List.pairwise_cons.2 ⟨fun u hu => (e4 u hu).le, hs.2.1⟩, ?_⟩
      intro u hu v hv
      rcases List.mem_cons.1 hv with rfl | hv
      · exact e3 u hu
      · exact hs.2.2 u hu v hv
    have hlen : (insertTree (.node a b) ts).length ≤ k + 1 := by
      rw [(insertTree_perm _ ts).length_eq]
      simp only [List.length_cons] at hk ⊢
      omega
    have hne : insertTree (.node a b) ts ≠ [] := by
      rw [e2]
      simp
    obtain ⟨T, E, h1, h2, hl, hf, hc⟩ := mergeTrees_depths k _ hlen hne hs'
    rw [e2, List.map_eq_append_iff] at h2
    obtain ⟨Epre, E2, rfl, hpre, h2⟩ := h2
    rw [List.map_eq_cons_iff] at h2
    obtain ⟨⟨n, d⟩, Epost, rfl, hn, hpost⟩ := h2
    simp only at hn
    subst hn
    have hpre' : ∀ x ∈ Epre, x.1 ∈ pre := fun x hx => hpre ▸ List.mem_map_of_mem hx
    have hpost' : ∀ x ∈ Epost, x.1 ∈ post := fun x hx => hpost ▸ List.mem_map_of_mem hx
    have hts : ∀ u ∈ pre, u ∈ ts := fun u hu => by rw [e1]; simp [hu]
    rw [List.pairwise_append] at hf
    obtain ⟨hf1, hf2, hf3⟩ := hf
    obtain ⟨hf2, hf4⟩ := List.pairwise_cons.1 hf2
    -- no tree of the new queue is more than one deeper than the merged one
    have hdeep : ∀ x ∈ Epre, x.2 ≤ d + 1 := by
      intro x hx
      match Epre, hx with
      | x0 :: Epre, hx =>
        have h0 : x0.2 ≤ d + 1 := by
          match hr : Epre ++ (HTree.node a b, d) :: Epost with
          | [] => simp at hr
          | x1 :: rest =>
            refine hc x0 x1 rest (by rw [List.cons_append, hr]) (.node a b, d) (by simp) ?_
            rw [hw]
            have hx0 := ha x0.1 (by simp [hts _ (hpre' x0 (by simp))])
            have hx1 : b.weight ≤ x1.1.weight := by
              have hm : x1 ∈ Epre ++ (HTree.node a b, d) :: Epost := by rw [hr]; simp
              rcases List.mem_append.1 hm with hm | hm
              · exact hb _ (hts _ (hpre' x1 (by simp [hm])))
              · rcases List.mem_cons.1 hm with rfl | hm
                · rw [hw]
                  omega
                · exact hb _ (by rw [e1]; simp [hpost' x1 hm])
            omega
        rcases List.mem_cons.1 hx with rfl | hx
        · exact h0
        · exact ((List.pairwise_cons.1 hf1).1 x hx).trans h0
    refine ⟨T, (a, d + 1) :: (b, d + 1) :: (Epre ++ Epost), by rw [mergeTrees]; exact h1, ?_, ?_, ?_, ?_⟩
    · simp [hpre, hpost, e1]
    · refine hl.trans ?_
      simp only [List.flatMap_append, List.flatMap_cons, HTree.depths]
      rw [← List.append_assoc (HTree.depths (d + 1) a)]
      exact List.perm_append_comm_assoc _ _ _
    · rw [List.pairwise_cons, List.pairwise_cons, List.pairwise_append]
      have hall : ∀ x ∈ Epre ++ Epost, x.2 ≤ d + 1 := by
        intro x hx
        rcases List.mem_append.1 hx with hx | hx
        · exact hdeep x hx
        · have := hf2 x hx
          simp only at this
          omega
      refine ⟨?_, hall, hf1, hf4, fun x hx y hy => hf3 x hx y (by simp [hy])⟩
      intro x hx
      rcases List.mem_cons.1 hx with rfl | hx
      · exact Nat.le_refl _
      · exact hall x hx
    · intro a' b' rest heq x hx hle
      simp only [List.cons.injEq] at heq
      obtain ⟨rfl, rfl, rfl⟩ := heq
      simp only at hle ⊢
      rcases List.mem_cons.1 hx with rfl | hx
      · simp
      · rcases List.mem_cons.1 hx with rfl | hx
        · simp
        · rcases List.mem_append.1 hx with hx | hx
          · have := hf3 x hx (.node a b, d) (by simp)
            simp only at this
            omega
          · have := e4 _ (hpost' x hx)
            rw [hw] at this
            omega

theorem insertTree_sorted (t : HTree) {ts : List HTree} (hs : ts.Pairwise fun a b => a.weight ≤ b.weight) :
    (insertTree t ts).Pairwise fun a b => a.weight ≤ b.weight := by
  obtain ⟨pre, post, e1, e2, e3, e4⟩ := insertTree_split t ts hs
  rw [e2]
  rw [e1, List.pairwise_append] at hs
  rw [List.pairwise_append]
  refine ⟨hs.1, List.pairwise_cons.2 ⟨fun u hu => (e4 u hu).le, hs.2.1⟩, ?_⟩
  intro u hu v hv
  rcases List.mem_cons.1 hv with rfl | hv
  · exact e3 u hu
  · exact hs.2.2 u hu v hv

theorem sortTrees_sorted : ∀ (fs : List (Sym × Nat)) (ts : List HTree),
    ts.Pairwise (fun a b => a.weight ≤ b.weight) →
    (sortTrees fs ts).Pairwise fun a b => a.weight ≤ b.weight
  | [], _, h => h
  | p :: fs, _, h => sortTrees_sorted fs _ (insertTree_sorted (leafTree p) h)

/-- In the tree of a text, a leaf of greater weight is not deeper (R221). -/
theorem textTree_depths {m : SymSeq} {T : HTree} (hT : textTrees m = [T]) {p q : Sym × Nat × Nat}
    (hp : p ∈ T.depths 0) (hq : q ∈ T.depths 0) (h : p.2.1 < q.2.1) : q.2.2 ≤ p.2.2 := by
  have hperm := sortTrees_perm (hufFreqs m) []
  have hsort := sortTrees_sorted (hufFreqs m) [] .nil
  by_cases hne : sortTrees (hufFreqs m) [] = []
  · rw [textTrees, hne] at hT
    cases hk : (hufFreqs m).length <;> simp [hk, mergeTrees] at hT
  · obtain ⟨T', E, h1, h2, hl, hf, _⟩ := mergeTrees_depths (hufFreqs m).length _
      (by rw [hperm.length_eq]; simp) hne hsort
    rw [textTrees] at hT
    rw [hT, List.cons.injEq] at h1
    obtain ⟨rfl, _⟩ := h1
    have hleaf : ∀ e ∈ E, ∃ x f, e.1 = .leaf x f := by
      intro e he
      have : e.1 ∈ sortTrees (hufFreqs m) [] := h2 ▸ List.mem_map_of_mem he
      have := hperm.mem_iff.1 this
      simp only [List.append_nil, List.mem_map] at this
      obtain ⟨p, _, hp⟩ := this
      exact ⟨p.1, p.2, hp.symm⟩
    rw [← h2, List.pairwise_map] at hsort
    have hdown : E.Pairwise fun x y => x.1.weight < y.1.weight → y.2 ≤ x.2 := hf.imp (by intro _ _ h3 _; exact h3)
    have hup : E.Pairwise (flip fun x y => x.1.weight < y.1.weight → y.2 ≤ x.2) :=
      hsort.imp (by intro _ _ h3 h4; exact absurd h4 (Nat.not_lt.2 h3))
    have hall := List.Pairwise.forall_of_forall_of_flip (fun x _ _ => Nat.le_refl _) hdown hup
    obtain ⟨e, he, hpe⟩ := List.mem_flatMap.1 (hl.mem_iff.1 hp)
    obtain ⟨e', he', hqe⟩ := List.mem_flatMap.1 (hl.mem_iff.1 hq)
    obtain ⟨x, f, hx⟩ := hleaf e he
    obtain ⟨y, g, hy⟩ := hleaf e' he'
    rw [hx, HTree.depths, List.mem_singleton] at hpe
    rw [hy, HTree.depths, List.mem_singleton] at hqe
    subst hpe
    subst hqe
    have := hall he he'
    rw [hx, hy] at this
    exact this h

theorem HTree.depths_leaves (t : HTree) : ∀ d, (t.depths d).map (fun p => (p.1, p.2.1)) = t.leaves := by
  induction t with
  | leaf x w => intro _; rfl
  | node l r ihl ihr =>
    intro d
    rw [HTree.depths, List.map_append, ihl, ihr, HTree.leaves]

theorem HTree.depths_codes (t : HTree) : ∀ d, (t.depths d).map (fun p => (p.1, p.2.2)) =
    t.codes.map fun c => (c.1, d + c.2.length) := by
  induction t with
  | leaf x w => intro d; rfl
  | node l r ihl ihr =>
    intro d
    rw [HTree.depths, List.map_append, ihl, ihr, HTree.codes, List.map_append, List.map_map, List.map_map]
    congr 1 <;>
    · refine List.map_congr_left fun c _ => ?_
      simp only [Function.comp_apply, List.length_cons, Prod.mk.injEq, true_and]
      omega

theorem HTree.codes_keys (t : HTree) : t.codes.map Prod.fst = t.leaves.map Prod.fst := by
  rw [← t.depths_leaves 0, List.map_map]
  have := congrArg (List.map Prod.fst) (t.depths_codes 0)
  rw [List.map_map, List.map_map] at this
  exact this.symm

end Sys2Proof.Machine
end

