-- ==== Sys2Proof/Laws/Huffman.lean ====
section
/-! SUPPORT. What the table, the encoder and the walk of the Huffman unit do (spec/44_huffman.md R213 to
R222), over the tree that the arena of a text spells. -/

namespace Sys2Proof.Machine

/-! ## The codes of a tree -/

theorem HTree.codes_prefixFree (t : HTree) :
    t.codes.Pairwise fun c d => ¬ c.2 <+: d.2 ∧ ¬ d.2 <+: c.2 := by
  induction t with
  | leaf x w => simp [HTree.codes]
  | node l r ihl ihr =>
    rw [HTree.codes, List.pairwise_append, List.pairwise_map, List.pairwise_map]
    refine ⟨ihl.imp fun h => ?_, ihr.imp fun h => ?_, ?_⟩
    · simpa [List.cons_prefix_cons] using h
    · simpa [List.cons_prefix_cons] using h
    · intro c hc d hd
      obtain ⟨c', _, rfl⟩ := List.mem_map.1 hc
      obtain ⟨d', _, rfl⟩ := List.mem_map.1 hd
      simp [List.cons_prefix_cons]

/-- Any bits go past a leaf, or stop on the way to one: every inner node has both children (R216). -/
theorem HTree.codes_cover : ∀ (t : HTree) (bits : BitSeq),
    (∃ c ∈ t.codes, c.2 <+: bits) ∨ ∃ c ∈ t.codes, ∃ b p, c.2 = bits ++ b :: p
  | .leaf x w, bits => .inl ⟨(x, []), by simp [HTree.codes], List.nil_prefix⟩
  | .node l r, [] => by
    right
    have : ∃ c, c ∈ l.codes := by
      rcases l.codes_cover [] with ⟨c, hc, _⟩ | ⟨c, hc, _⟩ <;> exact ⟨c, hc⟩
    obtain ⟨c, hc⟩ := this
    exact ⟨(c.1, false :: c.2), by rw [HTree.codes]; simp [hc], false, c.2, rfl⟩
  | .node l r, false :: bits => by
    rcases l.codes_cover bits with ⟨c, hc, h⟩ | ⟨c, hc, b, p, h⟩
    · exact .inl ⟨(c.1, false :: c.2), by rw [HTree.codes]; simp [hc], by simpa [List.cons_prefix_cons] using h⟩
    · exact .inr ⟨(c.1, false :: c.2), by rw [HTree.codes]; simp [hc], b, p, by simp [h]⟩
  | .node l r, true :: bits => by
    rcases r.codes_cover bits with ⟨c, hc, h⟩ | ⟨c, hc, b, p, h⟩
    · exact .inl ⟨(c.1, true :: c.2), by rw [HTree.codes]; simp [hc], by simpa [List.cons_prefix_cons] using h⟩
    · exact .inr ⟨(c.1, true :: c.2), by rw [HTree.codes]; simp [hc], b, p, by simp [h]⟩

/-! ## The table (R213) -/

theorem tableGet_tableSet (x y : Sym) (p : BitSeq) (t : List (Sym × BitSeq)) :
    tableGet y (tableSet x p t) = if y = x then some p else tableGet y t := by
  induction t with
  | nil => simp [tableSet, tableGet]
  | cons e t ih =>
    obtain ⟨z, q⟩ := e
    unfold tableSet
    split
    · simp [tableGet]
    · split
      · rename_i h
        subst h
        simp only [tableGet]
        split <;> rfl
      · rename_i h
        simp only [tableGet, ih]
        by_cases hy : y = z
        · subst hy
          rw [if_pos rfl, if_neg (Ne.symm h), if_pos rfl]
        · rw [if_neg hy, if_neg hy]

/-- Codes put into a table one after the other. -/
def tableAll (cs : List (Sym × BitSeq)) (t : List (Sym × BitSeq)) : List (Sym × BitSeq) :=
  cs.foldl (fun t c => tableSet c.1 c.2 t) t

theorem tableGet_tableAll {cs : List (Sym × BitSeq)} (hn : (cs.map Prod.fst).Nodup) (x : Sym) (p : BitSeq) :
    ∀ t, tableGet x (tableAll cs t) = some p ↔ (x, p) ∈ cs ∨ (x ∉ cs.map Prod.fst ∧ tableGet x t = some p) := by
  induction cs with
  | nil => intro t; simp [tableAll]
  | cons c cs ih =>
    obtain ⟨y, q⟩ := c
    intro t
    rw [List.map_cons, List.nodup_cons] at hn
    have := ih hn.2 (tableSet y q t)
    rw [tableAll, List.foldl_cons, ← tableAll, this, tableGet_tableSet, List.map_cons, List.mem_cons,
      List.mem_cons]
    by_cases h : x = y
    · subst h
      have hx : (x, p) ∉ cs := fun h => hn.1 (List.mem_map.2 ⟨_, h, rfl⟩)
      simp only [hx, false_or, hn.1, not_false_eq_true, true_and, if_true, Option.some.injEq,
        not_true_eq_false, false_and, or_false, Prod.mk.injEq]
      exact eq_comm
    · simp only [Prod.mk.injEq, h, false_and, false_or, if_false]

theorem hufAssign_codes {ns : List Node} : ∀ (t : HTree) (d h : Nat) (path : BitSeq) (tbl : List (Sym × BitSeq)),
    HTree.At ns h t → h < d → hufAssign ns d h path tbl = tableAll (t.codes.map fun c => (c.1, path ++ c.2)) tbl
  | .leaf x w, d + 1, h, path, tbl, ht, _ => by
    rw [HTree.At] at ht
    rw [hufAssign, ht]
    simp [HTree.codes, tableAll]
  | .node l r, d + 1, h, path, tbl, ht, hd => by
    obtain ⟨a, b, hget, ha, hb, hl, hr⟩ := ht
    rw [hufAssign, hget]
    simp only
    rw [hufAssign_codes l d a _ _ hl (by omega), hufAssign_codes r d b _ _ hr (by omega)]
    simp [HTree.codes, tableAll, List.foldl_append, List.foldl_map]

/-- The codes of a tree as the table holds them: a lone leaf has the code `0` (R213, R219). -/
def HTree.tableCodes : HTree → List (Sym × BitSeq)
  | .leaf x _ => [(x, [false])]
  | .node l r => (HTree.node l r).codes

theorem HTree.tableCodes_keys (t : HTree) : t.tableCodes.map Prod.fst = t.leaves.map Prod.fst := by
  cases t with
  | leaf x w => rfl
  | node l r => exact HTree.codes_keys _

theorem HTree.tableCodes_ne_nil {t : HTree} {c : Sym × BitSeq} (hc : c ∈ t.tableCodes) : c.2 ≠ [] := by
  cases t with
  | leaf x w =>
    rw [HTree.tableCodes, List.mem_singleton] at hc
    subst hc
    simp
  | node l r =>
    rw [HTree.tableCodes, HTree.codes, List.mem_append, List.mem_map, List.mem_map] at hc
    rcases hc with ⟨d, _, rfl⟩ | ⟨d, _, rfl⟩ <;> simp

theorem HTree.tableCodes_prefixFree (t : HTree) :
    t.tableCodes.Pairwise fun c d => ¬ c.2 <+: d.2 ∧ ¬ d.2 <+: c.2 := by
  cases t with
  | leaf x w => simp [HTree.tableCodes]
  | node l r => exact HTree.codes_prefixFree _

theorem hufTableOf_codes {ns : List Node} {r : Nat} {T : HTree} (hT : HTree.At ns r T) (hr : r < ns.length)
    (hn : (T.leaves.map Prod.fst).Nodup) (x : Sym) (p : BitSeq) :
    tableGet x (hufTableOf ns r) = some p ↔ (x, p) ∈ T.tableCodes := by
  cases T with
  | leaf y w =>
    rw [HTree.At] at hT
    rw [hufTableOf, hT]
    simp only [tableGet, HTree.tableCodes, List.mem_singleton, Prod.mk.injEq]
    split
    · rename_i h
      simp only [h, Option.some.injEq, true_and]
      exact eq_comm
    · rename_i h
      simp [h]
  | node l r' =>
    have hT' := hT
    obtain ⟨a, b, hget, _⟩ := hT'
    rw [hufTableOf, hget]
    simp only
    rw [hufAssign_codes _ _ _ _ _ hT hr, tableGet_tableAll]
    · simp [tableGet, HTree.tableCodes]
    · simp only [List.map_map, Function.comp_def]
      rw [← HTree.codes_keys] at hn
      exact hn

/-- The tree of a text: where it stands in the arena, its leaves, and its codes in the table. -/
structure TreeOf (m : SymSeq) (T : HTree) (r : Nat) : Prop where
  trees : textTrees m = [T]
  root : (hufBuild m).root = some r
  at_root : HTree.At (hufBuild m).nodes r T
  leaves : T.leaves.Perm (hufFreqs m)
  nodup : (T.leaves.map Prod.fst).Nodup
  table : ∀ x p, tableGet x (hufBuild m).table = some p ↔ (x, p) ∈ T.tableCodes

theorem treeOf_exists {m : SymSeq} (hm : m ≠ []) : ∃ T r, TreeOf m T r := by
  obtain ⟨T, r, h1, h2, h3, h4, h5⟩ := textTree_exists hm
  have hn : (T.leaves.map Prod.fst).Nodup := (h4.map Prod.fst).nodup_iff.2 (hufFreqs_spec m).2.1
  refine ⟨T, r, h1, h2, h3, h4, hn, ?_⟩
  intro x p
  rw [hufBuild_table, h2]
  exact hufTableOf_codes h3 h5 hn x p

theorem TreeOf.mem_iff {m : SymSeq} {T : HTree} {r : Nat} (h : TreeOf m T r) (x : Sym) :
    (∃ p, (x, p) ∈ T.tableCodes) ↔ x ∈ m := by
  rw [← (hufFreqs_spec m).1 x, ← (h.leaves.map Prod.fst).mem_iff, ← T.tableCodes_keys, List.mem_map]
  constructor
  · rintro ⟨p, hp⟩
    exact ⟨_, hp, rfl⟩
  · rintro ⟨⟨y, p⟩, hp, rfl⟩
    exact ⟨p, hp⟩

/-- The table has a code for the symbols of the text and no other (R213). -/
theorem hufBuild_table_mem (m : SymSeq) (x : Sym) :
    (∃ p, tableGet x (hufBuild m).table = some p) ↔ x ∈ m := by
  by_cases hm : m = []
  · subst hm
    simp [hufBuild, hufArena, hufFreqs, hufLeaves, hufQueue, hufMerge, tableGet]
  · obtain ⟨T, r, h⟩ := treeOf_exists hm
    rw [← h.mem_iff x]
    exact exists_congr fun p => h.table x p

/-- The code of a symbol, `HUF.TABLE[x]`; empty where the table has none. -/
def codeOf (t : List (Sym × BitSeq)) (x : Sym) : BitSeq := (tableGet x t).getD []

theorem hufEncode_codes (t : List (Sym × BitSeq)) : ∀ (m : SymSeq), (∀ x ∈ m, ∃ p, tableGet x t = some p) →
    hufEncode t m = some (m.flatMap (codeOf t))
  | [], _ => rfl
  | x :: m, h => by
    obtain ⟨p, hp⟩ := h x (by simp)
    rw [hufEncode, hp, hufEncode_codes t m fun y hy => h y (by simp [hy])]
    simp [codeOf, hp]

/-- The encoder never misses the table it has just built (R215). -/
theorem hufEncode_build (m : SymSeq) :
    hufEncode (hufBuild m).table m = some (m.flatMap (codeOf (hufBuild m).table)) :=
  hufEncode_codes _ m fun x hx => (hufBuild_table_mem m x).2 hx

/-! ## Paths through the arena (R213) -/

theorem followPath_code {ns : List Node} : ∀ (t : HTree) (h : Nat) (x : Sym) (p : BitSeq), HTree.At ns h t →
    (x, p) ∈ t.codes → ∃ w, followPath ns h p = some (.leaf x w) ∧ (x, w) ∈ t.leaves
  | .leaf y w, h, x, p, ht, hc => by
    rw [HTree.codes, List.mem_singleton, Prod.mk.injEq] at hc
    obtain ⟨rfl, rfl⟩ := hc
    exact ⟨w, ht, by simp [HTree.leaves]⟩
  | .node l r, h, x, p, ht, hc => by
    obtain ⟨a, b, hget, _, _, hl, hr⟩ := ht
    rw [HTree.codes, List.mem_append, List.mem_map, List.mem_map] at hc
    rcases hc with ⟨c, hc, he⟩ | ⟨c, hc, he⟩
    · obtain ⟨rfl, rfl⟩ := Prod.mk.inj he
      obtain ⟨w, h1, h2⟩ := followPath_code l a _ _ hl hc
      refine ⟨w, ?_, by simp [HTree.leaves, h2]⟩
      rw [followPath, hget]
      exact h1
    · obtain ⟨rfl, rfl⟩ := Prod.mk.inj he
      obtain ⟨w, h1, h2⟩ := followPath_code r b _ _ hr hc
      refine ⟨w, ?_, by simp [HTree.leaves, h2]⟩
      rw [followPath, hget]
      exact h1

theorem code_of_followPath {ns : List Node} : ∀ (t : HTree) (h : Nat) (x : Sym) (w : Nat) (p : BitSeq),
    HTree.At ns h t → followPath ns h p = some (.leaf x w) → (x, p) ∈ t.codes
  | .leaf y v, h, x, w, [], ht, hp => by
    rw [HTree.At] at ht
    rw [followPath, ht] at hp
    simp only [Option.some.injEq, Node.leaf.injEq] at hp
    simp [HTree.codes, hp.1]
  | .leaf y v, h, x, w, b :: p, ht, hp => by
    rw [HTree.At] at ht
    rw [followPath, ht] at hp
    simp at hp
  | .node l r, h, x, w, [], ht, hp => by
    obtain ⟨a, b, hget, _⟩ := ht
    rw [followPath, hget] at hp
    simp at hp
  | .node l r, h, x, w, false :: p, ht, hp => by
    obtain ⟨a, b, hget, _, _, hl, _⟩ := ht
    rw [followPath, hget] at hp
    have := code_of_followPath l a x w p hl (by simpa using hp)
    simp [HTree.codes, this]
  | .node l r, h, x, w, true :: p, ht, hp => by
    obtain ⟨a, b, hget, _, _, _, hr⟩ := ht
    rw [followPath, hget] at hp
    have := code_of_followPath r b x w p hr (by simpa using hp)
    simp [HTree.codes, this]

/-! ## The walk (R216) -/

/-- A symbol put before what the rest of the walk gives. -/
def walkEmit (x : Sym) : Option (Except Cause SymSeq) → Option (Except Cause SymSeq)
  | none => none
  | some (.error e) => some (.error e)
  | some (.ok xs) => some (.ok (x :: xs))

theorem hufWalk_step {ns : List Node} {root start ip cur w l r : Nat} (b : Bit) (rest : BitSeq)
    (hcur : ns[cur]? = some (.inner w l r)) :
    hufWalk ns root start ip cur (b :: rest) =
      match ns[if b then r else l]? with
      | some (.leaf x _) => walkEmit x (hufWalk ns root (if cur = root then ip else start) (ip + 1) root rest)
      | some (.inner ..) =>
        hufWalk ns root (if cur = root then ip else start) (ip + 1) (if b then r else l) rest
      | none => none := by
  rw [hufWalk, hcur]
  simp only
  cases hn : ns[if b = true then r else l]? with
  | none => rfl
  | some n =>
    cases n with
    | leaf x v =>
      simp only
      rcases hufWalk ns root (if cur = root then ip else start) (ip + 1) root rest with _ | _ | _ <;> rfl
    | inner v l' r' => rfl

/-- At the root the mark of the codeword's start does not matter. -/
theorem hufWalk_root (ns : List Node) (root start start' ip : Nat) (bits : BitSeq) :
    hufWalk ns root start ip root bits = hufWalk ns root start' ip root bits := by
  cases bits with
  | nil => simp [hufWalk]
  | cons b rest => simp [hufWalk]

/-- The walk along the rest of a code, which ends at its leaf and starts again at the root. -/
theorem hufWalk_code {ns : List Node} {root : Nat} (rest : BitSeq) : ∀ (t : HTree) (h start ip : Nat) (x : Sym)
    (p : BitSeq), HTree.At ns h t → (x, p) ∈ t.codes → p ≠ [] →
    hufWalk ns root start ip h (p ++ rest) = walkEmit x (hufWalk ns root 0 (ip + p.length) root rest)
  | .leaf y w, h, start, ip, x, p, _, hc, hp => by
    rw [HTree.codes, List.mem_singleton, Prod.mk.injEq] at hc
    exact absurd hc.2 hp
  | .node l r, h, start, ip, x, p, ht, hc, _ => by
    obtain ⟨a, b, hget, _, _, hl, hr⟩ := ht
    have side : ∀ (u : HTree) (c : Nat) (d : Bit) (q : BitSeq), (if d then b else a) = c → HTree.At ns c u →
        (∀ (start ip : Nat) (x : Sym) (p : BitSeq), HTree.At ns c u → (x, p) ∈ u.codes → p ≠ [] →
          hufWalk ns root start ip c (p ++ rest) = walkEmit x (hufWalk ns root 0 (ip + p.length) root rest)) →
        (x, q) ∈ u.codes →
        hufWalk ns root start ip h (d :: q ++ rest) =
          walkEmit x (hufWalk ns root 0 (ip + (d :: q).length) root rest) := by
      intro u c d q hd hu ih hq
      rw [List.cons_append, hufWalk_step _ _ hget, hd]
      cases u with
      | leaf y w =>
        have hu' := hu
        rw [HTree.At] at hu'
        rw [HTree.codes, List.mem_singleton, Prod.mk.injEq] at hq
        obtain ⟨rfl, rfl⟩ := hq
        rw [hu']
        simp only [List.nil_append, List.length_cons, List.length_nil, Nat.zero_add]
        rw [hufWalk_root _ _ _ 0]
      | node l' r' =>
        have hu' := hu
        obtain ⟨a', b', hget', _⟩ := hu'
        rw [hget']
        simp only
        have hne : q ≠ [] := by
          rw [HTree.codes, List.mem_append, List.mem_map, List.mem_map] at hq
          rcases hq with ⟨e, _, he⟩ | ⟨e, _, he⟩ <;>
          · rw [← (Prod.mk.inj he).2]
            simp
        rw [ih _ _ _ _ hu hq hne, List.length_cons]
        congr 2
        omega
    rw [HTree.codes, List.mem_append, List.mem_map, List.mem_map] at hc
    rcases hc with ⟨c, hc, he⟩ | ⟨c, hc, he⟩
    · obtain ⟨rfl, rfl⟩ := Prod.mk.inj he
      exact side l a false c.2 rfl hl (fun start ip x p => hufWalk_code rest l a start ip x p) hc
    · obtain ⟨rfl, rfl⟩ := Prod.mk.inj he
      exact side r b true c.2 rfl hr (fun start ip x p => hufWalk_code rest r b start ip x p) hc

/-- The walk along a proper part of a code ends on the way to the leaf. -/
theorem hufWalk_part {ns : List Node} {root : Nat} : ∀ (t : HTree) (h start ip : Nat) (c : Sym × BitSeq)
    (p : BitSeq) (b : Bit) (q : BitSeq), HTree.At ns h t → h ≤ root → c ∈ t.codes → c.2 = p ++ b :: q →
    hufWalk ns root start ip h p =
      some (if p = [] ∧ h = root then .ok [] else .error (.truncated (if h = root then ip else start)))
  | .leaf y w, h, start, ip, c, p, b, q, _, _, hc, hp => by
    rw [HTree.codes, List.mem_singleton] at hc
    rw [hc] at hp
    simp at hp
  | .node l r, h, start, ip, c, [], b, q, _, _, _, _ => by
    rw [hufWalk]
    by_cases hr : h = root <;> simp [hr]
  | .node l r, h, start, ip, c, d :: p, b, q, ht, hroot, hc, hp => by
    obtain ⟨a', b', hget, ha, hb, hl, hr⟩ := ht
    have side : ∀ (u : HTree) (k : Nat), (if d then b' else a') = k → k < h → HTree.At ns k u →
        (∀ (start ip : Nat) (c : Sym × BitSeq), c ∈ u.codes → c.2 = p ++ b :: q →
          hufWalk ns root start ip k p =
            some (if p = [] ∧ k = root then .ok [] else .error (.truncated (if k = root then ip else start)))) →
        (∃ e ∈ u.codes, e.2 = p ++ b :: q) →
        hufWalk ns root start ip h (d :: p) =
          some (if d :: p = [] ∧ h = root then .ok [] else
            .error (.truncated (if h = root then ip else start))) := by
      intro u k hd hk hu ih ⟨e, he, heq⟩
      rw [hufWalk_step _ _ hget, hd]
      cases u with
      | leaf y w =>
        rw [HTree.codes, List.mem_singleton] at he
        rw [he] at heq
        simp at heq
      | node l' r' =>
        have hu' := hu
        obtain ⟨_, _, hget', _⟩ := hu'
        rw [hget']
        simp only
        have hkr : k ≠ root := by omega
        rw [ih _ _ e he heq]
        simp [hkr]
    rw [HTree.codes, List.mem_append, List.mem_map, List.mem_map] at hc
    rcases hc with ⟨e, he, rfl⟩ | ⟨e, he, rfl⟩
    · simp only [List.cons_append, List.cons.injEq] at hp
      obtain ⟨rfl, hp⟩ := hp
      exact side l a' rfl ha hl
        (fun start ip c hc hp => hufWalk_part l a' start ip c p b q hl (by omega) hc hp) ⟨e, he, hp⟩
    · simp only [List.cons_append, List.cons.injEq] at hp
      obtain ⟨rfl, hp⟩ := hp
      exact side r b' rfl hb hr
        (fun start ip c hc hp => hufWalk_part r b' start ip c p b q hr (by omega) hc hp) ⟨e, he, hp⟩

/-- The walk along whole codes, then a proper part of one (R216). -/
theorem hufWalk_codes {ns : List Node} {root : Nat} {l r : HTree} (hT : HTree.At ns root (.node l r))
    {tail : BitSeq} (htail : ∃ c ∈ (HTree.node l r).codes, ∃ b q, c.2 = tail ++ b :: q) :
    ∀ (cs : List (Sym × BitSeq)) (ip : Nat), (∀ c ∈ cs, c ∈ (HTree.node l r).codes) →
    hufWalk ns root 0 ip root (cs.flatMap Prod.snd ++ tail) =
      some (if tail = [] then .ok (cs.map Prod.fst) else
        .error (.truncated (ip + (cs.flatMap Prod.snd).length)))
  | [], ip, _ => by
    obtain ⟨c, hc, b, q, hq⟩ := htail
    rw [List.flatMap_nil, List.nil_append, hufWalk_part _ _ _ _ c tail b q hT (Nat.le_refl _) hc hq]
    by_cases h : tail = [] <;> simp [h]
  | c :: cs, ip, hcs => by
    have hc : (c.1, c.2) ∈ (HTree.node l r).codes := hcs c (by simp)
    have hne : c.2 ≠ [] := HTree.tableCodes_ne_nil (t := .node l r) hc
    rw [List.flatMap_cons, List.append_assoc, hufWalk_code _ _ _ _ _ c.1 c.2 hT hc hne,
      hufWalk_codes hT htail cs _ fun d hd => hcs d (by simp [hd])]
    by_cases h : tail = []
    · simp [h, walkEmit]
    · simp only [h, if_false, walkEmit, List.length_append]
      congr 3
      omega

/-- Every operand is whole codes, then a proper part of one, which may be empty (R216). -/
theorem bits_codes {l r : HTree} : ∀ (n : Nat) (bits : BitSeq), bits.length ≤ n →
    ∃ (cs : List (Sym × BitSeq)) (tail : BitSeq), bits = cs.flatMap Prod.snd ++ tail ∧
      (∀ c ∈ cs, c ∈ (HTree.node l r).codes) ∧ ∃ c ∈ (HTree.node l r).codes, ∃ b q, c.2 = tail ++ b :: q
  | n, bits, hn => by
    rcases (HTree.node l r).codes_cover bits with ⟨c, hc, rest, rfl⟩ | h
    · have hne : c.2 ≠ [] := HTree.tableCodes_ne_nil (t := .node l r) hc
      have hpos := List.length_pos_iff.2 hne
      rw [List.length_append] at hn
      match n, hn with
      | 0, hn => omega
      | n + 1, hn =>
        obtain ⟨cs, tail, rfl, h2, h3⟩ := bits_codes (l := l) (r := r) n rest (by omega)
        refine ⟨c :: cs, tail, by simp, ?_, h3⟩
        intro d hd
        rcases List.mem_cons.1 hd with rfl | hd
        · exact hc
        · exact h2 d hd
    · exact ⟨[], bits, by simp, by simp, h⟩

/-- The walk under a lone leaf (R216, R219): zeros alone give as many symbols. -/
theorem hufWalkLeaf_zeros (x : Sym) : ∀ (n i : Nat),
    hufWalkLeaf x i (List.replicate n false) = .ok (List.replicate n x)
  | 0, _ => rfl
  | n + 1, i => by rw [List.replicate_succ, hufWalkLeaf, hufWalkLeaf_zeros x n]; rfl

/-- The walk under a lone leaf (R216, R219): the first one ends it. -/
theorem hufWalkLeaf_one (x : Sym) (rest : BitSeq) : ∀ (n i : Nat),
    hufWalkLeaf x i (List.replicate n false ++ true :: rest) = .error (.noSuchCode (i + n))
  | 0, _ => rfl
  | n + 1, i => by
    rw [List.replicate_succ, List.cons_append, hufWalkLeaf, hufWalkLeaf_one x rest n]
    simp only [Except.error.injEq, Cause.noSuchCode.injEq]
    omega

/-- Bits are all zero or have a first one. -/
theorem zeros_or_one : ∀ bits : BitSeq, (∃ n, bits = List.replicate n false) ∨
    ∃ n rest, bits = List.replicate n false ++ true :: rest
  | [] => .inl ⟨0, rfl⟩
  | true :: rest => .inr ⟨0, rest, rfl⟩
  | false :: bits => by
    rcases zeros_or_one bits with ⟨n, rfl⟩ | ⟨n, rest, rfl⟩
    · exact .inl ⟨n + 1, rfl⟩
    · exact .inr ⟨n + 1, rest, rfl⟩

/-- The decoder under the tree of a text never misses a node, and it fails in R216's two ways only. -/
theorem hufDecode_build (m : SymSeq) (bits : BitSeq) : ∃ r,
    hufDecode (hufBuild m).nodes (hufBuild m).root bits = some r ∧
      ∀ c, r = .error c → (∃ i, c = .truncated i) ∨ ∃ i, c = .noSuchCode i := by
  by_cases hm : m = []
  · subst hm
    by_cases hb : bits = []
    · exact ⟨.ok [], by simp [hufBuild, hufArena, hufFreqs, hufLeaves, hufQueue, hufMerge, hufDecode, hb],
        by simp⟩
    · exact ⟨.error (.noSuchCode 0),
        by simp [hufBuild, hufArena, hufFreqs, hufLeaves, hufQueue, hufMerge, hufDecode, hb],
        fun c hc => .inr ⟨0, (Except.error.inj hc).symm⟩⟩
  · obtain ⟨T, r, h⟩ := treeOf_exists hm
    have hat := h.at_root
    rw [h.root]
    cases T with
    | leaf x w =>
      have hat' := hat
      rw [HTree.At] at hat'
      rw [hufDecode, hat']
      simp only
      rcases zeros_or_one bits with ⟨n, rfl⟩ | ⟨n, rest, rfl⟩
      · exact ⟨_, rfl, by rw [hufWalkLeaf_zeros]; simp⟩
      · refine ⟨_, rfl, ?_⟩
        rw [hufWalkLeaf_one]
        exact fun c hc => .inr ⟨_, (Except.error.inj hc).symm⟩
    | node l r' =>
      have hat' := hat
      obtain ⟨a, b, hget, _⟩ := hat'
      rw [hufDecode, hget]
      simp only
      obtain ⟨cs, tail, rfl, h2, h3⟩ := bits_codes (l := l) (r := r') bits.length bits (Nat.le_refl _)
      rw [hufWalk_codes hat h3 cs 0 h2]
      refine ⟨_, rfl, ?_⟩
      split
      · simp
      · exact fun c hc => .inl ⟨_, (Except.error.inj hc).symm⟩

/-- `HUF.DEC` gives back the text that `HUF.ENC` wrote and built its tree from (R133, R222). -/
theorem hufDecode_encode (m : SymSeq) : hufDecode (hufBuild m).nodes (hufBuild m).root
    (m.flatMap (codeOf (hufBuild m).table)) = some (.ok m) := by
  by_cases hm : m = []
  · subst hm
    rfl
  · obtain ⟨T, r, h⟩ := treeOf_exists hm
    have hat := h.at_root
    rw [h.root]
    have hcode : ∀ x ∈ m, (x, codeOf (hufBuild m).table x) ∈ T.tableCodes := by
      intro x hx
      obtain ⟨p, hp⟩ := (hufBuild_table_mem m x).2 hx
      rw [codeOf, hp]
      exact (h.table x p).1 hp
    cases T with
    | leaf y w =>
      have hat' := hat
      rw [HTree.At] at hat'
      rw [hufDecode, hat']
      simp only
      have hall : ∀ x ∈ m, x = y ∧ codeOf (hufBuild m).table x = [false] := by
        intro x hx
        have := hcode x hx
        rw [HTree.tableCodes, List.mem_singleton, Prod.mk.injEq] at this
        exact this
      have e1 : m = List.replicate m.length y := List.eq_replicate_iff.2 ⟨rfl, fun x hx => (hall x hx).1⟩
      have e2 : m.flatMap (codeOf (hufBuild m).table) = List.replicate m.length false := by
        rw [List.eq_replicate_iff]
        constructor
        · rw [List.length_flatMap, List.map_congr_left fun x hx => by rw [(hall x hx).2]]
          simp
        · intro b hb
          obtain ⟨x, hx, hb⟩ := List.mem_flatMap.1 hb
          rw [(hall x hx).2] at hb
          simpa using hb
      rw [e2, hufWalkLeaf_zeros, ← e1]
    | node l r' =>
      have hat' := hat
      obtain ⟨a, b, hget, _⟩ := hat'
      rw [hufDecode, hget]
      simp only
      have key := hufWalk_codes hat (tail := [])
        (by
          rcases (HTree.node l r').codes_cover [] with ⟨c, hc, hp⟩ | h
          · have := HTree.tableCodes_ne_nil (t := .node l r') hc
            exact absurd (List.prefix_nil.1 hp) this
          · exact h)
        (m.map fun x => (x, codeOf (hufBuild m).table x)) 0
        (by
          intro c hc
          obtain ⟨x, hx, rfl⟩ := List.mem_map.1 hc
          exact hcode x hx)
      simpa [List.flatMap_map, List.map_map, Function.comp_def] using key

end Sys2Proof.Machine
end

