-- ==== Sys2Proof/Laws/Repetition.lean ====
section
/-! SUPPORT. The blocks and the majority votes of the Repetition unit (spec/45_repetition.md R240 to
R245). -/

namespace Sys2Proof.Machine

/-- Cutting a string of blocks gives the blocks back. -/
theorem blocksOf_flatten {α : Type} {n : Nat} : ∀ {blks : List (List α)}, (∀ b ∈ blks, b.length = n) →
    blocksOf n blks.length blks.flatten = blks := by
  intro blks
  induction blks with
  | nil => intro _; rfl
  | cons b blks ih =>
    intro h
    have hb := h b (by simp)
    have h2 := ih fun c hc => h c (by simp [hc])
    simp only [List.length_cons, blocksOf, List.flatten_cons]
    rw [List.take_append_of_le_length (by omega), List.take_of_length_le (by omega), ← hb, List.drop_left, hb, h2]

theorem flatten_length_of_blocks {α : Type} {n : Nat} {blks : List (List α)} (h : ∀ b ∈ blks, b.length = n) :
    blks.flatten.length = blks.length * n := by
  induction blks with
  | nil => simp
  | cons b blks ih =>
    rw [List.flatten_cons, List.length_append, h b (by simp), ih fun c hc => h c (by simp [hc])]
    simp [Nat.succ_mul, Nat.add_comm]

/-- A string whose length is a multiple of the block length is a string of blocks. -/
theorem exists_blocks {α : Type} {n : Nat} : ∀ (k : Nat) (s : List α), s.length = k * n →
    ∃ blks : List (List α), s = blks.flatten ∧ blks.length = k ∧ ∀ b ∈ blks, b.length = n := by
  intro k
  induction k with
  | zero => intro s hs; exact ⟨[], by simpa using hs, rfl, by simp⟩
  | succ k ih =>
    intro s hs
    rw [Nat.succ_mul] at hs
    obtain ⟨blks, h1, h2, h3⟩ := ih (s.drop n) (by simp [hs])
    refine ⟨s.take n :: blks, ?_, by simp [h2], ?_⟩
    · rw [List.flatten_cons, ← h1, List.take_append_drop]
    · simp only [List.mem_cons, forall_eq_or_imp, List.length_take]
      exact ⟨by omega, h3⟩

/-- The majority bit of a block of `r` bits that is no tie (R242). -/
def majority (r : Nat) (blk : BitSeq) : Bit := decide (r - blk.count true < blk.count true)

/-- Votes on blocks that are no ties (R242). -/
theorem repVote_ok {r : Nat} : ∀ (blks : List BitSeq) (j : Nat), (∀ b ∈ blks, b.count true ≠ r - b.count true) →
    repVote r j blks = .ok (blks.map (majority r),
      (blks.zipIdx j).flatMap fun p => repRecord r p.2 p.1 (majority r p.1)) := by
  intro blks
  induction blks with
  | nil => intro j _; rfl
  | cons b blks ih =>
    intro j h
    simp only [repVote, if_neg (h b (by simp)), ih (j + 1) fun c hc => h c (by simp [hc]), List.map_cons,
      List.zipIdx_cons, List.flatMap_cons]
    rfl

/-- Votes up to the first tie (R242). -/
theorem repVote_tie {r : Nat} {blk : BitSeq} {post : List BitSeq} (ht : blk.count true = r - blk.count true) :
    ∀ (pre : List BitSeq) (j : Nat), (∀ b ∈ pre, b.count true ≠ r - b.count true) →
      repVote r j (pre ++ blk :: post) = .error (.tie (j + pre.length) (cellsOf blk)) := by
  intro pre
  induction pre with
  | nil => intro j _; simp only [List.nil_append, repVote, if_pos ht, List.length_nil, Nat.add_zero]
  | cons b pre ih =>
    intro j h
    simp only [List.cons_append, repVote, if_neg (h b (by simp)), ih (j + 1) fun c hc => h c (by simp [hc])]
    rw [List.length_cons, Nat.add_assoc, Nat.add_comm 1]

/-- Everything the votes can do: a result, or a tie, and nothing else (R242). -/
theorem repVote_cases (r : Nat) : ∀ (blks : List BitSeq) (j : Nat),
    (∃ out dg, repVote r j blks = .ok (out, dg)) ∨ ∃ i cells, repVote r j blks = .error (.tie i cells) := by
  intro blks
  induction blks with
  | nil => intro j; exact .inl ⟨[], [], rfl⟩
  | cons b blks ih =>
    intro j
    unfold repVote
    simp only
    split
    · exact .inr ⟨_, _, rfl⟩
    · rcases ih (j + 1) with ⟨out, dg, h⟩ | ⟨i, cells, h⟩
      · left; rw [h]; exact ⟨_, _, rfl⟩
      · right; rw [h]; exact ⟨_, _, rfl⟩

/-- The records of a vote: corrections of blocks of the operand (R26, R242). -/
theorem repVote_records {r : Nat} {blks : List BitSeq} {j : Nat} {out : BitSeq} {dg : List DiagRec}
    (hb : ∀ b ∈ blks, b.length = r) (h : repVote r j blks = .ok (out, dg)) :
    ∀ rec ∈ dg, ∃ i blk m, rec = .repFix i blk m ∧ blk.length = r := by
  induction blks generalizing j out dg with
  | nil =>
    simp only [repVote, Except.ok.injEq, Prod.mk.injEq] at h
    simp [← h.2]
  | cons b blks ih =>
    unfold repVote at h
    simp only at h
    split at h
    · cases h
    · rcases hv : repVote r (j + 1) blks with e | ⟨out', dg'⟩
      · simp [hv] at h
      · simp only [hv, Except.ok.injEq, Prod.mk.injEq] at h
        intro rec hrec
        rw [← h.2, List.mem_append] at hrec
        rcases hrec with hrec | hrec
        · unfold repRecord at hrec
          split at hrec
          · rw [List.mem_singleton] at hrec
            exact ⟨_, _, _, hrec, hb b (by simp)⟩
          · simp at hrec
        · exact ih (fun c hc => hb c (by simp [hc])) hv rec hrec

theorem repEncode_eq_flatten (r : Nat) (m : BitSeq) :
    repEncode r m = (m.map fun b => List.replicate r b).flatten := by
  rw [repEncode, List.flatMap_def]

/-- A decode of a string of blocks (R242). -/
theorem repDecode_blocks {r : Nat} (hr : 1 ≤ r) {blks : List BitSeq} (hb : ∀ b ∈ blks, b.length = r) :
    repDecode r blks.flatten =
      match repVote r 0 blks with
      | .error e => .error e
      | .ok (out, dg) => .ok ({ corr := corrOf dg }, out, dg) := by
  unfold repDecode
  rcases hv : repVote r 0 blks with _ | ⟨_, _⟩ <;>
    simp only [flatten_length_of_blocks hb, Nat.mul_mod_left, if_pos,
      Nat.mul_div_cancel _ (show 0 < r by omega), blocksOf_flatten hb, hv]

theorem corrOf_eq_true_iff (dg : List DiagRec) : corrOf dg = true ↔ dg ≠ [] := by cases dg <;> simp [corrOf]

/-- A block of copies of one bit votes for that bit and leaves no record (R242, R245). -/
theorem repVote_copies {r : Nat} (hr : 1 ≤ r) : ∀ (m : BitSeq) (j : Nat),
    repVote r j (m.map fun b => List.replicate r b) = .ok (m, [])
  | [], _ => rfl
  | b :: m, j => by
    have h0 : 0 < r := hr
    cases b <;>
      simp [repVote, repVote_copies hr m (j + 1), repRecord, List.count_replicate, h0, h0.ne, h0.ne']

/-- `REP.DEC` gives back the bits that `REP.ENC` repeated under the same `r` (R133, R245). -/
theorem repDecode_repEncode {r : Nat} (hr : 1 ≤ r) (m : BitSeq) :
    repDecode r (repEncode r m) = .ok ({}, m, []) := by
  rw [repEncode_eq_flatten, repDecode_blocks hr fun blk h => ?_, repVote_copies hr]
  · rfl
  · obtain ⟨b, -, rfl⟩ := List.mem_map.1 h
    exact List.length_replicate ..

end Sys2Proof.Machine
end

