-- ==== Sys2Proof/Laws/Exec.lean ====
section
/-! SUPPORT. What every command can do, said once: the registers it may write, and the two ways it can end
(spec/40_common.md R120, R121, spec/60_exceptions.md R332, R335). -/

namespace Sys2Proof.Machine

/-! ## The errors of the decoders (R331) -/

theorem readRun_error {start : Nat} : ∀ {bits : BitSeq} {ip n : Nat} {c : Cause},
    readRun start ip n bits = .error c → c = .truncated start
  | [], _, _, _, h => by
    rw [readRun] at h
    exact (Except.error.inj h).symm
  | true :: _, _, _, _, h => by simp [readRun] at h
  | false :: bits, _, _, _, h => by
    rw [readRun] at h
    exact readRun_error h

theorem readField_error {w start : Nat} {cur : Cursor} {c : Cause} (h : readField w start cur = .error c) :
    c = .truncated start := by
  unfold readField at h
  split at h
  · exact (Except.error.inj h).symm
  · cases h

theorem emitSym_error {v start : Nat} {c : Cause} (h : emitSym v start = .error c) : c = .outOfRange start := by
  unfold emitSym at h
  split at h
  · cases h
  · exact (Except.error.inj h).symm

/-- The errors of a loop over codewords are those of reading one. -/
theorem readCodewords_cause {σ : Type} {one : σ → Cursor → σ × Except Cause (Sym × Cursor)} {Q : Cause → Prop}
    (h : ∀ r cur c, (one r cur).2 = .error c → Q c) : ∀ (n : Nat) (r : σ) (cur : Cursor) (c : Cause),
      (readCodewords one n r cur).2 = .error c → Q c
  | 0, _, _, _, he => by simp [readCodewords] at he
  | n + 1, r, cur, c, he => by
    rw [readCodewords] at he
    split at he
    · cases he
    · split at he
      · rename_i e ho
        cases he
        exact h r cur c (by rw [ho])
      · rename_i r' x c' ho
        split at he
        · rename_i e hr
          exact readCodewords_cause h n _ _ c (by rw [hr]; exact he)
        · cases he

/-- The two errors of a universal decoder's codeword. -/
def WordCause (c : Cause) : Prop := (∃ i, c = .truncated i) ∨ ∃ i, c = .outOfRange i

theorem grDecode_cause {k w : Nat} {bits : BitSeq} {c : Cause} (h : grDecode k w bits = .error c) : WordCause c := by
  refine readCodewords_cause (Q := WordCause) ?_ _ _ _ c h
  intro _ cur c h
  simp only [grReadOne] at h
  split at h
  · rename_i e he
    cases h
    exact .inl ⟨_, readRun_error he⟩
  · split at h
    · rename_i e he
      cases h
      exact .inl ⟨_, readField_error he⟩
    · split at h
      · rename_i e he
        cases h
        exact .inr ⟨_, emitSym_error he⟩
      · cases h

theorem egDecode_cause {bits : BitSeq} {c : Cause} (h : egDecode bits = .error c) : WordCause c := by
  refine readCodewords_cause (Q := WordCause) ?_ _ _ _ c h
  intro _ cur c h
  simp only [egReadOne] at h
  split at h
  · rename_i e he
    cases h
    exact .inl ⟨_, readRun_error he⟩
  · split at h
    · rename_i e he
      cases h
      exact .inl ⟨_, readField_error he⟩
    · split at h
      · rename_i e he
        cases h
        exact .inr ⟨_, emitSym_error he⟩
      · cases h

theorem fibReadSum_error {start : Nat} : ∀ {bits : BitSeq} {cache : List Nat} {ip acc i : Nat} {prev : Bit}
    {c : Cause}, (fibReadSum start cache ip acc i prev bits).2 = .error c → c = .truncated start
  | [], _, _, _, _, _, _, h => by
    rw [fibReadSum] at h
    exact (Except.error.inj h).symm
  | true :: bits, _, _, _, _, prev, _, h => by
    rw [fibReadSum] at h
    split at h
    · cases h
    · exact fibReadSum_error h
  | false :: bits, _, _, _, _, _, _, h => by
    rw [fibReadSum] at h
    exact fibReadSum_error h

theorem fibDecode_cause {cache : List Nat} {bits : BitSeq} {c : Cause} (h : (fibDecode cache bits).2 = .error c) :
    WordCause c := by
  refine readCodewords_cause (Q := WordCause) ?_ _ _ _ c h
  intro r cur c h
  unfold fibReadOne at h
  split at h
  · rename_i c' e he
    cases h
    exact .inl ⟨_, fibReadSum_error (c := c) (by rw [he])⟩
  · split at h
    · rename_i e he
      cases h
      exact .inr ⟨_, emitSym_error he⟩
    · cases h

theorem hufWalkLeaf_cause {x : Sym} : ∀ {bits : BitSeq} {i : Nat} {c : Cause},
    hufWalkLeaf x i bits = .error c → ∃ j, c = .noSuchCode j
  | [], _, _, h => by simp [hufWalkLeaf] at h
  | true :: _, i, _, h => by
    rw [hufWalkLeaf] at h
    exact ⟨i, (Except.error.inj h).symm⟩
  | false :: bits, i, c, h => by
    rw [hufWalkLeaf] at h
    split at h
    · rename_i e he
      cases h
      exact hufWalkLeaf_cause he
    · cases h

theorem hufWalk_cause {ns : List Node} {root : Nat} : ∀ {bits : BitSeq} {start ip cur : Nat} {c : Cause},
    hufWalk ns root start ip cur bits = some (.error c) → ∃ j, c = .truncated j
  | [], start, _, cur, c, h => by
    rw [hufWalk] at h
    split at h
    · simp at h
    · simp only [Option.some.injEq, Except.error.injEq] at h
      exact ⟨start, h.symm⟩
  | b :: bits, start, ip, cur, c, h => by
    rw [hufWalk] at h
    simp only at h
    split at h
    · split at h
      · split at h
        · cases h
        · rename_i e he
          simp only [Option.some.injEq, Except.error.injEq] at h
          subst h
          exact hufWalk_cause he
        · simp at h
      · exact hufWalk_cause h
      · cases h
    · cases h

theorem hufDecode_cause {ns : List Node} {root : Option Nat} {bits : BitSeq} {c : Cause}
    (h : hufDecode ns root bits = some (.error c)) : (∃ i, c = .truncated i) ∨ ∃ i, c = .noSuchCode i := by
  unfold hufDecode at h
  split at h
  · simp only [Option.some.injEq] at h
    split at h
    · cases h
    · exact .inr ⟨0, (Except.error.inj h).symm⟩
  · split at h
    · simp only [Option.some.injEq] at h
      exact .inr (hufWalkLeaf_cause h)
    · exact .inl (hufWalk_cause h)
    · cases h

/-! ## The shape of every command -/

/-- The registers a command may write; every other command leaves the persistent registers alone (R22). -/
def Writes : Instr → State → State → Prop
  | .grCfg, s, s' => ∃ k w, s' = { s with grK := k, grSuflen := w }
  | .repCfg, s, s' => ∃ r, s' = { s with repR := r }
  | .crcCfg, s, s' => ∃ g d, s' = { s with crcGen := g, crcDeg := d }
  | .fibEnc, s, s' | .fibDec, s, s' => ∃ c, s' = { s with fibCache := c }
  | .hufEnc, s, s' => ∃ t, s' = s.installTree t
  | .grEnc, s, s' | .grDec, s, s' | .grVal, s, s' | .egEnc, s, s' | .egDec, s, s' | .egVal, s, s'
  | .egCfg, s, s' | .fibVal, s, s' | .fibCfg, s, s' | .hufDec, s, s' | .hufVal, s, s' | .hufCfg, s, s'
  | .repEnc, s, s' | .repDec, s, s' | .repVal, s, s' | .crcEnc, s, s' | .crcDec, s, s' | .crcVal, s, s'
  | .hamEnc, s, s' | .hamDec, s, s' | .hamVal, s, s' | .hamCfg, s, s' => s' = s

/-- A command ends with a commit, or with an error of its row of R332. -/
def Ends (i : Instr) (s' t : State) : Prop :=
  (∃ rep syms bits dg, t = s'.commit rep syms bits dg) ∨
    ∃ c : Cause, t = s'.raise c ∧ (c.code.bits.toNat, c.info.sub) ∈ allowedErrors i

theorem Ends.commit (i : Instr) (s : State) (rep : Report) (syms : SymSeq) (bits : BitSeq) (dg : List DiagRec) :
    Ends i s (s.commit rep syms bits dg) := .inl ⟨_, _, _, _, rfl⟩

theorem Ends.raise {i : Instr} (s : State) {c : Cause} (h : (c.code.bits.toNat, c.info.sub) ∈ allowedErrors i) :
    Ends i s (s.raise c) := .inr ⟨c, rfl, h⟩

theorem Ends.syms {i : Instr} (s : State) {r : Except Cause SymSeq}
    (h : ∀ c, r = .error c → (c.code.bits.toNat, c.info.sub) ∈ allowedErrors i) : Ends i s (s.endSyms r) := by
  rcases endSyms_cases r s with ⟨_, _, he⟩ | ⟨c, hc, he⟩ <;> rw [he]
  · exact .commit _ _ _ _ _ _
  · exact .raise s (h c hc)

theorem Ends.bits {i : Instr} (s : State) {r : Except Cause (Report × BitSeq × List DiagRec)}
    (h : ∀ c, r = .error c → (c.code.bits.toNat, c.info.sub) ∈ allowedErrors i) : Ends i s (s.endBits r) := by
  rcases endBits_cases r s with ⟨_, _, _, _, he⟩ | ⟨c, hc, he⟩ <;> rw [he]
  · exact .commit _ _ _ _ _ _
  · exact .raise s (h c hc)

theorem repDecode_cause {r : Nat} {bits : BitSeq} {c : Cause} (h : repDecode r bits = .error c) :
    (∃ n, c = .badLength n) ∨ ∃ j blk, c = .tie j blk := by
  unfold repDecode at h
  split at h
  · rcases repVote_cases r (blocksOf r (bits.length / r) bits) 0 with ⟨out, dg, hv⟩ | ⟨j, blk, hv⟩ <;>
      rw [hv] at h <;> cases h
    exact .inr ⟨j, blk, rfl⟩
  · exact .inl ⟨_, (Except.error.inj h).symm⟩

theorem crcDecode_cause {G : BitSeq} {d : Nat} {bits : BitSeq} {c : Cause} (h : crcDecode G d bits = .error c) :
    ∃ n, c = .badLength n := by
  unfold crcDecode at h
  split at h
  · exact ⟨_, (Except.error.inj h).symm⟩
  · simp only at h
    split at h <;> cases h

theorem hamDecode_cause {bits : BitSeq} {c : Cause} (h : hamDecode bits = .error c) : ∃ n, c = .badLength n := by
  unfold hamDecode at h
  split at h
  · obtain ⟨out, dg, hv, _⟩ := hamDecodeBlocks_ok bits.length bits 0 (Nat.le_refl _)
    rw [hv] at h
    cases h
  · exact ⟨_, (Except.error.inj h).symm⟩

/-- Everything a command can do: it writes registers of its own, and ends in one of the two ways. -/
theorem exec_shape {i : Instr} {s t : State} (h : exec i s = .next t) : ∃ s', Writes i s s' ∧ Ends i s' t := by
  cases i <;> simp only [exec] at h
  case grEnc => cases h; exact ⟨s, rfl, .commit _ _ _ _ _ _⟩
  case grDec =>
    rcases alphabetCheck_cases .decNonBinary s.inBit with ⟨n, _, ha⟩ | ⟨bits, _, _, ha⟩ <;>
      simp only [execGrDec, ha] at h <;> cases h
    · exact ⟨s, rfl, .raise s (by simp [Cause.code, Cause.info, ErrCode.bits, allowedErrors])⟩
    · refine ⟨s, rfl, .syms s fun c hc => ?_⟩
      rcases grDecode_cause hc with ⟨_, rfl⟩ | ⟨_, rfl⟩ <;>
        simp [Cause.code, Cause.info, ErrCode.bits, allowedErrors]
  case grVal => cases h; exact ⟨s, rfl, .commit _ _ _ _ _ _⟩
  case grCfg =>
    unfold execGrCfg at h
    split at h
    · split at h <;> cases h
      · exact ⟨_, ⟨_, _, rfl⟩, .commit _ _ _ _ _ _⟩
      · exact ⟨s, ⟨s.grK, s.grSuflen, rfl⟩, .commit _ _ _ _ _ _⟩
    · cases h
      exact ⟨s, ⟨s.grK, s.grSuflen, rfl⟩, .commit _ _ _ _ _ _⟩
  case egEnc =>
    rcases symbolCheck_cases s.inSym with ⟨n, _, ha⟩ | ⟨_, _, ha⟩ <;>
      simp only [execEgEnc, ha] at h <;> cases h
    · exact ⟨s, rfl, .raise s (by simp [Cause.code, Cause.info, ErrCode.bits, allowedErrors])⟩
    · exact ⟨s, rfl, .commit _ _ _ _ _ _⟩
  case egDec =>
    rcases alphabetCheck_cases .decNonBinary s.inBit with ⟨n, _, ha⟩ | ⟨bits, _, _, ha⟩ <;>
      simp only [execEgDec, ha] at h <;> cases h
    · exact ⟨s, rfl, .raise s (by simp [Cause.code, Cause.info, ErrCode.bits, allowedErrors])⟩
    · refine ⟨s, rfl, .syms s fun c hc => ?_⟩
      rcases egDecode_cause hc with ⟨_, rfl⟩ | ⟨_, rfl⟩ <;>
        simp [Cause.code, Cause.info, ErrCode.bits, allowedErrors]
  case egVal => cases h; exact ⟨s, rfl, .commit _ _ _ _ _ _⟩
  case egCfg => cases h; exact ⟨s, rfl, .commit _ _ _ _ _ _⟩
  case fibEnc =>
    rcases symbolCheck_cases s.inSym with ⟨n, _, ha⟩ | ⟨_, _, ha⟩ <;>
      simp only [execFibEnc, ha] at h <;> cases h
    · exact ⟨s, ⟨s.fibCache, rfl⟩, .raise s (by simp [Cause.code, Cause.info, ErrCode.bits, allowedErrors])⟩
    · exact ⟨_, ⟨_, rfl⟩, .commit _ _ _ _ _ _⟩
  case fibDec =>
    rcases alphabetCheck_cases .decNonBinary s.inBit with ⟨n, _, ha⟩ | ⟨bits, _, _, ha⟩ <;>
      simp only [execFibDec, ha] at h <;> cases h
    · exact ⟨s, ⟨s.fibCache, rfl⟩, .raise s (by simp [Cause.code, Cause.info, ErrCode.bits, allowedErrors])⟩
    · refine ⟨_, ⟨_, rfl⟩, .syms _ fun c hc => ?_⟩
      rcases fibDecode_cause hc with ⟨_, rfl⟩ | ⟨_, rfl⟩ <;>
        simp [Cause.code, Cause.info, ErrCode.bits, allowedErrors]
  case fibVal => cases h; exact ⟨s, rfl, .commit _ _ _ _ _ _⟩
  case fibCfg => cases h; exact ⟨s, rfl, .commit _ _ _ _ _ _⟩
  case hufEnc =>
    simp only [execHufEnc, hufEncode_build] at h
    cases h
    exact ⟨_, ⟨_, rfl⟩, .commit _ _ _ _ _ _⟩
  case hufDec =>
    unfold execHufDec at h
    split at h
    · cases h
      exact ⟨s, rfl, .raise s (by simp [Cause.code, Cause.info, ErrCode.bits, allowedErrors])⟩
    · rcases alphabetCheck_cases .decNonBinary s.inBit with ⟨n, _, ha⟩ | ⟨bits, _, _, ha⟩ <;>
        simp only [ha] at h
      · cases h
        exact ⟨s, rfl, .raise s (by simp [Cause.code, Cause.info, ErrCode.bits, allowedErrors])⟩
      · split at h
        · cases h
        · rename_i r hr
          cases h
          refine ⟨s, rfl, .syms s fun c hc => ?_⟩
          subst hc
          rcases hufDecode_cause hr with ⟨_, rfl⟩ | ⟨_, rfl⟩ <;>
            simp [Cause.code, Cause.info, ErrCode.bits, allowedErrors]
  case hufVal => cases h; exact ⟨s, rfl, .commit _ _ _ _ _ _⟩
  case hufCfg => cases h; exact ⟨s, rfl, .commit _ _ _ _ _ _⟩
  case repEnc =>
    rcases alphabetCheck_cases .encNonBinary s.inBit with ⟨n, _, ha⟩ | ⟨bits, _, _, ha⟩ <;>
      simp only [execRepEnc, ha] at h <;> cases h
    · exact ⟨s, rfl, .raise s (by simp [Cause.code, Cause.info, ErrCode.bits, allowedErrors])⟩
    · exact ⟨s, rfl, .commit _ _ _ _ _ _⟩
  case repDec =>
    rcases alphabetCheck_cases .decNonBinary s.inBit with ⟨n, _, ha⟩ | ⟨bits, _, _, ha⟩ <;>
      simp only [execRepDec, ha] at h <;> cases h
    · exact ⟨s, rfl, .raise s (by simp [Cause.code, Cause.info, ErrCode.bits, allowedErrors])⟩
    · refine ⟨s, rfl, .bits s fun c hc => ?_⟩
      rcases repDecode_cause hc with ⟨_, rfl⟩ | ⟨_, _, rfl⟩ <;>
        simp [Cause.code, Cause.info, ErrCode.bits, allowedErrors]
  case repVal => cases h; exact ⟨s, rfl, .commit _ _ _ _ _ _⟩
  case repCfg =>
    unfold execRepCfg at h
    split at h
    · split at h <;> cases h
      · exact ⟨_, ⟨_, rfl⟩, .commit _ _ _ _ _ _⟩
      · exact ⟨s, ⟨s.repR, rfl⟩, .commit _ _ _ _ _ _⟩
    · cases h
      exact ⟨s, ⟨s.repR, rfl⟩, .commit _ _ _ _ _ _⟩
  case crcEnc =>
    rcases alphabetCheck_cases .encNonBinary s.inBit with ⟨n, _, ha⟩ | ⟨bits, _, _, ha⟩ <;>
      simp only [execCrcEnc, ha] at h <;> cases h
    · exact ⟨s, rfl, .raise s (by simp [Cause.code, Cause.info, ErrCode.bits, allowedErrors])⟩
    · exact ⟨s, rfl, .commit _ _ _ _ _ _⟩
  case crcDec =>
    rcases alphabetCheck_cases .decNonBinary s.inBit with ⟨n, _, ha⟩ | ⟨bits, _, _, ha⟩ <;>
      simp only [execCrcDec, ha] at h <;> cases h
    · exact ⟨s, rfl, .raise s (by simp [Cause.code, Cause.info, ErrCode.bits, allowedErrors])⟩
    · refine ⟨s, rfl, .bits s fun c hc => ?_⟩
      obtain ⟨_, rfl⟩ := crcDecode_cause hc
      simp [Cause.code, Cause.info, ErrCode.bits, allowedErrors]
  case crcVal => cases h; exact ⟨s, rfl, .commit _ _ _ _ _ _⟩
  case crcCfg =>
    unfold execCrcCfg at h
    split at h
    · split at h <;> cases h
      · exact ⟨_, ⟨_, _, rfl⟩, .commit _ _ _ _ _ _⟩
      · exact ⟨s, ⟨s.crcGen, s.crcDeg, rfl⟩, .commit _ _ _ _ _ _⟩
    · cases h
      exact ⟨s, ⟨s.crcGen, s.crcDeg, rfl⟩, .commit _ _ _ _ _ _⟩
  case hamEnc =>
    rcases alphabetCheck_cases .encNonBinary s.inBit with ⟨n, _, ha⟩ | ⟨bits, _, _, ha⟩ <;>
      simp only [execHamEnc, ha] at h <;> cases h
    · exact ⟨s, rfl, .raise s (by simp [Cause.code, Cause.info, ErrCode.bits, allowedErrors])⟩
    · exact ⟨s, rfl, .commit _ _ _ _ _ _⟩
  case hamDec =>
    rcases alphabetCheck_cases .decNonBinary s.inBit with ⟨n, _, ha⟩ | ⟨bits, _, _, ha⟩ <;>
      simp only [execHamDec, ha] at h <;> cases h
    · exact ⟨s, rfl, .raise s (by simp [Cause.code, Cause.info, ErrCode.bits, allowedErrors])⟩
    · refine ⟨s, rfl, .bits s fun c hc => ?_⟩
      obtain ⟨_, rfl⟩ := hamDecode_cause hc
      simp [Cause.code, Cause.info, ErrCode.bits, allowedErrors]
  case hamVal => cases h; exact ⟨s, rfl, .commit _ _ _ _ _ _⟩
  case hamCfg => cases h; exact ⟨s, rfl, .commit _ _ _ _ _ _⟩

/-- What the registers a command writes are not. -/
theorem Writes.frame {i : Instr} {s s' : State} (h : Writes i s s') :
    SameHost s s' ∧ (∀ u, u ≠ i.unitOf → SameUnit u s s') ∧ s'.status = s.status := by
  cases i <;> simp only [Writes] at h
  case grCfg => obtain ⟨_, _, rfl⟩ := h; exact ⟨⟨rfl, rfl, rfl, rfl, rfl⟩, fun u hu => by cases u <;> simp_all [SameUnit, Instr.unitOf], rfl⟩
  case repCfg => obtain ⟨_, rfl⟩ := h; exact ⟨⟨rfl, rfl, rfl, rfl, rfl⟩, fun u hu => by cases u <;> simp_all [SameUnit, Instr.unitOf], rfl⟩
  case crcCfg => obtain ⟨_, _, rfl⟩ := h; exact ⟨⟨rfl, rfl, rfl, rfl, rfl⟩, fun u hu => by cases u <;> simp_all [SameUnit, Instr.unitOf], rfl⟩
  case fibEnc => obtain ⟨_, rfl⟩ := h; exact ⟨⟨rfl, rfl, rfl, rfl, rfl⟩, fun u hu => by cases u <;> simp_all [SameUnit, Instr.unitOf], rfl⟩
  case fibDec => obtain ⟨_, rfl⟩ := h; exact ⟨⟨rfl, rfl, rfl, rfl, rfl⟩, fun u hu => by cases u <;> simp_all [SameUnit, Instr.unitOf], rfl⟩
  case hufEnc => obtain ⟨_, rfl⟩ := h; exact ⟨⟨rfl, rfl, rfl, rfl, rfl⟩, fun u hu => by cases u <;> simp_all [SameUnit, Instr.unitOf, State.installTree], rfl⟩
  all_goals (subst h; exact ⟨.refl _, fun u _ => by cases u <;> simp [SameUnit], rfl⟩)

end Sys2Proof.Machine
end

