-- ==== Sys2Proof/Laws/PerInstr.lean ====
section
/-! SUPPORT. What is said of every command, one lemma per constructor. -/

namespace Sys2Proof.Laws

/-- The word of the command is legal, lies at the place R90 gives it, and decodes to the command. -/
def DecodeEncode.Statement (i : Instr) : Prop :=
  wellFormed i = true ∧ (encode i).toNat = 16 * (encodeUnit i.unitOf).toNat + (encodeOp i.opOf).toNat ∧
    decode (encode i) = .ok i

theorem DecodeEncode.grEnc : DecodeEncode.Statement .grEnc := ⟨by decide, by decide, by rfl⟩

theorem DecodeEncode.grDec : DecodeEncode.Statement .grDec := ⟨by decide, by decide, by rfl⟩

theorem DecodeEncode.grVal : DecodeEncode.Statement .grVal := ⟨by decide, by decide, by rfl⟩

theorem DecodeEncode.grCfg : DecodeEncode.Statement .grCfg := ⟨by decide, by decide, by rfl⟩

theorem DecodeEncode.egEnc : DecodeEncode.Statement .egEnc := ⟨by decide, by decide, by rfl⟩

theorem DecodeEncode.egDec : DecodeEncode.Statement .egDec := ⟨by decide, by decide, by rfl⟩

theorem DecodeEncode.egVal : DecodeEncode.Statement .egVal := ⟨by decide, by decide, by rfl⟩

theorem DecodeEncode.egCfg : DecodeEncode.Statement .egCfg := ⟨by decide, by decide, by rfl⟩

theorem DecodeEncode.fibEnc : DecodeEncode.Statement .fibEnc := ⟨by decide, by decide, by rfl⟩

theorem DecodeEncode.fibDec : DecodeEncode.Statement .fibDec := ⟨by decide, by decide, by rfl⟩

theorem DecodeEncode.fibVal : DecodeEncode.Statement .fibVal := ⟨by decide, by decide, by rfl⟩

theorem DecodeEncode.fibCfg : DecodeEncode.Statement .fibCfg := ⟨by decide, by decide, by rfl⟩

theorem DecodeEncode.hufEnc : DecodeEncode.Statement .hufEnc := ⟨by decide, by decide, by rfl⟩

theorem DecodeEncode.hufDec : DecodeEncode.Statement .hufDec := ⟨by decide, by decide, by rfl⟩

theorem DecodeEncode.hufVal : DecodeEncode.Statement .hufVal := ⟨by decide, by decide, by rfl⟩

theorem DecodeEncode.hufCfg : DecodeEncode.Statement .hufCfg := ⟨by decide, by decide, by rfl⟩

theorem DecodeEncode.repEnc : DecodeEncode.Statement .repEnc := ⟨by decide, by decide, by rfl⟩

theorem DecodeEncode.repDec : DecodeEncode.Statement .repDec := ⟨by decide, by decide, by rfl⟩

theorem DecodeEncode.repVal : DecodeEncode.Statement .repVal := ⟨by decide, by decide, by rfl⟩

theorem DecodeEncode.repCfg : DecodeEncode.Statement .repCfg := ⟨by decide, by decide, by rfl⟩

theorem DecodeEncode.crcEnc : DecodeEncode.Statement .crcEnc := ⟨by decide, by decide, by rfl⟩

theorem DecodeEncode.crcDec : DecodeEncode.Statement .crcDec := ⟨by decide, by decide, by rfl⟩

theorem DecodeEncode.crcVal : DecodeEncode.Statement .crcVal := ⟨by decide, by decide, by rfl⟩

theorem DecodeEncode.crcCfg : DecodeEncode.Statement .crcCfg := ⟨by decide, by decide, by rfl⟩

theorem DecodeEncode.hamEnc : DecodeEncode.Statement .hamEnc := ⟨by decide, by decide, by rfl⟩

theorem DecodeEncode.hamDec : DecodeEncode.Statement .hamDec := ⟨by decide, by decide, by rfl⟩

theorem DecodeEncode.hamVal : DecodeEncode.Statement .hamVal := ⟨by decide, by decide, by rfl⟩

theorem DecodeEncode.hamCfg : DecodeEncode.Statement .hamCfg := ⟨by decide, by decide, by rfl⟩

end Sys2Proof.Laws
end

