-- ==== Sys2Proof/Tests/Slice0.lean ====
section
/-! SUPPORT. Tests of the model on words and operands written out from the spec: the checks of command
words, the decoding of every command, one or two small steps per command with the results of
spec/95_test_vectors.md, and for every obligation with hypotheses a state and operands that meet them. -/

namespace Sys2Proof.Tests

open Sys2Proof Sys2Proof.Machine

/-! ## Writing operands down -/

/-- Bits from noughts and ones. -/
def bs (l : List Nat) : BitSeq := l.map (· == 1)

/-- Cells from noughts and ones; any other number is a cell that is not binary. -/
def cs (l : List Nat) : CellSeq := l.map fun n => if n = 0 then .b0 else if n = 1 then .b1 else .bX

/-- A text from code points. -/
def txt (l : List Nat) : SymSeq := l.map fun n => Fin.ofNat _ n

/-- The reset state with these operands at the ports. -/
def given (syms cells : List Nat) : State :=
  { State.reset with inSym := txt syms, inBit := cs cells }

/-- The reset state with this `PARAM`. -/
def param (p : Param) : State := { State.reset with param := p }

/-- The reset state with the tree of a text installed, and cells at the port. -/
def withTree (m cells : List Nat) : State := { (given [] cells).installTree (hufBuild (txt m)) with cmd := 0#8 }

/-- The command with this word is issued on what stands at the ports. -/
def issue (w : Nat) (s : State) : StepOutcome := step (s.withFetchWord 8 w)

/-- The next state, if there is one. -/
def nx : StepOutcome → Option State
  | .next t => some t
  | _ => none

/-- The step ends with this `STATUS`, these symbols, bits and records, and a clear `ERRINFO`. -/
def gives (o : StepOutcome) (status : Nat) (syms bits : List Nat) (dg : List DiagRec) : Bool :=
  (nx o).any fun t => t.status.toNat == status && t.errInfo == ErrInfo.clear &&
    t.outSym == txt syms && t.outBit == bs bits && t.diag == dg

/-- The step ends with this `STATUS` and `ERRINFO`, and no result. -/
def stops (o : StepOutcome) (status sub index : Nat) (data : List Nat) : Bool :=
  (nx o).any fun t => t.status.toNat == status && t.errInfo == { sub := sub, index := index, data := cs data } &&
    t.outSym == [] && t.outBit == [] && t.diag == []

theorem of_nx {o : StepOutcome} {P : State → Bool} (h : (nx o).any P = true) : ∃ t, o = .next t ∧ P t = true := by
  cases o with
  | next t => exact ⟨t, rfl, h⟩
  | _ => cases h

/-! ## Command words (spec/30_encoding.md R90, R93, R96) -/

theorem test_wordZ1Ok_refuses : wordZ1Ok 0b10000000#8 = false ∧ legalWord 0b10000000#8 = false := by decide
theorem test_wordZ0Ok_refuses_low : wordZ0Ok 0b00000100#8 = false ∧ legalWord 0b00000100#8 = false := by decide
theorem test_wordZ0Ok_refuses_high : wordZ0Ok 0b00001000#8 = false ∧ legalWord 0b00001000#8 = false := by decide
theorem test_wordUnitOk_refuses : wordUnitOk 0b01110000#8 = false ∧ legalWord 0b01110000#8 = false := by decide
theorem test_wellFormed_all : ([Instr.grEnc, .egCfg, .hamCfg].map wellFormed) = [true, true, true] := by decide

theorem test_decode_gr : decode 0b00000000#8 = .ok .grEnc ∧ decode 0b00000001#8 = .ok .grDec ∧
    decode 0b00000010#8 = .ok .grVal ∧ decode 0b00000011#8 = .ok .grCfg := by decide
theorem test_decode_eg : decode 0b00010000#8 = .ok .egEnc ∧ decode 0b00010001#8 = .ok .egDec ∧
    decode 0b00010010#8 = .ok .egVal ∧ decode 0b00010011#8 = .ok .egCfg := by decide
theorem test_decode_fib : decode 0b00100000#8 = .ok .fibEnc ∧ decode 0b00100001#8 = .ok .fibDec ∧
    decode 0b00100010#8 = .ok .fibVal ∧ decode 0b00100011#8 = .ok .fibCfg := by decide
theorem test_decode_huf : decode 0b00110000#8 = .ok .hufEnc ∧ decode 0b00110001#8 = .ok .hufDec ∧
    decode 0b00110010#8 = .ok .hufVal ∧ decode 0b00110011#8 = .ok .hufCfg := by decide
theorem test_decode_rep : decode 0b01000000#8 = .ok .repEnc ∧ decode 0b01000001#8 = .ok .repDec ∧
    decode 0b01000010#8 = .ok .repVal ∧ decode 0b01000011#8 = .ok .repCfg := by decide
theorem test_decode_crc : decode 0b01010000#8 = .ok .crcEnc ∧ decode 0b01010001#8 = .ok .crcDec ∧
    decode 0b01010010#8 = .ok .crcVal ∧ decode 0b01010011#8 = .ok .crcCfg := by decide
theorem test_decode_ham : decode 0b01100000#8 = .ok .hamEnc ∧ decode 0b01100001#8 = .ok .hamDec ∧
    decode 0b01100010#8 = .ok .hamVal ∧ decode 0b01100011#8 = .ok .hamCfg := by decide
theorem test_decode_refuses : decode 0b10000000#8 = .error .reservedZ1 ∧ decode 0b01110011#8 = .error .reservedUnit ∧
    decode 0b00000101#8 = .error .reservedZ0 ∧ decodeBytes [] = .error .noWord := by decide
theorem test_decode_rest : decodeBytes [0x43#8, 0xFF#8] = .ok (.repCfg, [0xFF#8]) := by decide
theorem test_decodeTableWord : decodeTableWord 8 0x61 = some .hamDec ∧ decodeTableWord 8 0x70 = none ∧
    decodeTableWord 8 0x161 = none := by decide
theorem test_illegal_word : stops (issue 0x84 (given [65] [1])) 5 0 0x84 [] = true := by decide

/-! ## Golomb-Rice (spec/95_test_vectors.md V1, 2.1) -/

theorem test_grEnc_A : gives (issue 0x00 (given [65] [])) 0 [] [0, 1, 0, 0, 0, 0, 0, 1] [] = true := by decide
theorem test_grEnc_k3 : gives (issue 0x00 { given [0, 7] [] with grK := 3, grSuflen := 2 }) 0 []
    [1, 0, 0, 0, 0, 1, 0, 1] [] = true := by decide
theorem test_grDec_k5_suffix : gives (issue 0x01 { given [] [1, 1, 1, 1] with grK := 5, grSuflen := 3 }) 0 [7] [] [] =
    true := by decide
theorem test_grDec_truncated : stops (issue 0x01 (given [] [0, 1, 0, 0, 0, 0, 0, 1, 0, 0])) 2 3 8 [] = true := by decide
theorem test_grVal : gives (issue 0x02 (given [0, 65] [])) 0x10 [] [] [] = true := by decide
theorem test_grCfg_five : (nx (issue 0x03 (param (.pInt 5)))).any (fun t => t.grK == 5 && t.grSuflen == 3 &&
    t.status == 0#16) = true := by decide
theorem test_grCfg_zero : (nx (issue 0x03 (param (.pInt 0)))).any (fun t => t.grK == 64 && t.grSuflen == 6 &&
    t.status == 0x0008#16) = true := by decide

/-! ## Elias-Gamma (spec/95_test_vectors.md V2, 2.2) -/

theorem test_egEnc_A : gives (issue 0x10 (given [1, 65] [])) 0 [] [1, 0, 0, 0, 0, 0, 0, 1, 0, 0, 0, 0, 0, 1] [] =
    true := by decide
theorem test_egEnc_zero : stops (issue 0x10 (given [72, 0, 105] [])) 1 1 1 [] = true := by decide
theorem test_egDec : gives (issue 0x11 (given [] [1, 0, 1, 0])) 0 [1, 2] [] [] = true := by decide
theorem test_egDec_truncated : stops (issue 0x11 (given [] [0, 0, 0, 1])) 2 3 0 [] = true := by decide
theorem test_egVal : gives (issue 0x12 (given [72, 0] [])) 0 [] [] [] = true ∧
    gives (issue 0x12 (given [72] [])) 0x10 [] [] [] = true := by decide
theorem test_egCfg : (nx (issue 0x13 (param (.pInt 7)))).any (fun t => t.status == 0#16 && t.grK == 64) = true := by decide

/-! ## Fibonacci (spec/95_test_vectors.md 2.3) -/

theorem test_fibEnc_Hi : gives (issue 0x20 (given [72, 105] [])) 0 []
    [1, 0, 1, 0, 0, 1, 0, 0, 1, 1, 0, 0, 1, 0, 0, 1, 0, 0, 0, 1, 1] [] = true := by decide
theorem test_fibEnc_zero : stops (issue 0x20 (given [0] [])) 1 1 0 [] = true := by decide
theorem test_fibDec_clears_prev : gives (issue 0x21 (given [] [1, 0, 1, 1, 0, 1, 1, 1, 1])) 0 [4, 2, 1] [] [] = true := by
  decide
theorem test_fibDec_truncated : stops (issue 0x21 (given [] [0, 1, 1, 0, 1])) 2 3 3 [] = true := by decide
theorem test_fibVal : gives (issue 0x22 (given [72, 0] [])) 0 [] [] [] = true ∧
    gives (issue 0x22 (given [] [])) 0x10 [] [] [] = true := by decide
theorem test_fibCfg : (nx (issue 0x23 { param (.pInt 1) with fibCache := [1, 2, 3, 5] })).any (fun t =>
    t.status == 0#16 && t.fibCache == [1, 2, 3, 5]) = true := by decide

/-! ## Huffman (spec/95_test_vectors.md V4, 2.4) -/

theorem test_hufEnc_abracadabra : gives (issue 0x30 (given [97, 98, 114, 97, 99, 97, 100, 97, 98, 114, 97] [])) 0 []
    [0, 1, 1, 0, 1, 1, 1, 0, 1, 0, 0, 0, 1, 0, 1, 0, 1, 1, 0, 1, 1, 1, 0] [] = true := by decide
theorem test_hufEnc_aaab : (nx (issue 0x30 (given [97, 97, 97, 98] []))).any (fun t => t.hufHave && t.hufRoot == some 2 &&
    t.hufNodes == [.leaf 97 3, .leaf 98 1, .inner 4 1 0] && t.hufTable == [(97, [true]), (98, [false])]) = true := by
  decide
theorem test_hufDec_aaab : gives (issue 0x31 (withTree [97, 97, 97, 98] [1, 1, 1, 0])) 0 [97, 97, 97, 98] [] [] = true := by
  decide
theorem test_hufDec_no_tree : stops (issue 0x31 (given [] [2])) 4 1 0 [] = true := by decide
theorem test_hufVal : gives (issue 0x32 (given [0] [])) 0x10 [] [] [] = true := by decide
theorem test_hufCfg : (nx (issue 0x33 (withTree [97] []))).any (fun t => t.status == 0#16 && t.hufHave &&
    t.hufTable == [(97, [false])]) = true := by decide

/-! ## Repetition (spec/95_test_vectors.md V5, 2.5) -/

theorem test_repEnc : gives (issue 0x40 (given [] [1, 0, 1])) 0 [] [1, 1, 1, 0, 0, 0, 1, 1, 1] [] = true := by decide
theorem test_repEnc_nonbinary : stops (issue 0x40 (given [] [1, 2])) 1 2 1 [] = true := by decide
theorem test_repDec : gives (issue 0x41 (given [] [1, 1, 0, 0, 0, 0, 1, 0, 1])) 0x40 [] [1, 0, 1]
    [.repFix 0 (bs [1, 1, 0]) true, .repFix 2 (bs [1, 0, 1]) true] = true := by decide
theorem test_repDec_tie : stops (issue 0x41 { given [] [1, 1, 1, 0] with repR := 2 }) 3 1 1 [1, 0] = true := by decide
theorem test_repVal : gives (issue 0x42 (given [] [1, 0, 2])) 0 [] [] [] = true ∧
    gives (issue 0x42 (given [] [1, 0])) 0x10 [] [] [] = true := by decide
theorem test_repCfg : (nx (issue 0x43 (param (.pInt (-2))))).any (fun t => t.repR == 3 && t.status == 0x0008#16) = true ∧
    (nx (issue 0x43 (param (.pInt 2)))).any (fun t => t.repR == 2 && t.status == 0#16) = true := by decide

/-! ## CRC (spec/95_test_vectors.md V6, 2.6) -/

theorem test_crcEnc : gives (issue 0x50 (given [] [1, 0, 1, 1])) 0 [] [1, 0, 1, 1, 0, 1, 0] [] = true := by decide
theorem test_crcEnc_lead_zero : gives (issue 0x50 { given [] [1, 0, 1, 1] with crcGen := bs [0, 1, 0, 1] }) 0 []
    [1, 0, 1, 1, 1, 0, 0] [] = true := by decide
theorem test_crcDec : gives (issue 0x51 (given [] [1, 0, 1, 1, 0, 1, 0])) 0 [] [1, 0, 1, 1] [] = true := by decide
theorem test_crcDec_detect : gives (issue 0x51 (given [] [1, 1, 1, 1, 0, 1, 0])) 0x20 [] [1, 1, 1, 1, 1, 0, 0]
    [.crcDetect (bs [1, 0, 0])] = true := by decide
theorem test_crcVal : gives (issue 0x52 (given [] [2])) 0 [] [] [] = true ∧
    gives (issue 0x52 (given [] [])) 0x10 [] [] [] = true := by decide
theorem test_crcCfg : (nx (issue 0x53 (param (.pGen (cs [1, 0, 2, 1]))))).any (fun t =>
      t.crcGen == bs [1, 0, 0, 1] && t.status == 0x0008#16) = true ∧
    (nx (issue 0x53 (param (.pGen (cs [1, 0, 1, 1, 0]))))).any (fun t =>
      t.crcGen == bs [1, 0, 1, 1, 0] && t.crcDeg == 5 && t.status == 0#16) = true := by decide

/-! ## Hamming(7,4) (spec/95_test_vectors.md V7, 2.7) -/

theorem test_hamEnc : gives (issue 0x60 (given [] [1, 0, 1, 1, 0])) 0x180 []
    [1, 0, 1, 1, 0, 0, 1, 0, 0, 0, 0, 0, 0, 0] [] = true := by decide
theorem test_hamDec_middle : gives (issue 0x61 (given [] [1, 0, 0, 1, 0, 0, 1])) 0x40 [] [1, 0, 1, 1]
    [.hamData 0 2 false true] = true := by decide
theorem test_hamDec_parity_second : gives (issue 0x61 (given [] [1, 0, 1, 1, 0, 0, 1, 1, 0, 1, 1, 0, 1, 1])) 0x40 []
    [1, 0, 1, 1, 1, 0, 1, 1] [.hamParity 1 5] = true := by decide
theorem test_hamVal : gives (issue 0x62 (given [] [2])) 0 [] [] [] = true ∧
    gives (issue 0x62 (given [] [0])) 0x10 [] [] [] = true := by decide
theorem test_hamCfg : gives (issue 0x63 (param (.pInt 3))) 0 [] [] [] = true := by decide

/-! ## States and operands that meet the hypotheses of the obligations -/

/-- The registers keep the bounds of R44, the cache and the tree apart. -/
def boundsOk (s : State) : Bool :=
  decide (1 ≤ s.grK ∧ s.grSuflen = clog2 s.grK ∧ 1 ≤ s.repR ∧ 1 ≤ s.crcGen.length ∧ s.crcDeg = s.crcGen.length ∧
    s.fibCache = Config.fibSeed)

theorem inv_no_tree (s : State) (h : boundsOk s = true) (ht : s.hufHave = false)
    (h0 : s.hufNodes = [] ∧ s.hufRoot = none ∧ s.hufTable = []) : s.Inv := by
  obtain ⟨h1, h2, h3, h4, h5, h6⟩ := of_decide_eq_true h
  exact ⟨h1, h2, h3, h4, h5, h6 ▸ fibCacheOk_seed, fun _ => h0, fun h => by rw [ht] at h; cases h⟩

theorem boundsOk_default (s : State) (h : s.grK = 64 ∧ s.grSuflen = 6 ∧ s.repR = 3 ∧
    s.crcGen = Config.crcDefaultGen ∧ s.crcDeg = 4 ∧ s.fibCache = Config.fibSeed) : boundsOk s = true := by
  obtain ⟨h1, h2, h3, h4, h5, h6⟩ := h
  unfold boundsOk
  rw [h1, h2, h3, h4, h5, h6]
  decide +kernel

theorem inv_given (syms cells : List Nat) : (given syms cells).Inv :=
  inv_no_tree _ (boundsOk_default _ ⟨rfl, rfl, rfl, rfl, rfl, rfl⟩) rfl ⟨rfl, rfl, rfl⟩

theorem inv_withTree (m cells : List Nat) : (withTree m cells).Inv := by
  have h : boundsOk (withTree m cells) = true := boundsOk_default _ ⟨rfl, rfl, rfl, rfl, rfl, rfl⟩
  obtain ⟨h1, h2, h3, h4, h5, h6⟩ := of_decide_eq_true h
  exact ⟨h1, h2, h3, h4, h5, h6 ▸ fibCacheOk_seed, fun h => (by cases h), fun _ => ⟨txt m, rfl, rfl, rfl⟩⟩

/-- The reset state with these moves of the host to come. -/
def moves (l : List HostMove) : State := { State.reset with host := l }

theorem inv_moves (l : List HostMove) : (moves l).Inv :=
  inv_no_tree _ (boundsOk_default _ ⟨rfl, rfl, rfl, rfl, rfl, rfl⟩) rfl ⟨rfl, rfl, rfl⟩

/-- A command and the second one that takes its result. -/
def pair (w₁ w₂ : Byte) (syms cells : List Nat) : State :=
  moves [.command w₁ (txt syms) (cs cells) (.pInt 0), .chain w₂]

theorem nonzero {m : SymSeq} (h : m.all (fun v => v.val != 0) = true) : ∀ v ∈ m, v.val ≠ 0 := by
  simpa [List.all_eq_true] using h

theorem bad_at_start : FirstBad (cs [2, 0, 2]) 0 := by unfold FirstBad; decide
theorem bad_later : FirstBad (cs [1, 2]) 1 := by unfold FirstBad; decide
theorem zero_at_start : FirstZeroAt (txt [0, 5]) 0 := ⟨⟨0, rfl, rfl⟩, by decide⟩
theorem zero_later : FirstZeroAt (txt [72, 0]) 1 := by
  refine ⟨⟨0, rfl, rfl⟩, fun j hj v hv => ?_⟩
  obtain rfl : j = 0 := by omega
  cases hv
  decide

theorem test_hyp_DecodeInvertsEncode : decode 0x63#8 = .ok .hamCfg := by decide

theorem test_hyp_IllegalWordOutcome :
    (¬ ((0x80#8).toNat / 128 = 0 ∧ (0x80#8).toNat / 4 % 4 = 0 ∧ (0x80#8).toNat / 16 % 8 ≤ 6)) ∧
    (¬ ((0x04#8).toNat / 128 = 0 ∧ (0x04#8).toNat / 4 % 4 = 0 ∧ (0x04#8).toNat / 16 % 8 ≤ 6)) ∧
    (¬ ((0x70#8).toNat / 128 = 0 ∧ (0x70#8).toNat / 4 % 4 = 0 ∧ (0x70#8).toNat / 16 % 8 ≤ 6)) ∧
    (moves [.command 0x80#8 [] [] (.pInt 0)]).host = .command 0x80#8 [] [] (.pInt 0) :: [] ∧
    (moves [.chain 0x70#8]).host = .chain 0x70#8 :: [] := by decide

theorem test_hyp_StepRunsPresentedCommand : decode 0x00#8 = .ok .grEnc ∧ decode 0x63#8 = .ok .hamCfg ∧
    (pair 0x00#8 0x63#8 [65] []).host = .command 0x00#8 (txt [65]) (cs []) (.pInt 0) :: [.chain 0x63#8] ∧
    (moves [.chain 0x63#8]).host = .chain 0x63#8 :: [] := by decide

theorem test_hyp_IdleAndResetMoves : (moves []).host = [] ∧ (moves [.reset]).host = .reset :: [] := by decide

theorem test_hyp_EveryStepKeepsInv : (moves [.chain 0x30#8]).Inv ∧ (withTree [97, 98] [1]).Inv :=
  ⟨inv_moves _, inv_withTree _ _⟩

theorem test_hyp_OutcomesAreWellFormed : ∃ t, (moves [.reset]).Inv ∧ (moves [.reset]).host ≠ [] ∧
    step (moves [.reset]) = .next t := ⟨_, inv_moves _, by decide, rfl⟩

theorem test_hyp_ErrorTable : (∃ t, exec .repDec (given [] [1]) = .next t ∧
    decide (statusErr t.status ≠ 0#3) = true) ∧ (4, 1) ∈ allowedErrors .hufDec :=
  ⟨of_nx (P := fun t => decide (statusErr t.status ≠ 0#3)) (by decide), by decide⟩

theorem test_hyp_FailedCommandKeepsState : (given [] [0, 1]).Inv ∧ (∃ t, exec .fibDec (given [] [0, 1]) = .next t ∧
    decide (statusErr t.status ≠ 0#3) = true) ∧ ∃ t, exec .hufDec (given [] []) = .next t ∧
    decide (statusErr t.status ≠ 0#3) = true :=
  ⟨inv_given _ _, of_nx (P := fun t => decide (statusErr t.status ≠ 0#3)) (by decide),
    of_nx (P := fun t => decide (statusErr t.status ≠ 0#3)) (by decide)⟩

theorem test_hyp_UnitsOwnTheirState : (∃ t, exec .hufEnc (given [97] []) = .next t) ∧
    (∃ t, exec .grDec (given [] [1]) = .next t) ∧
    Instr.grDec ∉ [Instr.grCfg, .repCfg, .crcCfg, .hufEnc, .fibEnc, .fibDec] := ⟨⟨_, rfl⟩, ⟨_, rfl⟩, by decide⟩

theorem test_hyp_UnitsAreIndependent : SameUnit .gr (given [65] []) { withTree [97] [] with repR := 2, inSym := txt [65] } ∧
    (given [65] []).inSym = { withTree [97] [] with repR := 2, inSym := txt [65] : State }.inSym ∧
    ∃ t, exec .grEnc (given [65] []) = .next t := ⟨⟨rfl, rfl⟩, rfl, _, rfl⟩

theorem fibCache_longer : FibCacheOk [1, 2, 3, 5] := fibCacheOk_of_getD (by decide) (by decide)

theorem test_hyp_CacheIsInvisible : FibCacheOk [1, 2] ∧ FibCacheOk [1, 2, 3, 5] ∧
    SamePersistentButFib (given [] [0, 0, 1, 1]) { given [] [0, 0, 1, 1] with fibCache := [1, 2, 3, 5] } ∧
    ∃ t, exec .fibDec (given [] [0, 0, 1, 1]) = .next t :=
  ⟨fibCacheOk_seed, fibCache_longer, ⟨rfl, rfl, rfl, rfl, rfl, rfl, rfl, rfl, rfl⟩, _, rfl⟩

theorem test_hyp_ParametersPersist : (∃ t, Host.Core.run core 2 (moves [.chain 0x30#8, .chain 0x31#8]) = .next t) ∧
    (∀ mv ∈ (moves [.chain 0x30#8, .chain 0x31#8]).host.take 2, mv ≠ .reset) ∧
    (∀ mv ∈ (moves [.chain 0x30#8, .chain 0x31#8]).host.take 2, mv.word ≠ some 0x03#8) ∧
    ∀ mv ∈ (moves [.chain 0x43#8, .chain 0x53#8]).host.take 2, mv.word ≠ some 0x30#8 := ⟨⟨_, rfl⟩, by decide⟩

theorem test_hyp_ValAnswersForEnc : Instr.grVal.opOf = .val ∧ Instr.grEnc.opOf = .enc ∧
    Instr.grEnc.unitOf = Instr.grVal.unitOf ∧ Instr.hamEnc.unitOf = Instr.hamVal.unitOf ∧
    Instr.grVal.unitOf ∈ [UnitId.gr, .huf] ∧ Instr.fibVal.unitOf ∈ [UnitId.eg, .fib] ∧
    Instr.hamVal.unitOf ∈ [UnitId.rep, .crc, .ham] := by decide

theorem test_hyp_GrCfgSetsParameter : (param (.pInt 1)).param = .pInt 1 ∧ (1 : Int) ≤ 1 ∧
    (param (.pInt 0)).param = .pInt 0 ∧ (0 : Int) < 1 ∧ (param (.pGen (cs [1]))).param = .pGen (cs [1]) := by decide

theorem test_hyp_RepCfgSetsParameter : (param (.pInt 1)).param = .pInt 1 ∧ (1 : Int) ≤ 1 ∧
    (param (.pInt 0)).param = .pInt 0 ∧ (0 : Int) < 1 ∧ (param (.pGen [])).param = .pGen [] := by decide

theorem test_hyp_CrcCfgSetsGenerator : (param (.pGen (cellsOf [false]))).param = .pGen (cellsOf [false]) ∧
    [false] ≠ ([] : BitSeq) ∧ (param (.pGen [])).param = .pGen [] ∧ (param (.pGen (cs [2]))).param = .pGen (cs [2]) ∧
    .bX ∈ cs [2] ∧ (param (.pInt 9)).param = .pInt 9 := by decide

theorem test_hyp_CfgWithoutParameter : Instr.egCfg ∈ [Instr.egCfg, .fibCfg, .hufCfg, .hamCfg] ∧
    Instr.hamCfg ∈ [Instr.egCfg, .fibCfg, .hufCfg, .hamCfg] := by decide

theorem test_hyp_BinAndValAreInverse : 0 < 2 ^ 0 ∧ 3 < 2 ^ 2 := by decide

theorem test_hyp_LogarithmsAreExact : 1 ≤ 2 ^ 0 ∧ 65 ≤ 2 ^ 7 ∧ 2 ^ 6 ≤ 64 := by decide

theorem test_hyp_GrEncWritesCodewords : (given [0, 1114111] []).Inv := inv_given _ _

/-- A `k` whose suffixes reach past the symbols. -/
def wideK (cells : List Nat) : State := { given [] cells with grK := 2000000, grSuflen := 21 }

/-- 1114112 in 21 bits, and the stop bit before it: the least value that is no symbol. -/
def outWord : List Nat := [1, 1, 0, 0, 0, 1, 0, 0, 0, 0, 0, 0, 0, 0, 0, 0, 0, 0, 0, 0, 0, 0]

theorem test_hyp_GrDecReadsCodewords : (given [] [2, 0, 2]).Inv ∧ FirstBad (given [] [2, 0, 2]).inBit 0 ∧
    (given [] []).inBit = cellsOf (wordBits []) ∧
    (grWord 64 (clog2 64) (65 : Sym).val (bs [0, 1, 0, 0, 0, 0, 0, 1]) ∧
      (given [] [0, 1, 0, 0, 0, 0, 0, 1]).inBit = cellsOf (wordBits [(65, bs [0, 1, 0, 0, 0, 0, 0, 1])])) ∧
    (grCut (clog2 64) [false] ∧ (given [] [0]).inBit = cellsOf (wordBits [] ++ [false])) ∧
    (grCut (clog2 64) (bs [1, 0, 0, 0, 0, 0]) ∧
      (given [] [1, 0, 0, 0, 0, 0]).inBit = cellsOf (wordBits [] ++ bs [1, 0, 0, 0, 0, 0])) ∧
    (wideK outWord).Inv ∧ grWord 2000000 (clog2 2000000) 1114112 (bs outWord) ∧ Config.symMax < 1114112 ∧
    (wideK outWord).inBit = cellsOf (wordBits [] ++ bs outWord ++ []) := by
  refine ⟨inv_given _ _, bad_at_start, rfl, ⟨⟨1, bs [0, 0, 0, 0, 0, 1], by decide +kernel, rfl, by decide⟩, by decide⟩,
    ⟨.inl ⟨1, by decide, rfl⟩, by decide⟩, ⟨.inr ⟨0, bs [0, 0, 0, 0, 0], by decide +kernel, rfl⟩, by decide⟩,
    inv_no_tree _ (by decide +kernel) rfl ⟨rfl, rfl, rfl⟩,
    ⟨0, bs (outWord.drop 1), by decide +kernel, rfl, by decide⟩, by decide, by decide⟩

theorem test_hyp_GrRoundTrip : (pair 0x00#8 0x01#8 [0, 65] []).Inv ∧ (pair 0x00#8 0x01#8 [0, 65] []).host =
    .command 0x00#8 (txt [0, 65]) (cs []) (.pInt 0) :: .chain 0x01#8 :: [] := ⟨inv_moves _, rfl⟩

theorem test_hyp_EgEncWritesCodewords : FirstZeroAt (given [0, 5] []).inSym 0 ∧ FirstZeroAt (given [72, 0] []).inSym 1 ∧
    ∀ v ∈ (given [1, 1114111] []).inSym, v.val ≠ 0 := ⟨zero_at_start, zero_later, nonzero (by decide)⟩

/-- 1114112 less `2^20` in 20 bits, with the run before it: the least value that is no symbol. -/
def egOut : List Nat :=
  List.replicate 20 0 ++ [1, 0, 0, 0, 1, 0, 0, 0, 0, 0, 0, 0, 0, 0, 0, 0, 0, 0, 0, 0, 0]

theorem test_hyp_EgDecReadsCodewords : FirstBad (given [] [2, 0, 2]).inBit 0 ∧
    (given [] []).inBit = cellsOf (wordBits []) ∧
    (egWord (1 : Sym).val (bs [1]) ∧ (given [] [1]).inBit = cellsOf (wordBits [(1, bs [1])])) ∧
    (egCut [false] ∧ (given [] [0]).inBit = cellsOf (wordBits [] ++ [false])) ∧
    (egCut (bs [0, 1]) ∧ (given [] [0, 1]).inBit = cellsOf (wordBits [] ++ bs [0, 1])) ∧
    egWord 1114112 (bs egOut) ∧ Config.symMax < 1114112 ∧
    (given [] egOut).inBit = cellsOf (wordBits [] ++ bs egOut ++ []) :=
  ⟨bad_at_start, rfl, ⟨⟨[], rfl, rfl⟩, rfl⟩, ⟨.inl ⟨1, by decide, rfl⟩, rfl⟩, ⟨.inr ⟨1, [], by decide, rfl⟩, rfl⟩,
    ⟨bs (egOut.drop 21), rfl, by decide⟩, by decide, rfl⟩

theorem test_hyp_EgDecAcceptsImagesOnly : ∃ t, exec .egDec (given [] [1, 0, 1, 0]) = .next t ∧
    decide (statusErr t.status = 0#3) = true := of_nx (P := fun t => decide (statusErr t.status = 0#3)) (by decide)

theorem test_hyp_EgRoundTrip : (∀ v ∈ txt [1, 65], v.val ≠ 0) ∧ (pair 0x10#8 0x11#8 [1, 65] []).host =
    .command 0x10#8 (txt [1, 65]) (cs []) (.pInt 0) :: .chain 0x11#8 :: [] := ⟨nonzero (by decide), rfl⟩

theorem test_hyp_FibCacheIsExact : FibCacheOk [1, 2] ∧ FibCacheOk [1, 2, 3, 5] := ⟨fibCacheOk_seed, fibCache_longer⟩

theorem noPair_001 : NoPair (bs [0, 0, 1]) := by
  show NoPair ([false] ++ [false] ++ [true])
  exact NoPair.append_false_true (NoPair.append_false noPair_nil)

theorem noPair_1 : NoPair ([] ++ [true]) := by rintro ⟨s, t, h⟩; have := congrArg List.length h; simp at this; omega

theorem test_hyp_FibEncWritesCodewords : (given [3, 1] []).Inv ∧ FirstZeroAt (given [0, 5] []).inSym 0 ∧
    FirstZeroAt (given [72, 0] []).inSym 1 ∧ (∀ v ∈ (given [3, 1] []).inSym, v.val ≠ 0) ∧
    List.Forall₂ (fun (v : Sym) b => fibWord v.val b) (given [3, 1] []).inSym [bs [0, 0, 1, 1], bs [1, 1]] :=
  ⟨inv_given _ _, zero_at_start, zero_later, nonzero (by decide),
    .cons ⟨bs [0, 0], rfl, noPair_001, by decide⟩ (.cons ⟨[], rfl, noPair_1, by decide⟩ .nil)⟩

/-- 29 zeros and the pair of ones: the term `F(29)`, which is no symbol. -/
def fibOut : BitSeq := List.replicate 29 false ++ [true, true]

theorem noPair_zeros : ∀ n, NoPair (List.replicate n false)
  | 0 => noPair_nil
  | n + 1 => by rw [List.replicate_succ']; exact (noPair_zeros n).append_false

theorem noPair_fibOut : NoPair (List.replicate 29 false ++ [true]) := by
  rw [show (29 : Nat) = 28 + 1 from rfl, List.replicate_succ']
  exact (noPair_zeros 28).append_false_true

theorem test_hyp_FibDecReadsCodewords : (given [] [2, 0, 2]).Inv ∧ FirstBad (given [] [2, 0, 2]).inBit 0 ∧
    (given [] []).inBit = cellsOf (wordBits []) ∧
    (fibWord (1 : Sym).val (bs [1, 1]) ∧ (given [] [1, 1]).inBit = cellsOf (wordBits [(1, bs [1, 1])])) ∧
    (fibCut [true] ∧ (given [] [1, 1, 1]).inBit = cellsOf (wordBits [(1, bs [1, 1])] ++ [true])) ∧
    fibWord 1346269 fibOut ∧ Config.symMax < 1346269 ∧
    { given [] [] with inBit := cellsOf fibOut : State }.inBit = cellsOf (wordBits [] ++ fibOut ++ []) :=
  ⟨inv_given _ _, bad_at_start, rfl, ⟨⟨[], rfl, noPair_1, by decide⟩, rfl⟩, ⟨⟨by decide, noPair_1⟩, rfl⟩,
    ⟨List.replicate 29 false, rfl, noPair_fibOut, by decide +kernel⟩, by decide, rfl⟩

theorem test_hyp_FibDecAcceptsImagesOnly : (given [] [1, 0, 1, 1]).Inv ∧
    ∃ t, exec .fibDec (given [] [1, 0, 1, 1]) = .next t ∧ decide (statusErr t.status = 0#3) = true :=
  ⟨inv_given _ _, of_nx (P := fun t => decide (statusErr t.status = 0#3)) (by decide)⟩

theorem test_hyp_FibRoundTrip : (pair 0x20#8 0x21#8 [1, 72] []).Inv ∧ (∀ v ∈ txt [1, 72], v.val ≠ 0) ∧
    (pair 0x20#8 0x21#8 [1, 72] []).host =
      .command 0x20#8 (txt [1, 72]) (cs []) (.pInt 0) :: .chain 0x21#8 :: [] := ⟨inv_moves _, nonzero (by decide), rfl⟩

theorem test_hyp_HufEncWritesCodes : (∃ t, exec .hufEnc (given [97, 98] []) = .next t ∧ hufPart t [] ∧
      hufWord t 97 [false]) ∧ ∃ t, exec .hufEnc (given [97] []) = .next t ∧ hufWord t 97 [] :=
  ⟨⟨_, rfl, ⟨2, 2, 0, 1, by decide, by decide⟩, ⟨2, 1, by decide, by decide⟩⟩, _, rfl, 0, 1, by decide, by decide⟩

theorem test_hyp_HufDecWalksTree : ((given [] [1]).Inv ∧ (given [] [1]).hufHave = false) ∧
    ((withTree [97] [2, 0, 2]).Inv ∧ (withTree [97] [2, 0, 2]).hufHave = true ∧
      FirstBad (withTree [97] [2, 0, 2]).inBit 0) ∧
    ((withTree [] []).hufRoot = none ∧ (withTree [] []).inBit = []) ∧
    ((withTree [] [0]).hufRoot = none ∧ [false] ≠ [] ∧ (withTree [] [0]).inBit = cellsOf [false]) ∧
    (hufWord (withTree [97] []) 97 [] ∧ (withTree [97] []).inBit = cellsOf (List.replicate 0 false)) ∧
    (hufWord (withTree [97] [1]) 97 [] ∧ (withTree [97] [1]).inBit = cellsOf (List.replicate 0 false ++ true :: [])) ∧
    (hufPart (withTree [97, 98, 99] [0]) [] ∧ hufWord (withTree [97, 98, 99] [0]) 99 [false] ∧
      (withTree [97, 98, 99] [0]).inBit = cellsOf (wordBits [(99, [false])] ++ [])) ∧
    (hufPart (withTree [97, 98, 99] [1]) [true] ∧
      (withTree [97, 98, 99] [1]).inBit = cellsOf (wordBits [] ++ [true])) :=
  ⟨⟨inv_given _ _, rfl⟩, ⟨inv_withTree _ _, rfl, bad_at_start⟩, ⟨by decide, rfl⟩, ⟨by decide, by decide, rfl⟩,
    ⟨⟨0, 1, by decide, by decide⟩, rfl⟩, ⟨⟨0, 1, by decide, by decide⟩, rfl⟩,
    ⟨⟨4, 3, 2, 3, by decide, by decide⟩, ⟨4, 1, by decide, by decide⟩, rfl⟩,
    ⟨⟨4, 2, 0, 1, by decide, by decide⟩, rfl⟩⟩

theorem test_hyp_HufCodeIsPrefixFree : ∃ t, exec .hufEnc (given [97, 98, 99] []) = .next t ∧
    tableGet 99 t.hufTable = some [false] ∧ tableGet 97 t.hufTable = some [true, false] ∧ (99 : Sym) ≠ 97 :=
  ⟨_, rfl, by decide, by decide, by decide⟩

theorem test_hyp_HufLengthsFollowCounts : ∃ t, exec .hufEnc (given [97, 97, 98] []) = .next t ∧
    tableGet 98 t.hufTable = some [false] ∧ tableGet 97 t.hufTable = some [true] ∧
    (txt [97, 97, 98]).count 98 < (txt [97, 97, 98]).count 97 := ⟨_, rfl, by decide, by decide, by decide⟩

theorem test_hyp_HufRoundTrip : (pair 0x30#8 0x31#8 [97, 98] []).host =
    .command 0x30#8 (txt [97, 98]) (cs []) (.pInt 0) :: .chain 0x31#8 :: [] := rfl

theorem test_hyp_RepEncRepeatsBits : FirstBad (given [] [2, 0, 2]).inBit 0 ∧ FirstBad (given [] [1, 2]).inBit 1 ∧
    (given [] []).inBit = cellsOf [] ∧ (given [] [1, 0]).inBit = cellsOf [true, false] ∧
    1 < [true, false].length ∧ 2 < (given [] [1, 0]).repR := ⟨bad_at_start, bad_later, by decide⟩

theorem test_hyp_RepDecVotes : ((given [] [2, 0, 2]).Inv ∧ FirstBad (given [] [2, 0, 2]).inBit 0) ∧
    ((given [] [1]).inBit = cellsOf [true] ∧ [true].length % (given [] [1]).repR ≠ 0) ∧
    ((∀ b ∈ [bs [0, 0, 1], bs [1, 1, 1]], b.length = (given [] [0, 0, 1, 1, 1, 1]).repR) ∧
      (given [] [0, 0, 1, 1, 1, 1]).inBit = cellsOf [bs [0, 0, 1], bs [1, 1, 1]].flatten ∧
      ∀ b ∈ [bs [0, 0, 1], bs [1, 1, 1]], 2 * b.count true ≠ (given [] [0, 0, 1, 1, 1, 1]).repR) ∧
    ({ given [] [1, 1, 1, 0] with repR := 2 : State }.Inv ∧ (∀ b ∈ [bs [1, 1]] ++ bs [1, 0] :: [], b.length = 2) ∧
      { given [] [1, 1, 1, 0] with repR := 2 : State }.inBit = cellsOf ([bs [1, 1]] ++ bs [1, 0] :: []).flatten ∧
      (∀ b ∈ [bs [1, 1]], 2 * b.count true ≠ 2) ∧ 2 * (bs [1, 0]).count true = 2) :=
  ⟨⟨inv_given _ _, bad_at_start⟩, by decide, by decide, inv_no_tree _ rfl rfl ⟨rfl, rfl, rfl⟩, by decide⟩

theorem test_hyp_RepCorrectionPower : (given [] [1, 0, 1]).Inv ∧
    ((∀ p ∈ [(true, bs [0, 1, 0])], p.2.length = (given [] [1, 0, 1]).repR) ∧
      (given [] [1, 0, 1]).inBit = cellsOf ([(true, bs [0, 1, 0])].flatMap flippedBlock) ∧
      ∀ p ∈ [(true, bs [0, 1, 0])], 2 * p.2.count true ≠ (given [] [1, 0, 1]).repR) ∧
    { given [] [1, 0] with repR := 2 : State }.Inv ∧
    { given [] [1, 0] with repR := 2 : State }.inBit = cellsOf ([(true, bs [0, 1])].flatMap flippedBlock) ∧
    [(true, bs [0, 1])] = [] ++ (true, bs [0, 1]) :: [] ∧ 2 * (bs [0, 1]).count true = 2 :=
  ⟨inv_given _ _, by decide, inv_no_tree _ rfl rfl ⟨rfl, rfl, rfl⟩, by decide⟩

theorem test_hyp_RepRoundTrip : (pair 0x40#8 0x41#8 [] [1, 0]).Inv ∧ (pair 0x40#8 0x41#8 [] [1, 0]).host =
    .command 0x40#8 (txt []) (cellsOf [true, false]) (.pInt 0) :: .chain 0x41#8 :: [] := ⟨inv_moves _, by decide⟩

theorem test_hyp_CrcEncAppendsRemainder : (given [] []).Inv ∧ FirstBad (given [] [2, 0, 2]).inBit 0 ∧
    (given [] []).inBit = cellsOf [] := ⟨inv_given _ _, bad_at_start, rfl⟩

theorem test_hyp_CrcDecDivides : (given [] [2, 0, 2]).Inv ∧ FirstBad (given [] [2, 0, 2]).inBit 0 ∧
    ((given [] [1, 0]).inBit = cellsOf (bs [1, 0]) ∧ (bs [1, 0]).length < (given [] [1, 0]).crcGen.length - 1) ∧
    ((given [] [0, 0, 0]).inBit = cellsOf (bs [0, 0, 0]) ∧
      (given [] [0, 0, 0]).crcGen.length - 1 ≤ (bs [0, 0, 0]).length ∧
      true ∉ crcRem (given [] []).crcGen 4 (bs [0, 0, 0])) ∧
    (given [] [1, 0, 1]).inBit = cellsOf (bs [1, 0, 1]) ∧ true ∈ crcRem (given [] []).crcGen 4 (bs [1, 0, 1]) :=
  ⟨inv_given _ _, bad_at_start, by decide⟩

theorem test_hyp_CrcRemIsThePolynomialRemainder : [true].length = [false].length ∧
    ∃ Q, polyOf [true] = Q * polyOf (true :: [false]) + polyOf [true] := ⟨rfl, 0, by ring⟩

theorem test_hyp_CrcDocumentFormAgrees : 1 ≤ [true].length ∧ [true].length ≤ [false].length := by decide

theorem test_hyp_CrcLeadingBitIsInvisible : Instr.crcDec ∈ [Instr.crcEnc, .crcDec] ∧ 1 ≤ [false].length ∧
    { given [] [1, 1] with crcGen := [false, true], crcDeg := 2 : State }.Inv ∧
    ∃ t, exec .crcDec { given [] [1, 1] with crcGen := [false, true], crcDeg := 2 } = .next t :=
  ⟨by decide, by decide, inv_no_tree _ rfl rfl ⟨rfl, rfl, rfl⟩, _, rfl⟩

theorem test_hyp_CrcShortStrings : ([] : BitSeq).length < [false].length ∧ Instr.crcEnc ∈ [Instr.crcEnc, .crcDec] ∧
    { given [] [1, 0] with crcGen := [false], crcDeg := 1 : State }.Inv ∧
    { given [] [1, 0] with crcGen := [false], crcDeg := 1 : State }.inBit = cellsOf (bs [1, 0]) :=
  ⟨by decide, by decide, inv_no_tree _ rfl rfl ⟨rfl, rfl, rfl⟩, by decide⟩

theorem test_hyp_CrcRemLaws : 1 ≤ (bs [1, 0, 0, 1]).length ∧ (bs [1, 0]).length = (bs [0, 1]).length ∧
    bs [1, 0, 1, 1, 0, 1, 0] = bs [1, 0, 1, 1] ++ crcRem (bs [1, 0, 0, 1]) 4 (bs [1, 0, 1, 1] ++ bs [0, 0, 0]) ∧
    (bs [0, 1, 0, 0, 0, 0, 0]).length = (bs [1, 0, 1, 1, 0, 1, 0]).length := by decide

theorem test_hyp_CrcDetectsNonMultiples : (given [] [1]).Inv ∧ (given [] [1]).inBit = cellsOf [true] ∧
    (∃ t, exec .crcEnc (given [] [1]) = .next t ∧ (bs [0, 1, 0, 0]).length = t.outBit.length) ∧
    true ∈ (given [] [1]).crcGen.drop 1 ∧ (bs [0, 1, 0, 0]).count true = 1 ∧
    { given [] [1] with crcGen := bs [1, 0, 0, 0] : State }.Inv ∧ true ∉ (bs [1, 0, 0, 0]).drop 1 ∧
    (bs [1, 0, 0, 0]).count true = 1 ∧ true ∈ (bs [1, 0, 0, 0]).take [true].length :=
  ⟨inv_given _ _, rfl, ⟨_, rfl, by decide⟩, by decide, by decide, inv_no_tree _ rfl rfl ⟨rfl, rfl, rfl⟩, by decide⟩

theorem test_hyp_CrcRoundTrip : (pair 0x50#8 0x51#8 [] [1, 0]).Inv ∧ (pair 0x50#8 0x51#8 [] [1, 0]).host =
    .command 0x50#8 (txt []) (cellsOf [true, false]) (.pInt 0) :: .chain 0x51#8 :: [] := ⟨inv_moves _, by decide⟩

theorem test_hyp_HamEncWritesCodewords : FirstBad (given [] [2, 0, 2]).inBit 0 ∧ (given [] []).inBit = cellsOf [] ∧
    (given [] [1, 0, 1, 1, 0]).inBit = cellsOf (bs [1, 0, 1, 1, 0]) := ⟨bad_at_start, by decide⟩

theorem test_hyp_HamDecCorrectsOneFlip : (bs [1, 0, 1, 1, 0, 0, 1]).length = 7 ∧ FirstBad (given [] [2, 0, 2]).inBit 0 ∧
    ((given [] [1, 0, 1, 1, 0, 0]).inBit = cellsOf (bs [1, 0, 1, 1, 0, 0]) ∧ (bs [1, 0, 1, 1, 0, 0]).length % 7 ≠ 0) ∧
    (∀ p ∈ [(bs [1, 0, 1, 1], (none : Option Nat)), (bs [1, 0, 1, 1], some 6)], p.1.length = 4 ∧ ∀ i ∈ p.2, i < 7) ∧
    (given [] [1, 0, 1, 1, 0, 0, 1, 1, 0, 1, 1, 0, 0, 0]).inBit =
      cellsOf ([(bs [1, 0, 1, 1], (none : Option Nat)), (bs [1, 0, 1, 1], some 6)].flatMap hamReceived) :=
  ⟨by decide, bad_at_start, by decide, by decide, by decide⟩

theorem test_hyp_HamCodewordsAreThreeApart : [false, false, false, false] ≠ [false, false, false, true] := by decide

theorem test_hyp_HamRoundTrip : (pair 0x60#8 0x61#8 [] [1, 0]).host =
    .command 0x60#8 (txt []) (cellsOf [true, false]) (.pInt 0) :: .chain 0x61#8 :: [] := by decide

/-- A pair `U.ENC`, `U.DEC` of one unit whose `ENC` succeeds on the operand. -/
def encodes (e d : Instr) (s : State) : Bool :=
  decide (e.opOf = .enc ∧ d.opOf = .dec ∧ d.unitOf = e.unitOf) &&
    (nx (exec e s)).any fun t => decide (statusErr t.status = 0#3)

theorem test_hyp_DecInvertsEnc : (given [1, 72] [1, 0]).Inv ∧
    encodes .grEnc .grDec (given [1, 72] [1, 0]) = true ∧ encodes .egEnc .egDec (given [1, 72] [1, 0]) = true ∧
    encodes .fibEnc .fibDec (given [1, 72] [1, 0]) = true ∧ encodes .hufEnc .hufDec (given [1, 72] [1, 0]) = true ∧
    encodes .repEnc .repDec (given [1, 72] [1, 0]) = true ∧ encodes .crcEnc .crcDec (given [1, 72] [1, 0]) = true ∧
    encodes .hamEnc .hamDec (given [1, 72] [1, 0]) = true :=
  ⟨inv_given _ _, by decide, by decide, by decide, by decide, by decide, by decide, by decide⟩

end Sys2Proof.Tests
end

section
/-! The integer logarithms (spec/00_scope.md R12, spec/40_common.md R135). -/

namespace Sys2Proof.Machine

/-- `flog2(v)` is above every exponent that fits: the next power of two already passes `v`. -/
theorem flog2_greatest {v n : Nat} (h : 2 ^ n ≤ v) : n ≤ flog2 v := by
  have hpow : 2 ^ n < 2 ^ (flog2 v + 1) := h.trans_lt (lt_two_pow_flog2 v)
  exact Nat.lt_succ_iff.mp ((Nat.pow_lt_pow_iff_right Nat.one_lt_two).mp hpow)

/-- Settles O22: each logarithm's power is on its side of the number, and no other exponent there is nearer. -/
theorem logarithmsAreExact : Obligations.LogarithmsAreExact := by
  unfold Obligations.LogarithmsAreExact
  constructor
  · intro k _
    exact ⟨le_two_pow_clog2 k, fun _ => clog2_least⟩
  · intro v hv
    exact ⟨two_pow_flog2_le hv, fun _ => flog2_greatest⟩

end Sys2Proof.Machine
end

section
/-! The registers a command leaves as they were (spec/10_state.md R20, R40, spec/20_memory.md R72). -/

namespace Sys2Proof.Machine

theorem SameHost.trans {s t u : State} (h : SameHost s t) (h' : SameHost t u) : SameHost s u where
  cmd := h'.cmd.trans h.cmd
  inSym := h'.inSym.trans h.inSym
  inBit := h'.inBit.trans h.inBit
  param := h'.param.trans h.param
  host := h'.host.trans h.host

theorem SameUnit.trans {u : UnitId} {s t v : State} (h : SameUnit u s t) (h' : SameUnit u t v) :
    SameUnit u s v := by
  cases u <;> simp_all [SameUnit]

/-- Every register of a unit is a persistent register. -/
theorem SamePersistent.sameUnit {s t : State} (h : SamePersistent s t) (u : UnitId) : SameUnit u s t := by
  obtain ⟨hreg, hfib⟩ := h
  cases u with
  | gr => exact ⟨hreg.grK, hreg.grSuflen⟩
  | fib => exact hfib
  | huf => exact ⟨hreg.hufHave, hreg.hufNodes, hreg.hufRoot, hreg.hufTable⟩
  | rep => exact hreg.repR
  | crc => exact ⟨hreg.crcGen, hreg.crcDeg⟩
  | eg | ham => trivial

/-- Both ends of a command write the result registers alone (R64, R335). -/
theorem Ends.frame {i : Instr} {s t : State} (h : Ends i s t) : SamePersistent s t ∧ SameHost s t := by
  rcases h with ⟨rep, syms, bits, dg, rfl⟩ | ⟨c, rfl, -⟩
  · exact ⟨commit_samePersistent .., ⟨rfl, rfl, rfl, rfl, rfl⟩⟩
  · exact ⟨raise_samePersistent .., ⟨rfl, rfl, rfl, rfl, rfl⟩⟩

/-- Six commands set state; the others write nothing before they end (R72). -/
theorem Writes.eq_of_notMem {i : Instr} {s s' : State} (h : Writes i s s')
    (hi : i ∉ [Instr.grCfg, .repCfg, .crcCfg, .hufEnc, .fibEnc, .fibDec]) : s' = s := by
  cases i
  case grCfg | repCfg | crcCfg | hufEnc | fibEnc | fibDec => simp at hi
  all_goals exact h

/-- No command touches the ports or the host's moves to come (R20, R72). -/
theorem exec_sameHost {i : Instr} {s t : State} (h : exec i s = .next t) : SameHost s t := by
  obtain ⟨s', hw, he⟩ := exec_shape h
  exact hw.frame.1.trans he.frame.2

/-- Settles O12: a command is its own writes and then an end, and neither reaches another unit. -/
theorem unitsOwnTheirState : Obligations.UnitsOwnTheirState := by
  unfold Obligations.UnitsOwnTheirState
  intro i s t h
  obtain ⟨s', hw, he⟩ := exec_shape h
  obtain ⟨-, hunits, -⟩ := hw.frame
  refine ⟨exec_sameHost h, fun u hu => (hunits u hu).trans (he.frame.1.sameUnit u), fun hi => ?_⟩
  rw [← hw.eq_of_notMem hi]
  exact he.frame.1

end Sys2Proof.Machine
end

section
/-! The invariants under each write a command can make (spec/10_state.md R44). -/

namespace Sys2Proof.Machine

theorem clog2_grDefaultK : clog2 Config.grDefaultK = 6 := by decide

/-- Settles O7: the reset values keep their bounds, the cache is the seed, and there is no tree. -/
theorem invAtReset : Obligations.InvAtReset := by
  unfold Obligations.InvAtReset
  exact {
    grK_pos := by decide
    grSuflen_eq := clog2_grDefaultK.symm
    repR_pos := by decide
    crcGen_pos := by decide
    crcDeg_eq := rfl
    fibCache_ok := fibCacheOk_seed
    huf_empty := fun _ => ⟨rfl, rfl, rfl⟩
    huf_built := fun h => absurd h Bool.false_ne_true }

namespace State.Inv

variable {s : State}

theorem assertReset (s : State) : s.assertReset.Inv :=
  of_samePersistent invAtReset ⟨⟨rfl, rfl, rfl, rfl, rfl, rfl, rfl, rfl, rfl⟩, rfl⟩

theorem commit (hs : s.Inv) (rep : Report) (syms : SymSeq) (bits : BitSeq) (dg : List DiagRec) :
    (s.commit rep syms bits dg).Inv := hs.of_samePersistent (commit_samePersistent ..)

theorem raise (hs : s.Inv) (c : Cause) : (s.raise c).Inv := hs.of_samePersistent (raise_samePersistent ..)

theorem setGr (hs : s.Inv) {k : Nat} (hk : 1 ≤ k) : { s with grK := k, grSuflen := clog2 k }.Inv :=
  { hs with grK_pos := hk, grSuflen_eq := rfl }

theorem setRep (hs : s.Inv) {r : Nat} (hr : 1 ≤ r) : { s with repR := r }.Inv := { hs with repR_pos := hr }

theorem setCrc (hs : s.Inv) {g : BitSeq} (hg : 1 ≤ g.length) :
    { s with crcGen := g, crcDeg := g.length }.Inv :=
  { hs with crcGen_pos := hg, crcDeg_eq := rfl }

theorem setFib (hs : s.Inv) {c : List Nat} (hc : FibCacheOk c) : { s with fibCache := c }.Inv :=
  { hs with fibCache_ok := hc }

theorem installTree (hs : s.Inv) (m : SymSeq) : (s.installTree (hufBuild m)).Inv :=
  { hs with
    huf_empty := fun h => absurd h Bool.false_ne_true.symm
    huf_built := fun _ => ⟨m, rfl, rfl, rfl⟩ }

end State.Inv

end Sys2Proof.Machine
end

section
/-! The result registers at each end of a command (spec/10_state.md R23 to R26, spec/46_crc.md R271,
spec/60_exceptions.md R335). -/

namespace Sys2Proof.Machine

/-- The flags `CORR` and `DETECT` of a report say what the records `dg` hold, and the records keep the bounds
of R26 for a Repetition factor `r` and a generator of length `d` (R23, R271). -/
structure Report.Tells (rep : Report) (dg : List DiagRec) (r d : Nat) : Prop where
  corr_iff : rep.corr = true ↔ ∃ rec ∈ dg, rec.isCorrection = true
  detect_iff : rep.detect = true ↔ ∃ rec ∈ dg, rec.isCorrection = false
  records_ok : ∀ rec ∈ dg, rec.Ok r d

theorem Report.tells_nil {rep : Report} (hcorr : rep.corr = false) (hdetect : rep.detect = false) (r d : Nat) :
    rep.Tells [] r d where
  corr_iff := by simp [hcorr]
  detect_iff := by simp [hdetect]
  records_ok := by simp

/-- A decoder all of whose records are corrections reports them in `CORR` (R242, R304). -/
theorem tells_corrOf {dg : List DiagRec} {r d : Nat} (h : ∀ rec ∈ dg, rec.isCorrection = true ∧ rec.Ok r d) :
    Report.Tells { corr := corrOf dg } dg r d where
  corr_iff := by
    rw [corrOf_eq_true_iff]
    constructor
    · intro hne
      obtain ⟨rec, hrec⟩ := List.exists_mem_of_ne_nil dg hne
      exact ⟨rec, hrec, (h rec hrec).1⟩
    · rintro ⟨rec, hrec, -⟩
      exact List.ne_nil_of_mem hrec
  detect_iff := by
    constructor
    · intro hd
      cases hd
    · rintro ⟨rec, hrec, hf⟩
      exact absurd (h rec hrec).1 (by simp [hf])
  records_ok rec hrec := (h rec hrec).2

/-- A success whose report tells its records, with one result stream at most, is well formed. -/
theorem Succeeds.outcomeOk {t : State} {rep : Report} {syms : SymSeq} {bits : BitSeq} {dg : List DiagRec}
    (h : Succeeds t rep syms bits dg) (hone : syms = [] ∨ bits = []) (htells : rep.Tells dg t.repR t.crcGen.length) :
    OutcomeOk t := by
  obtain ⟨hstatus, herr, rfl, rfl, rfl⟩ := h
  constructor
  case status_zero => simp [hstatus]
  case err_code => simp [hstatus]
  case failed => simp [hstatus]
  case succeeded => exact fun _ => herr
  case one_stream => exact hone
  case corr_iff => simpa [hstatus] using htells.corr_iff
  case detect_iff => simpa [hstatus] using htells.detect_iff
  case records_ok => exact htells.records_ok

theorem ErrCode.bits_le (e : ErrCode) : e.bits ≤ 5#3 := by cases e <;> decide

/-- Every error outcome is well formed (R335). -/
theorem raise_outcomeOk (c : Cause) (s : State) : OutcomeOk (s.raise c) := by
  constructor
  case status_zero => simp
  case err_code => simpa using c.code.bits_le
  case failed => exact fun _ => ⟨by rw [State.raise_status, statusErr_errStatus]; rfl, rfl, rfl, rfl⟩
  case succeeded => exact fun h => absurd (by simpa using h) (code_bits_ne_zero c)
  case one_stream => exact .inl rfl
  case corr_iff => simp
  case detect_iff => simp
  case records_ok => simp

/-- The reset values are those of a success with no report and no result (R371). -/
theorem assertReset_outcomeOk (s : State) : OutcomeOk s.assertReset :=
  have h : Succeeds s.assertReset {} [] [] [] := ⟨by rw [State.assertReset_status]; decide, rfl, rfl, rfl, rfl⟩
  h.outcomeOk (.inl rfl) (Report.tells_nil rfl rfl _ _)

/-! ## The records of the decoders -/

theorem repDecode_tells {r : Nat} (hr : 1 ≤ r) (d : Nat) {bits out : BitSeq} {rep : Report} {dg : List DiagRec}
    (h : repDecode r bits = .ok (rep, out, dg)) : rep.Tells dg r d := by
  by_cases hlen : bits.length % r = 0
  · have hwhole := Nat.div_mul_cancel (Nat.dvd_of_mod_eq_zero hlen)
    obtain ⟨blks, rfl, -, hblks⟩ := exists_blocks (bits.length / r) bits hwhole.symm
    rw [repDecode_blocks hr hblks] at h
    split at h <;> cases h
    rename_i hv
    refine tells_corrOf fun rec hrec => ?_
    obtain ⟨i, blk, m, rfl, hblk⟩ := repVote_records hblks hv rec hrec
    exact ⟨rfl, hblk⟩
  · simp [repDecode, hlen] at h

theorem hamDecode_tells (r d : Nat) {bits out : BitSeq} {rep : Report} {dg : List DiagRec}
    (h : hamDecode bits = .ok (rep, out, dg)) : rep.Tells dg r d := by
  obtain ⟨out', dg', hblocks, hrecs⟩ := hamDecodeBlocks_ok bits.length bits 0 le_rfl
  unfold hamDecode at h
  rw [hblocks] at h
  split at h <;> cases h
  exact tells_corrOf fun rec hrec => ⟨(hrecs rec hrec).1, (hrecs rec hrec).2 r d⟩

/-- The remainder is recorded, and `DETECT` set, exactly when it is not all zeros (R270, R271). -/
theorem crcDecode_tells {G : BitSeq} (hG : 1 ≤ G.length) (r : Nat) {bits out : BitSeq} {rep : Report}
    {dg : List DiagRec} (h : crcDecode G G.length bits = .ok (rep, out, dg)) : rep.Tells dg r G.length := by
  have hlen := crcRem_length hG bits
  simp only [crcDecode] at h
  split at h
  · cases h
  · split at h <;> cases h
    · exact Report.tells_nil rfl rfl _ _
    · rename_i hrem
      have hone : true ∈ crcRem G G.length bits := by
        by_contra hno
        exact hrem (List.eq_replicate_iff.2 ⟨hlen, fun b hb => Bool.eq_false_iff.2 fun hb' => hno (hb' ▸ hb)⟩)
      constructor <;> simp [DiagRec.isCorrection, DiagRec.Ok, hlen, hone]

end Sys2Proof.Machine
end

section
/-! Every command from a state with the invariants ends in one with them, and with a well-formed outcome
(spec/10_state.md R44, spec/40_common.md R120, R137). -/

namespace Sys2Proof.Machine

/-- The outcome is a next state, with the invariants and with well-formed result registers. -/
def EndsSound (o : StepOutcome) : Prop := ∃ t, o = .next t ∧ t.Inv ∧ OutcomeOk t

namespace EndsSound

variable {s : State} (hs : s.Inv)

include hs

theorem raise (c : Cause) : EndsSound (.next (s.raise c)) := ⟨_, rfl, hs.raise c, raise_outcomeOk c s⟩

theorem commit {rep : Report} {syms : SymSeq} {bits : BitSeq} {dg : List DiagRec} (hone : syms = [] ∨ bits = [])
    (htells : rep.Tells dg s.repR s.crcGen.length) : EndsSound (.next (s.commit rep syms bits dg)) :=
  ⟨_, rfl, hs.commit .., (commit_succeeds ..).outcomeOk hone htells⟩

/-- The end of a command that writes bits and no record. -/
theorem plainBits {rep : Report} (hcorr : rep.corr = false) (hdetect : rep.detect = false) (bits : BitSeq) :
    EndsSound (.next (s.commit rep [] bits [])) := commit hs (.inl rfl) (Report.tells_nil hcorr hdetect _ _)

theorem answer (valid : Bit) : EndsSound (.next (s.answer valid)) := plainBits hs rfl rfl []

theorem configured (rej : Bit) : EndsSound (.next (s.configured rej)) := plainBits hs rfl rfl []

theorem endSyms (r : Except Cause SymSeq) : EndsSound (.next (s.endSyms r)) := by
  cases r with
  | ok syms => exact commit hs (.inr rfl) (Report.tells_nil rfl rfl _ _)
  | error c => exact raise hs c

theorem endBits {r : Except Cause (Report × BitSeq × List DiagRec)}
    (h : ∀ rep bits dg, r = .ok (rep, bits, dg) → rep.Tells dg s.repR s.crcGen.length) :
    EndsSound (.next (s.endBits r)) := by
  rcases endBits_cases r s with ⟨rep, bits, dg, hr, he⟩ | ⟨c, -, he⟩ <;> rw [he]
  · exact commit hs (.inl rfl) (h rep bits dg hr)
  · exact raise hs c

end EndsSound

section commands

variable {s : State} (hs : s.Inv)

include hs

theorem execGrDec_endsSound : EndsSound (execGrDec s) := by
  unfold execGrDec
  split
  · exact .raise hs _
  · exact .endSyms hs _

theorem execGrCfg_endsSound : EndsSound (execGrCfg s) := by
  unfold execGrCfg
  split
  · split
    · exact .configured (hs.setGr (by omega)) _
    · exact .configured hs _
  · exact .configured hs _

theorem execEgEnc_endsSound : EndsSound (execEgEnc s) := by
  unfold execEgEnc
  split
  · exact .raise hs _
  · exact .plainBits hs rfl rfl _

theorem execEgDec_endsSound : EndsSound (execEgDec s) := by
  unfold execEgDec
  split
  · exact .raise hs _
  · exact .endSyms hs _

theorem execFibEnc_endsSound : EndsSound (execFibEnc s) := by
  rcases symbolCheck_cases s.inSym with ⟨i, -, hc⟩ | ⟨hpos, -, hc⟩ <;> simp only [execFibEnc, hc]
  · exact .raise hs _
  · have hcache := (fibEncode_spec (s.inSym.map Fin.val) hs.fibCache_ok (by simpa using hpos)).1
    exact .plainBits (hs.setFib hcache) rfl rfl _

theorem execFibDec_endsSound : EndsSound (execFibDec s) := by
  unfold execFibDec
  split
  · exact .raise hs _
  · exact .endSyms (hs.setFib (fibDecode_cache hs.fibCache_ok _).1) _

/-- The table `HUF.ENC` has just built holds every symbol of its operand, so the fault is not reached (R137). -/
theorem execHufEnc_endsSound : EndsSound (execHufEnc s) := by
  simp only [execHufEnc, hufEncode_build]
  exact .plainBits (hs.installTree s.inSym) rfl rfl _

/-- The arena is that of a text, so the walk finds every node it asks for and the fault is not reached (R137). -/
theorem execHufDec_endsSound : EndsSound (execHufDec s) := by
  unfold execHufDec
  split
  · exact .raise hs _
  · rename_i hhave
    split
    · exact .raise hs _
    · rename_i bits _
      obtain ⟨m, hnodes, hroot, -⟩ := hs.huf_built (by simpa using hhave)
      obtain ⟨r, hr, -⟩ := hufDecode_build m bits
      rw [hnodes, hroot, hr]
      exact .endSyms hs r

theorem execRepEnc_endsSound : EndsSound (execRepEnc s) := by
  unfold execRepEnc
  split
  · exact .raise hs _
  · exact .plainBits hs rfl rfl _

theorem execRepDec_endsSound : EndsSound (execRepDec s) := by
  unfold execRepDec
  split
  · exact .raise hs _
  · exact .endBits hs fun _ _ _ h => repDecode_tells hs.repR_pos _ h

theorem execRepCfg_endsSound : EndsSound (execRepCfg s) := by
  unfold execRepCfg
  split
  · split
    · exact .configured (hs.setRep (by omega)) _
    · exact .configured hs _
  · exact .configured hs _

theorem execCrcEnc_endsSound : EndsSound (execCrcEnc s) := by
  unfold execCrcEnc
  split
  · exact .raise hs _
  · exact .plainBits hs rfl rfl _

theorem execCrcDec_endsSound : EndsSound (execCrcDec s) := by
  unfold execCrcDec
  split
  · exact .raise hs _
  · rw [hs.crcDeg_eq]
    exact .endBits hs fun _ _ _ h => crcDecode_tells hs.crcGen_pos _ h

theorem execCrcCfg_endsSound : EndsSound (execCrcCfg s) := by
  unfold execCrcCfg
  split
  · rename_i g _
    split
    · rename_i hg
      have hinv := hs.setCrc (g := g.map cellBit) (by simpa using hg.1)
      rw [List.length_map] at hinv
      exact .configured hinv _
    · exact .configured hs _
  · exact .configured hs _

theorem execHamEnc_endsSound : EndsSound (execHamEnc s) := by
  unfold execHamEnc
  split
  · exact .raise hs _
  · exact .plainBits hs rfl rfl _

theorem execHamDec_endsSound : EndsSound (execHamDec s) := by
  unfold execHamDec
  split
  · exact .raise hs _
  · exact .endBits hs fun _ _ _ h => hamDecode_tells _ _ h

/-- Every command ends sound; `VAL`, most `CFG` and `GR.ENC` are one of the ends themselves. -/
theorem exec_endsSound (i : Instr) : EndsSound (exec i s) := by
  cases i with
  | grEnc => exact .plainBits hs rfl rfl _
  | grDec => exact execGrDec_endsSound hs
  | grCfg => exact execGrCfg_endsSound hs
  | egEnc => exact execEgEnc_endsSound hs
  | egDec => exact execEgDec_endsSound hs
  | fibEnc => exact execFibEnc_endsSound hs
  | fibDec => exact execFibDec_endsSound hs
  | hufEnc => exact execHufEnc_endsSound hs
  | hufDec => exact execHufDec_endsSound hs
  | repEnc => exact execRepEnc_endsSound hs
  | repDec => exact execRepDec_endsSound hs
  | repCfg => exact execRepCfg_endsSound hs
  | crcEnc => exact execCrcEnc_endsSound hs
  | crcDec => exact execCrcDec_endsSound hs
  | crcCfg => exact execCrcCfg_endsSound hs
  | hamEnc => exact execHamEnc_endsSound hs
  | hamDec => exact execHamDec_endsSound hs
  | grVal | egVal | fibVal | hufVal | repVal | crcVal | hamVal => exact .answer hs _
  | egCfg | fibCfg | hufCfg | hamCfg => exact .configured hs _

/-- The command at the ports ends sound, an illegal word included (R96). -/
theorem runCommand_endsSound : EndsSound (runCommand s) := by
  rcases runCommand_cases s with ⟨i, -, h⟩ | ⟨-, h⟩ <;> rw [h]
  · exact exec_endsSound hs i
  · exact .raise hs _

end commands

/-! ## The step -/

theorem runCommand_host {s t : State} (h : runCommand s = .next t) : t.host = s.host := by
  rcases runCommand_cases s with ⟨i, -, hrun⟩ | ⟨-, hrun⟩ <;> rw [hrun] at h
  · exact (exec_sameHost h).host
  · cases h
    rfl

/-- The host's move is used up when it issues a command (R60, R73). -/
theorem nextMove_command_host {s s' : State} (h : s.nextMove = (.command, s')) : s'.host = s.host.tail := by
  unfold State.nextMove at h
  split at h
  case h_1 => cases h
  case h_2 => cases h
  case h_3 hhost =>
    cases h
    simp [hhost]
  case h_4 hhost =>
    cases h
    simp [hhost, State.presentResult]

/-- A step is idle, or it uses up a move of the host and ends sound (R44, R120). -/
theorem step_idle_or_endsSound {s : State} (hs : s.Inv) :
    (s.host = [] ∧ step s = .next s) ∨
      ∃ t, step s = .next t ∧ t.Inv ∧ OutcomeOk t ∧ t.host = s.host.tail := by
  rcases step_cases s with hidle | ⟨rest, hhost, hstep⟩ | ⟨s', hmove, hstep⟩
  · exact .inl hidle
  · exact .inr ⟨_, hstep, .assertReset _, assertReset_outcomeOk _, by simp [hhost]⟩
  · have hs' : s'.Inv := hs.of_samePersistent (nextMove_command_frame hmove).1
    obtain ⟨t, hrun, hinv, hout⟩ := runCommand_endsSound hs'
    exact .inr ⟨t, hstep.trans hrun, hinv, hout, (runCommand_host hrun).trans (nextMove_command_host hmove)⟩

/-- Settles O8: an idle step keeps the state, and every other one ends sound. -/
theorem everyStepKeepsInv : Obligations.EveryStepKeepsInv := by
  unfold Obligations.EveryStepKeepsInv
  intro s hs
  rcases step_idle_or_endsSound hs with ⟨hhost, hstep⟩ | ⟨t, hstep, hinv, -, hhost⟩
  · exact ⟨s, hstep, hs, by simp [hhost]⟩
  · exact ⟨t, hstep, hinv, hhost⟩

/-- Settles O9: a step with a move to take is not idle, so it ends sound. -/
theorem outcomesAreWellFormed : Obligations.OutcomesAreWellFormed := by
  unfold Obligations.OutcomesAreWellFormed
  intro s t hs hne hstep
  rcases step_idle_or_endsSound hs with ⟨hhost, -⟩ | ⟨t', hstep', -, hout, -⟩
  · exact absurd hhost hne
  · obtain rfl : t' = t := by simpa [hstep'] using hstep
    exact hout

end Sys2Proof.Machine
end

section
/-! What a command reads: its operand and the registers of its own unit (spec/20_memory.md R73,
spec/40_common.md R120, spec/60_exceptions.md R337, spec/70_reset_and_hazards.md R384). -/

namespace Sys2Proof.Machine

/-- The operand ports carry the same in the two states (R61). -/
structure SameOperand (s t : State) : Prop where
  inSym : t.inSym = s.inSym
  inBit : t.inBit = s.inBit
  param : t.param = s.param

/-- The two outcomes are next states that agree in the result registers and in the registers of unit `u`, or
they are the same fault. -/
inductive EndsAlike (u : UnitId) : StepOutcome → StepOutcome → Prop
  | next {t₁ t₂ : State} (hout : SameOutcome t₁ t₂) (hunit : SameUnit u t₁ t₂) :
      EndsAlike u (.next t₁) (.next t₂)
  | fault (r : Fault) : EndsAlike u (.fault r) (.fault r)

namespace EndsAlike

variable {u : UnitId} {s₁ s₂ : State}

theorem exists_next {t₁ : State} {o : StepOutcome} (h : EndsAlike u (.next t₁) o) :
    ∃ t₂, o = .next t₂ ∧ SameOutcome t₁ t₂ ∧ SameUnit u t₁ t₂ := by
  cases h with
  | next hout hunit => exact ⟨_, rfl, hout, hunit⟩

/-! Each end of a command writes the same results over either state. -/

theorem commit (h : SameUnit u s₁ s₂) (rep : Report) (syms : SymSeq) (bits : BitSeq) (dg : List DiagRec) :
    EndsAlike u (.next (s₁.commit rep syms bits dg)) (.next (s₂.commit rep syms bits dg)) :=
  next ⟨rfl, rfl, rfl, rfl, rfl⟩ h

theorem raise (h : SameUnit u s₁ s₂) (c : Cause) : EndsAlike u (.next (s₁.raise c)) (.next (s₂.raise c)) :=
  next ⟨rfl, rfl, rfl, rfl, rfl⟩ h

theorem answer (h : SameUnit u s₁ s₂) {v₁ v₂ : Bit} (hv : v₂ = v₁) :
    EndsAlike u (.next (s₁.answer v₁)) (.next (s₂.answer v₂)) := by
  subst hv
  exact commit h ..

theorem configured (h : SameUnit u s₁ s₂) (rej : Bit) :
    EndsAlike u (.next (s₁.configured rej)) (.next (s₂.configured rej)) := commit h ..

theorem endSyms (h : SameUnit u s₁ s₂) (r : Except Cause SymSeq) :
    EndsAlike u (.next (s₁.endSyms r)) (.next (s₂.endSyms r)) := by
  cases r with
  | ok syms => exact commit h ..
  | error c => exact raise h c

theorem endBits (h : SameUnit u s₁ s₂) (r : Except Cause (Report × BitSeq × List DiagRec)) :
    EndsAlike u (.next (s₁.endBits r)) (.next (s₂.endBits r)) := by
  cases r with
  | ok res => exact commit h ..
  | error c => exact raise h c

end EndsAlike

section commands

variable {s₁ s₂ : State} (hop : SameOperand s₁ s₂)

include hop

theorem execGrEnc_alike (h : SameUnit .gr s₁ s₂) : EndsAlike .gr (execGrEnc s₁) (execGrEnc s₂) := by
  have ⟨hk, hw⟩ := h
  simp only [execGrEnc, hop.inSym, hk, hw]
  exact .commit h ..

theorem execGrDec_alike (h : SameUnit .gr s₁ s₂) : EndsAlike .gr (execGrDec s₁) (execGrDec s₂) := by
  have ⟨hk, hw⟩ := h
  simp only [execGrDec, hop.inBit, hk, hw]
  cases alphabetCheck .decNonBinary s₁.inBit with
  | error c => exact .raise h c
  | ok bits => exact .endSyms h _

theorem execGrCfg_alike (h : SameUnit .gr s₁ s₂) : EndsAlike .gr (execGrCfg s₁) (execGrCfg s₂) := by
  simp only [execGrCfg, hop.param]
  split
  · split
    · refine .configured ?_ _
      exact ⟨rfl, rfl⟩
    · exact .configured h _
  · exact .configured h _

theorem execEgEnc_alike (h : SameUnit .eg s₁ s₂) : EndsAlike .eg (execEgEnc s₁) (execEgEnc s₂) := by
  simp only [execEgEnc, hop.inSym]
  cases symbolCheck s₁.inSym with
  | error c => exact .raise h c
  | ok m => exact .commit h ..

theorem execEgDec_alike (h : SameUnit .eg s₁ s₂) : EndsAlike .eg (execEgDec s₁) (execEgDec s₂) := by
  simp only [execEgDec, hop.inBit]
  cases alphabetCheck .decNonBinary s₁.inBit with
  | error c => exact .raise h c
  | ok bits => exact .endSyms h _

/-- `FIB.ENC` leaves the same cache in both states, since it starts from the same one (R195). -/
theorem execFibEnc_alike (h : SameUnit .fib s₁ s₂) : EndsAlike .fib (execFibEnc s₁) (execFibEnc s₂) := by
  have hcache : s₂.fibCache = s₁.fibCache := h
  simp only [execFibEnc, hop.inSym, hcache]
  cases symbolCheck s₁.inSym with
  | error c => exact .raise h c
  | ok m =>
    refine .commit ?_ ..
    rfl

theorem execFibDec_alike (h : SameUnit .fib s₁ s₂) : EndsAlike .fib (execFibDec s₁) (execFibDec s₂) := by
  have hcache : s₂.fibCache = s₁.fibCache := h
  simp only [execFibDec, hop.inBit, hcache]
  cases alphabetCheck .decNonBinary s₁.inBit with
  | error c => exact .raise h c
  | ok bits =>
    refine .endSyms ?_ _
    rfl

/-- `HUF.ENC` replaces the whole tree by the one it builds from its operand, whatever stood there (R214). -/
theorem execHufEnc_alike : EndsAlike .huf (execHufEnc s₁) (execHufEnc s₂) := by
  simp only [execHufEnc, hop.inSym, hufEncode_build]
  refine .commit ?_ ..
  exact ⟨rfl, rfl, rfl, rfl⟩

theorem execHufDec_alike (h : SameUnit .huf s₁ s₂) : EndsAlike .huf (execHufDec s₁) (execHufDec s₂) := by
  have ⟨hhave, hnodes, hroot, _⟩ := h
  simp only [execHufDec, hop.inBit, hhave, hnodes, hroot]
  split
  · exact .raise h _
  · cases alphabetCheck .decNonBinary s₁.inBit with
    | error c => exact .raise h c
    | ok bits =>
      dsimp only
      cases hufDecode s₁.hufNodes s₁.hufRoot bits with
      | none => exact .fault _
      | some r => exact .endSyms h r

theorem execRepEnc_alike (h : SameUnit .rep s₁ s₂) : EndsAlike .rep (execRepEnc s₁) (execRepEnc s₂) := by
  have hr : s₂.repR = s₁.repR := h
  simp only [execRepEnc, hop.inBit, hr]
  cases alphabetCheck .encNonBinary s₁.inBit with
  | error c => exact .raise h c
  | ok bits => exact .commit h ..

theorem execRepDec_alike (h : SameUnit .rep s₁ s₂) : EndsAlike .rep (execRepDec s₁) (execRepDec s₂) := by
  have hr : s₂.repR = s₁.repR := h
  simp only [execRepDec, hop.inBit, hr]
  cases alphabetCheck .decNonBinary s₁.inBit with
  | error c => exact .raise h c
  | ok bits => exact .endBits h _

theorem execRepCfg_alike (h : SameUnit .rep s₁ s₂) : EndsAlike .rep (execRepCfg s₁) (execRepCfg s₂) := by
  simp only [execRepCfg, hop.param]
  split
  · split
    · refine .configured ?_ _
      rfl
    · exact .configured h _
  · exact .configured h _

theorem execCrcEnc_alike (h : SameUnit .crc s₁ s₂) : EndsAlike .crc (execCrcEnc s₁) (execCrcEnc s₂) := by
  have ⟨hgen, hdeg⟩ := h
  simp only [execCrcEnc, hop.inBit, hgen, hdeg]
  cases alphabetCheck .encNonBinary s₁.inBit with
  | error c => exact .raise h c
  | ok bits => exact .commit h ..

theorem execCrcDec_alike (h : SameUnit .crc s₁ s₂) : EndsAlike .crc (execCrcDec s₁) (execCrcDec s₂) := by
  have ⟨hgen, hdeg⟩ := h
  simp only [execCrcDec, hop.inBit, hgen, hdeg]
  cases alphabetCheck .decNonBinary s₁.inBit with
  | error c => exact .raise h c
  | ok bits => exact .endBits h _

theorem execCrcCfg_alike (h : SameUnit .crc s₁ s₂) : EndsAlike .crc (execCrcCfg s₁) (execCrcCfg s₂) := by
  simp only [execCrcCfg, hop.param]
  split
  · split
    · refine .configured ?_ _
      exact ⟨rfl, rfl⟩
    · exact .configured h _
  · exact .configured h _

theorem execHamEnc_alike (h : SameUnit .ham s₁ s₂) : EndsAlike .ham (execHamEnc s₁) (execHamEnc s₂) := by
  simp only [execHamEnc, hop.inBit]
  cases alphabetCheck .encNonBinary s₁.inBit with
  | error c => exact .raise h c
  | ok bits => exact .commit h ..

theorem execHamDec_alike (h : SameUnit .ham s₁ s₂) : EndsAlike .ham (execHamDec s₁) (execHamDec s₂) := by
  simp only [execHamDec, hop.inBit]
  cases alphabetCheck .decNonBinary s₁.inBit with
  | error c => exact .raise h c
  | ok bits => exact .endBits h _

/-- Every command ends alike from two states that agree in the operand and in the command's own unit. -/
theorem exec_alike (i : Instr) (h : SameUnit i.unitOf s₁ s₂) :
    EndsAlike i.unitOf (exec i s₁) (exec i s₂) := by
  cases i with
  | grEnc => exact execGrEnc_alike hop h
  | grDec => exact execGrDec_alike hop h
  | grCfg => exact execGrCfg_alike hop h
  | egEnc => exact execEgEnc_alike hop h
  | egDec => exact execEgDec_alike hop h
  | fibEnc => exact execFibEnc_alike hop h
  | fibDec => exact execFibDec_alike hop h
  | hufEnc => exact execHufEnc_alike hop
  | hufDec => exact execHufDec_alike hop h
  | repEnc => exact execRepEnc_alike hop h
  | repDec => exact execRepDec_alike hop h
  | repCfg => exact execRepCfg_alike hop h
  | crcEnc => exact execCrcEnc_alike hop h
  | crcDec => exact execCrcDec_alike hop h
  | crcCfg => exact execCrcCfg_alike hop h
  | hamEnc => exact execHamEnc_alike hop h
  | hamDec => exact execHamDec_alike hop h
  | grVal | hufVal => exact .answer h rfl
  | egVal | fibVal => exact .answer h (by rw [hop.inSym])
  | repVal | crcVal | hamVal => exact .answer h (by rw [hop.inBit])
  | egCfg | fibCfg | hufCfg | hamCfg => exact .configured h _

end commands

/-- Settles O13: each command reads its operand and its own unit alone, so it ends alike in the two states. -/
theorem unitsAreIndependent : Obligations.UnitsAreIndependent := by
  unfold Obligations.UnitsAreIndependent
  intro i s₁ s₂ t₁ hsym hbit hparam hunit hexec
  have halike := exec_alike ⟨hsym, hbit, hparam⟩ i hunit
  rw [hexec] at halike
  exact halike.exists_next

end Sys2Proof.Machine
end

section
/-! The decoder and the words of the commands (spec/30_encoding.md R90 to R93). -/

namespace Sys2Proof.Machine

theorem wellFormed_eq_true (i : Instr) : wellFormed i = true := by
  cases i <;> rfl

/-- A word is its four fields, `Z1` the highest (R90). -/
theorem append_fields (w : Byte) : fieldZ1 w ++ fieldUnit w ++ fieldZ0 w ++ fieldOp w = w := by
  unfold fieldZ1 fieldUnit fieldZ0 fieldOp
  rw [BitVec.extractLsb'_append_extractLsb'_eq_extractLsb' (show 7 = 4 + 3 from rfl),
    BitVec.extractLsb'_append_extractLsb'_eq_extractLsb' (show 4 = 2 + 2 from rfl),
    BitVec.extractLsb'_append_extractLsb'_eq_extractLsb' (show 2 = 0 + 2 from rfl)]
  exact BitVec.extractLsb'_eq_self

theorem encodeUnit_of_decodeUnit {x : BitVec 3} {u : UnitId} (h : decodeUnit x = some u) : encodeUnit u = x := by
  revert x u
  decide

theorem encodeOp_decodeOp (x : BitVec 2) : encodeOp (decodeOp x) = x := by
  revert x
  decide

theorem encode_instrOf (u : UnitId) (o : Op) : encode (instrOf u o) = 0#1 ++ encodeUnit u ++ 0#2 ++ encodeOp o := by
  cases u <;> cases o <;> rfl

/-- A word decodes to no command but the one whose word it is (R90 to R93). -/
theorem eq_encode_of_decode {w : Byte} {i : Instr} (h : decode w = .ok i) : w = encode i := by
  unfold decode at h
  split at h
  · cases h
  · split at h
    · cases h
    · rename_i hz1 hz0
      split at h
      · cases h
      · rename_i u hu
        cases h
        rw [encode_instrOf, encodeUnit_of_decodeUnit hu, encodeOp_decodeOp, ← not_ne_iff.mp hz1,
          ← not_ne_iff.mp hz0, append_fields]

end Sys2Proof.Machine
end

section
/-! The step that takes a command (spec/20_memory.md R60, R62, R73, spec/40_common.md R120). -/

namespace Sys2Proof.Machine

theorem runCommand_of_decode {s : State} {i : Instr} (h : decode s.cmd = .ok i) : runCommand s = exec i s := by
  rcases runCommand_cases s with ⟨j, hj, hrun⟩ | ⟨⟨e, he⟩, -⟩
  · rw [h] at hj
    cases hj
    exact hrun
  · rw [h] at he
    cases he

theorem step_of_command {s : State} {w : Byte} {i : Instr} {syms : SymSeq} {cells : CellSeq} {p : Param}
    {rest : List HostMove} (hw : decode w = .ok i) (hhost : s.host = .command w syms cells p :: rest) :
    step s = exec i { s with cmd := w, inSym := syms, inBit := cells, param := p, host := rest } := by
  simp only [step, State.nextMove, hhost]
  exact runCommand_of_decode hw

theorem step_of_chain {s : State} {w : Byte} {i : Instr} {rest : List HostMove} (hw : decode w = .ok i)
    (hhost : s.host = .chain w :: rest) :
    step s = exec i { s with cmd := w, inSym := s.outSym, inBit := cellsOf s.outBit, host := rest } := by
  simp only [step, State.nextMove, hhost]
  exact runCommand_of_decode hw

/-- Settles O4: the move puts the word and the operand on the ports, and the word at the port selects the
command. -/
theorem stepRunsPresentedCommand : Obligations.StepRunsPresentedCommand := by
  unfold Obligations.StepRunsPresentedCommand
  intro s w i hw
  refine ⟨wellFormed_eq_true i, fun _ _ _ _ => step_of_command hw, fun _ => step_of_chain hw, fun n => ?_⟩
  have hissued : s.withFetchWord n w.toNat = s.issueNext w := by simp [State.withFetchWord]
  rw [hissued]
  exact step_of_command hw rfl

end Sys2Proof.Machine
end

section
/-! What stays over a run without reset (spec/20_memory.md R73, spec/70_reset_and_hazards.md R372). -/

namespace Sys2Proof.Machine

/-- The command that sets what a unit keeps: its parameter, or the tree. `EG` and `HAM` keep nothing, and
`FIB.CACHE` is no parameter (R20, R40). -/
def setter : UnitId → Option Instr
  | .gr => some .grCfg
  | .huf => some .hufEnc
  | .rep => some .repCfg
  | .crc => some .crcCfg
  | .eg | .fib | .ham => none

/-- A command that writes persistent registers of its unit is the unit's setter, `FIB.CACHE` apart (R72). -/
theorem setter_unitOf {i : Instr} (hi : i ∈ [Instr.grCfg, .repCfg, .crcCfg, .hufEnc, .fibEnc, .fibDec])
    (hfib : i.unitOf ≠ .fib) : setter i.unitOf = some i := by
  cases i
  case grCfg | repCfg | crcCfg | hufEnc => rfl
  case fibEnc | fibDec => exact absurd rfl hfib
  all_goals simp at hi

/-- A unit's parameter or tree stays under every command but its setter (R20, R72). -/
theorem exec_sameUnit {u : UnitId} {i : Instr} {s t : State} (hu : u ≠ .fib) (hi : setter u ≠ some i)
    (h : exec i s = .next t) : SameUnit u s t := by
  obtain ⟨-, hother, hkeep⟩ := unitsOwnTheirState i s t h
  by_cases hown : u = i.unitOf
  · subst hown
    exact (hkeep fun hmem => hi (setter_unitOf hmem hu)).sameUnit _
  · exact hother u hown

/-- The move that issues a command is the first of the host's list, and its word then stands at `CMD` (R60). -/
theorem nextMove_command_word {s s' : State} (h : s.nextMove = (.command, s')) :
    ∃ mv rest, s.host = mv :: rest ∧ mv.word = some s'.cmd := by
  unfold State.nextMove at h
  split at h
  case h_1 | h_2 => cases h
  case h_3 hhost | h_4 hhost =>
    cases h
    exact ⟨_, _, hhost, rfl⟩

/-- The moves `ms` neither reset the engine nor issue the command `i`. -/
def NoResetOrIssue (i : Option Instr) (ms : List HostMove) : Prop :=
  ∀ mv ∈ ms, mv ≠ .reset ∧ ∀ j, i = some j → mv.word ≠ some (encode j)

/-- A unit's parameter or tree stays over one step, which takes the first move if there is one (R73, R372). -/
theorem step_sameUnit {u : UnitId} {s t : State} (hu : u ≠ .fib) (hms : NoResetOrIssue (setter u) (s.host.take 1))
    (h : step s = .next t) : SameUnit u s t ∧ t.host = s.host.tail := by
  rcases step_cases s with ⟨hhost, hstep⟩ | ⟨rest, hhost, -⟩ | ⟨s', hmove, hstep⟩
  · rw [hstep] at h
    cases h
    exact ⟨(SamePersistent.refl s).sameUnit u, by simp [hhost]⟩
  · exact absurd rfl (hms .reset (by simp [hhost])).1
  · rw [hstep] at h
    refine ⟨.trans ((nextMove_command_frame hmove).1.sameUnit u) ?_,
      (runCommand_host h).trans (nextMove_command_host hmove)⟩
    obtain ⟨mv, rest, hhost, hword⟩ := nextMove_command_word hmove
    rcases runCommand_cases s' with ⟨i, hi, hrun⟩ | ⟨-, hrun⟩ <;> rw [hrun] at h
    · refine exec_sameUnit hu (fun hset => ?_) h
      rw [eq_encode_of_decode hi] at hword
      exact (hms mv (by simp [hhost])).2 i hset hword
    · cases h
      exact (raise_samePersistent ..).sameUnit u

/-- A run of `k + 1` steps is a step and a run of `k` steps. -/
theorem run_succ {M : Host.Core} {k : Nat} {s t : M.State} (h : M.run (k + 1) s = .next t) :
    ∃ s', M.step s = .next s' ∧ M.run k s' = .next t := by
  rw [Host.Core.run] at h
  split at h
  case h_1 s' hstep => exact ⟨s', hstep, h⟩
  all_goals cases h

/-- Over any run whose moves neither reset the engine nor issue a unit's setter, its parameter or tree stays. -/
theorem run_sameUnit {u : UnitId} (hu : u ≠ .fib) : ∀ {k : Nat} {s t : State},
    NoResetOrIssue (setter u) (s.host.take k) → Host.Core.run core k s = .next t → SameUnit u s t
  | 0, s, _, _, h => by
    cases h
    exact (SamePersistent.refl s).sameUnit u
  | k + 1, s, t, hms, h => by
    obtain ⟨s', hstep, hrun⟩ := run_succ h
    have hfirst : NoResetOrIssue (setter u) (s.host.take 1) := fun mv hmv =>
      hms mv (List.take_subset_take_left _ (by omega) hmv)
    obtain ⟨hunit, hhost⟩ := step_sameUnit hu hfirst hstep
    have hrest : NoResetOrIssue (setter u) (s'.host.take k) := fun mv hmv => by
      have htail : (s.host.take (k + 1)).tail = s'.host.take k := by
        rw [List.tail_take_eq_take_tail, hhost, Nat.add_sub_cancel]
      exact hms mv (List.mem_of_mem_tail (htail ▸ hmv))
    exact hunit.trans (run_sameUnit hu hrest hrun)

/-- Settles O15: each of the four words is that of its unit's setter. -/
theorem parametersPersist : Obligations.ParametersPersist := by
  unfold Obligations.ParametersPersist
  intro k s t hrun hreset
  have hkeep (u : UnitId) (i : Instr) (hu : u ≠ .fib) (hset : setter u = some i)
      (hword : ∀ mv ∈ s.host.take k, mv.word ≠ some (encode i)) : SameUnit u s t := by
    refine run_sameUnit hu (fun mv hmv => ⟨hreset mv hmv, fun j hj => ?_⟩) hrun
    obtain rfl : i = j := Option.some.inj (hset.symm.trans hj)
    exact hword mv hmv
  exact ⟨hkeep .gr .grCfg nofun rfl, hkeep .huf .hufEnc nofun rfl, hkeep .rep .repCfg nofun rfl,
    hkeep .crc .crcCfg nofun rfl⟩

end Sys2Proof.Machine
end

section
/-! Which words are legal, and what the decoder makes of each word (spec/30_encoding.md R90 to R93, R96). -/

namespace Sys2Proof.Machine

theorem wordZ1Ok_iff (w : Byte) : wordZ1Ok w = true ↔ w.toNat / 128 = 0 := by
  have hw := w.isLt
  simp only [wordZ1Ok, beq_iff_eq, ← BitVec.toNat_inj, BitVec.extractLsb'_toNat, Nat.shiftRight_eq_div_pow,
    BitVec.toNat_ofNat]
  omega

theorem wordZ0Ok_iff (w : Byte) : wordZ0Ok w = true ↔ w.toNat / 4 % 4 = 0 := by
  simp [wordZ0Ok, ← BitVec.toNat_inj, Nat.shiftRight_eq_div_pow]

theorem wordUnitOk_iff (w : Byte) : wordUnitOk w = true ↔ w.toNat / 16 % 8 ≤ 6 := by
  simp [wordUnitOk, BitVec.le_def, Nat.shiftRight_eq_div_pow]

/-- The check of the three fields is R90's condition on the word as a number. -/
theorem legalWord_iff (w : Byte) :
    legalWord w = true ↔ w.toNat / 128 = 0 ∧ w.toNat / 4 % 4 = 0 ∧ w.toNat / 16 % 8 ≤ 6 := by
  rw [legalWord, Bool.and_eq_true, Bool.and_eq_true, wordZ1Ok_iff, wordZ0Ok_iff, wordUnitOk_iff, and_assoc]

open Laws.DecodeEncode in
theorem decodeEncode_statement (i : Instr) : Laws.DecodeEncode.Statement i := by
  cases i
  exacts [grEnc, grDec, grVal, grCfg, egEnc, egDec, egVal, egCfg, fibEnc, fibDec, fibVal, fibCfg,
    hufEnc, hufDec, hufVal, hufCfg, repEnc, repDec, repVal, repCfg, crcEnc, crcDec, crcVal, crcCfg,
    hamEnc, hamDec, hamVal, hamCfg]

theorem decode_encode (i : Instr) : decode (encode i) = .ok i := by
  obtain ⟨-, -, hdecode⟩ := decodeEncode_statement i
  exact hdecode

theorem decodeBytes_of_decode {w : Byte} {i : Instr} (h : decode w = .ok i) (rest : List Byte) :
    decodeBytes (w :: rest) = .ok (i, rest) := by
  simp only [decodeBytes, h]

/-- A word selects a command only if it is legal: it is the word of that command. -/
theorem legalWord_of_decode {w : Byte} {i : Instr} (h : decode w = .ok i) : legalWord w = true := by
  rw [eq_encode_of_decode h]
  exact wellFormed_eq_true i

theorem decode_of_fieldZ1 {w : Byte} (h : fieldZ1 w ≠ 0#1) : decode w = .error .reservedZ1 := if_pos h

theorem decode_of_fieldZ0 {w : Byte} (hz1 : fieldZ1 w = 0#1) (h : fieldZ0 w ≠ 0#2) :
    decode w = .error .reservedZ0 := by
  rw [decode, if_neg (not_ne_iff.mpr hz1), if_pos h]

theorem decode_of_fieldUnit {w : Byte} (hz1 : fieldZ1 w = 0#1) (hz0 : fieldZ0 w = 0#2)
    (h : decodeUnit (fieldUnit w) = none) : decode w = .error .reservedUnit := by
  rw [decode, if_neg (not_ne_iff.mpr hz1), if_neg (not_ne_iff.mpr hz0), h]

/-- Settles O1: each command's word is checked, and a word that decodes is put together again from its fields. -/
theorem decodeInvertsEncode : Obligations.DecodeInvertsEncode := by
  unfold Obligations.DecodeInvertsEncode
  refine ⟨fun i => ?_, fun _ _ => eq_encode_of_decode⟩
  obtain ⟨hlegal, hword, hdecode⟩ := decodeEncode_statement i
  exact ⟨hlegal, decodeBytes_of_decode hdecode [], hword⟩

/-- Settles O2: each word of the table is its command's, and each refused word breaks one field's condition. -/
theorem tableWordsDecode : Obligations.TableWordsDecode := by
  unfold Obligations.TableWordsDecode
  exact ⟨decode_encode .grEnc, decode_encode .egDec, decode_encode .fibVal, decode_encode .hufEnc,
    decode_encode .repCfg, decode_encode .crcDec, decode_encode .hamEnc, decode_encode .hamCfg,
    decode_of_fieldZ1 (by decide), decode_of_fieldZ0 (by decide) (by decide),
    decode_of_fieldZ0 (by decide) (by decide), decode_of_fieldUnit (by decide) (by decide) (by decide)⟩

end Sys2Proof.Machine
end

section
/-! The outcome of an illegal word (spec/30_encoding.md R96). -/

namespace Sys2Proof.Machine

theorem SamePersistentButFib.trans {s t u : State} (h : SamePersistentButFib s t) (h' : SamePersistentButFib t u) :
    SamePersistentButFib s u where
  grK := h'.grK.trans h.grK
  grSuflen := h'.grSuflen.trans h.grSuflen
  hufHave := h'.hufHave.trans h.hufHave
  hufNodes := h'.hufNodes.trans h.hufNodes
  hufRoot := h'.hufRoot.trans h.hufRoot
  hufTable := h'.hufTable.trans h.hufTable
  repR := h'.repR.trans h.repR
  crcGen := h'.crcGen.trans h.crcGen
  crcDeg := h'.crcDeg.trans h.crcDeg

theorem SamePersistent.trans {s t u : State} (h : SamePersistent s t) (h' : SamePersistent t u) :
    SamePersistent s u where
  butFib := h.butFib.trans h'.butFib
  fibCache := h'.fibCache.trans h.fibCache

theorem runCommand_of_illegal {s : State} (h : legalWord s.cmd ≠ true) :
    runCommand s = .next s.illegalWord := by
  rcases runCommand_cases s with ⟨i, hi, -⟩ | ⟨-, hrun⟩
  · exact absurd (legalWord_of_decode hi) h
  · exact hrun

/-- A move that presents a word is a command, whatever operand it brings (R60). -/
theorem step_of_word {s : State} {mv : HostMove} {w : Byte} {rest : List HostMove}
    (hhost : s.host = mv :: rest) (hword : mv.word = some w) :
    ∃ s', SamePersistent s s' ∧ s'.cmd = w ∧ s'.host = rest ∧ step s = runCommand s' := by
  rcases step_cases s with ⟨hnil, -⟩ | ⟨_, hreset, -⟩ | ⟨s', hmove, hstep⟩
  · simp [hhost] at hnil
  · obtain ⟨rfl, -⟩ := List.cons.inj (hhost.symm.trans hreset)
    cases hword
  · obtain ⟨mv', rest', hhost', hword'⟩ := nextMove_command_word hmove
    obtain ⟨rfl, rfl⟩ := List.cons.inj (hhost.symm.trans hhost')
    refine ⟨s', (nextMove_command_frame hmove).1, Option.some.inj (hword'.symm.trans hword), ?_, hstep⟩
    rw [nextMove_command_host hmove, hhost, List.tail_cons]

/-- Any move that presents an illegal word ends in the error outcome of R96: the operand has no part in it. -/
theorem step_of_illegal {s : State} {mv : HostMove} {w : Byte} {rest : List HostMove}
    (hw : legalWord w ≠ true) (hhost : s.host = mv :: rest) (hword : mv.word = some w) :
    ∃ t, step s = .next t ∧ Fails t 5 0 w.toNat [] ∧ SamePersistent s t ∧ t.host = rest := by
  obtain ⟨s', hsame, rfl, hrest, hstep⟩ := step_of_word hhost hword
  exact ⟨s'.illegalWord, hstep.trans (runCommand_of_illegal hw), raise_fails (.illegalCmd s'.cmd) s',
    hsame.trans (raise_samePersistent (.illegalCmd s'.cmd) s'), hrest⟩

/-- The first `n * k` numbers in `n` rows of `k`. -/
theorem range_mul_eq_flatMap (n k : Nat) :
    List.range (n * k) = (List.range n).flatMap fun row => (List.range k).map (row * k + ·) := by
  induction n with
  | zero => rw [Nat.zero_mul, List.range_zero, List.flatMap_nil]
  | succ n ih =>
    rw [Nat.succ_mul, List.range_add, ih, List.range_succ, List.flatMap_append, List.flatMap_singleton]

/-- Of the 16 rows of words with the same four high bits, the rows of the 7 units hold 4 legal words each, the
operations, and the others none (R90 to R92). -/
theorem countP_legal :
    ((List.range 256).countP fun w => decide (w / 128 = 0 ∧ w / 4 % 4 = 0 ∧ w / 16 % 8 ≤ 6)) = 28 := by
  have hrows : ((List.range 16).map fun row => ((List.range 16).map (row * 16 + ·)).countP fun w =>
      decide (w / 128 = 0 ∧ w / 4 % 4 = 0 ∧ w / 16 % 8 ≤ 6)) = List.replicate 7 4 ++ List.replicate 9 0 := by
    decide
  rw [show 256 = 16 * 16 from rfl, range_mul_eq_flatMap, List.countP_flatMap]
  exact congrArg List.sum hrows

/-- Settles O3: a command's word is legal (O1), so an illegal word leaves only the error outcome. -/
theorem illegalWordOutcome : Obligations.IllegalWordOutcome := by
  unfold Obligations.IllegalWordOutcome
  refine ⟨countP_legal, ?_, fun s w syms cells p rest hw hhost => ?_⟩
  · have hall := List.length_eq_countP_add_countP
      (fun w => decide (w / 128 = 0 ∧ w / 4 % 4 = 0 ∧ w / 16 % 8 ≤ 6)) (l := List.range 256)
    simp only [countP_legal, List.length_range, decide_eq_true_eq] at hall
    omega
  · rw [← legalWord_iff] at hw
    refine ⟨fun i hi => hw (legalWord_of_decode hi), ?_⟩
    rcases hhost with hhost | hhost
    · exact step_of_illegal hw hhost rfl
    · exact step_of_illegal hw hhost rfl

end Sys2Proof.Machine
end

section
/-! What `U.ENC` and `U.VAL` make of an operand, for every unit (spec/40_common.md R122, R123, R130). -/

namespace Sys2Proof.Machine

theorem instrOf_unitOf_opOf (i : Instr) : instrOf i.unitOf i.opOf = i := by
  cases i <;> rfl

theorem eq_instrOf {i : Instr} {u : UnitId} {o : Op} (hu : i.unitOf = u) (ho : i.opOf = o) : i = instrOf u o := by
  rw [← hu, ← ho, instrOf_unitOf_opOf]

theorem firstBX_eq_none_iff (cs : CellSeq) : firstBX cs = none ↔ .bX ∉ cs := by
  simp only [firstBX, List.findIdx?_eq_none_iff, beq_eq_false_iff_ne, ne_eq]
  exact ⟨fun h hmem => h _ hmem rfl, fun h _ hc heq => h (heq ▸ hc)⟩

/-- The operand check of `U.ENC` passes: no code point zero for `EG` and `FIB`, no `BX` for the units that take
cells, and no check for `GR` and `HUF` (R122, R123). -/
def encAccepts (s : State) : UnitId → Bit
  | .gr | .huf => true
  | .eg | .fib => (firstZero s.inSym).isNone
  | .rep | .crc | .ham => (firstBX s.inBit).isNone

theorem encAccepts_always {s : State} {u : UnitId} (hu : u ∈ [UnitId.gr, .huf]) : encAccepts s u = true := by
  simp only [List.mem_cons, List.not_mem_nil, or_false] at hu
  rcases hu with rfl | rfl <;> rfl

theorem encAccepts_text {s : State} {u : UnitId} (hu : u ∈ [UnitId.eg, .fib]) :
    encAccepts s u = true ↔ ∀ x ∈ s.inSym, x.val ≠ 0 := by
  have hzero : (firstZero s.inSym).isNone = true ↔ ∀ x ∈ s.inSym, x.val ≠ 0 := by
    rw [Option.isNone_iff_eq_none, firstZero_eq_none_iff]
    exact forall₂_congr fun x _ => Nat.one_le_iff_ne_zero
  simp only [List.mem_cons, List.not_mem_nil, or_false] at hu
  rcases hu with rfl | rfl <;> exact hzero

theorem encAccepts_cells {s : State} {u : UnitId} (hu : u ∈ [UnitId.rep, .crc, .ham]) :
    encAccepts s u = true ↔ .bX ∉ s.inBit := by
  have hbx : (firstBX s.inBit).isNone = true ↔ .bX ∉ s.inBit := by
    rw [Option.isNone_iff_eq_none, firstBX_eq_none_iff]
  simp only [List.mem_cons, List.not_mem_nil, or_false] at hu
  rcases hu with rfl | rfl | rfl <;> exact hbx

/-- `U.VAL` is the check of `U.ENC` and nothing else (R130). -/
theorem exec_val {v : Instr} (hv : v.opOf = .val) (s : State) :
    exec v s = .next (s.answer (encAccepts s v.unitOf)) := by
  cases v
  case grVal | egVal | fibVal | hufVal | repVal | crcVal | hamVal => rfl
  all_goals cases hv

/-- How an `ENC` command ends in state `s`: with the operand accepted it commits bits, its registers written as in
`s'`; with the operand refused it fails and has written nothing. -/
inductive EncEnds (s s' : State) (rep : Report) (bits : BitSeq) : Bit → StepOutcome → Prop
  | accepted : EncEnds s s' rep bits true (.next (s'.commit rep [] bits []))
  | refused (c : Cause) : EncEnds s s' rep bits false (.next (s.raise c))

namespace EncEnds

variable {s s' t : State} {rep : Report} {bits : BitSeq} {a : Bit} {o : StepOutcome}

/-- The check decides whether the command ends with `ERR = OK`. -/
theorem accepts_iff (h : EncEnds s s' rep bits a o) :
    a = true ↔ ∃ t, o = .next t ∧ statusErr t.status = 0#3 := by
  cases h with
  | accepted => exact ⟨fun _ => ⟨_, rfl, statusErr_okStatus rep⟩, fun _ => rfl⟩
  | refused c =>
    refine ⟨nofun, ?_⟩
    rintro ⟨_, ht, hok⟩
    cases ht
    exact absurd ((statusErr_errStatus c.code).symm.trans hok) (code_bits_ne_zero c)

theorem of_ok (h : EncEnds s s' rep bits a o) (ho : o = .next t) (hok : statusErr t.status = 0#3) :
    a = true ∧ t = s'.commit rep [] bits [] := by
  have ha := h.accepts_iff.2 ⟨t, ho, hok⟩
  subst ha
  cases h
  cases ho
  exact ⟨rfl, rfl⟩

/-- A command that fails at its operand check keeps every persistent register (R121). -/
theorem samePersistent_of_failed (h : EncEnds s s' rep bits a o) (ho : o = .next t)
    (hfail : statusErr t.status ≠ 0#3) : SamePersistent s t := by
  cases h with
  | accepted =>
    cases ho
    exact absurd (statusErr_okStatus rep) hfail
  | refused c =>
    cases ho
    exact raise_samePersistent c s

end EncEnds

/-! ## What each `ENC` writes when it accepts its operand (R151, R171, R195, R215, R241, R264, R302) -/

theorem execGrEnc_ends (s : State) :
    EncEnds s s {} (s.inSym.flatMap fun v => grCode s.grK s.grSuflen v.val) (encAccepts s .gr) (execGrEnc s) :=
  .accepted

theorem execEgEnc_ends (s : State) :
    EncEnds s s {} (s.inSym.flatMap fun v => egCode v.val) (encAccepts s .eg) (execEgEnc s) := by
  unfold execEgEnc symbolCheck encAccepts
  cases firstZero s.inSym with
  | none => exact .accepted
  | some i => exact .refused _

theorem execFibEnc_ends (s : State) :
    EncEnds s { s with fibCache := (fibEncode s.fibCache (s.inSym.map Fin.val)).1 } {}
      (fibEncode s.fibCache (s.inSym.map Fin.val)).2 (encAccepts s .fib) (execFibEnc s) := by
  unfold execFibEnc symbolCheck encAccepts
  cases firstZero s.inSym with
  | none => exact .accepted
  | some i => exact .refused _

theorem execHufEnc_ends (s : State) :
    EncEnds s (s.installTree (hufBuild s.inSym)) {} (s.inSym.flatMap (codeOf (hufBuild s.inSym).table))
      (encAccepts s .huf) (execHufEnc s) := by
  simp only [execHufEnc, hufEncode_build]
  exact .accepted

theorem execRepEnc_ends (s : State) :
    EncEnds s s {} (repEncode s.repR (s.inBit.map cellBit)) (encAccepts s .rep) (execRepEnc s) := by
  unfold execRepEnc alphabetCheck encAccepts
  cases firstBX s.inBit with
  | none => exact .accepted
  | some i => exact .refused _

theorem execCrcEnc_ends (s : State) :
    EncEnds s s {} (crcEncode s.crcGen s.crcDeg (s.inBit.map cellBit)) (encAccepts s .crc) (execCrcEnc s) := by
  unfold execCrcEnc alphabetCheck encAccepts
  cases firstBX s.inBit with
  | none => exact .accepted
  | some i => exact .refused _

/-- The bits `HAM.ENC` encodes: the operand with zeros up to a whole number of blocks (R302). -/
def hamPadded (m : BitSeq) : BitSeq := m ++ List.replicate (hamPad m.length) false

theorem execHamEnc_ends (s : State) :
    EncEnds s s { pad := BitVec.ofNat 2 (hamPad s.inBit.length) } (hamEncode (hamPadded (s.inBit.map cellBit)))
      (encAccepts s .ham) (execHamEnc s) := by
  unfold execHamEnc alphabetCheck encAccepts
  cases firstBX s.inBit with
  | none =>
    rw [hamPadded, ← List.length_map (f := cellBit)]
    exact .accepted
  | some i => exact .refused _

theorem exec_enc_ends (u : UnitId) (s : State) :
    ∃ s' rep bits, EncEnds s s' rep bits (encAccepts s u) (exec (instrOf u .enc) s) := by
  cases u with
  | gr => exact ⟨_, _, _, execGrEnc_ends s⟩
  | eg => exact ⟨_, _, _, execEgEnc_ends s⟩
  | fib => exact ⟨_, _, _, execFibEnc_ends s⟩
  | huf => exact ⟨_, _, _, execHufEnc_ends s⟩
  | rep => exact ⟨_, _, _, execRepEnc_ends s⟩
  | crc => exact ⟨_, _, _, execCrcEnc_ends s⟩
  | ham => exact ⟨_, _, _, execHamEnc_ends s⟩

/-- Settles O16: `VAL` answers the check on which it depends how `ENC` ends. -/
theorem valAnswersForEnc : Obligations.ValAnswersForEnc := by
  unfold Obligations.ValAnswersForEnc
  intro v e s hv he hunit
  obtain ⟨s', rep, bits, henc⟩ := exec_enc_ends v.unitOf s
  rw [← eq_instrOf hunit he] at henc
  exact ⟨_, encAccepts s v.unitOf, exec_val hv s, commit_succeeds ..,
    ⟨commit_samePersistent .., ⟨rfl, rfl, rfl, rfl, rfl⟩⟩,
    henc.accepts_iff, encAccepts_always, encAccepts_text, encAccepts_cells⟩

end Sys2Proof.Machine
end

section
/-! `U.DEC` on the result of `U.ENC`, for every unit (spec/20_memory.md R62, spec/40_common.md R133). -/

namespace Sys2Proof.Machine

/-! ## A `DEC` whose operand is cells of bits that its processing decodes (R121, R122) -/

section decoded

variable {s : State} {bits : BitSeq} (hin : s.inBit = cellsOf bits)

include hin

theorem execGrDec_of_decode {m : SymSeq} (hm : grDecode s.grK s.grSuflen bits = .ok m) :
    execGrDec s = .next (s.commit {} m [] []) := by
  simp only [execGrDec, hin, alphabetCheck_cellsOf, hm, endSyms_ok]

theorem execEgDec_of_decode {m : SymSeq} (hm : egDecode bits = .ok m) :
    execEgDec s = .next (s.commit {} m [] []) := by
  simp only [execEgDec, hin, alphabetCheck_cellsOf, hm, endSyms_ok]

theorem execFibDec_of_decode {m : SymSeq} (hm : (fibDecode s.fibCache bits).2 = .ok m) :
    execFibDec s = .next ({ s with fibCache := (fibDecode s.fibCache bits).1 }.commit {} m [] []) := by
  simp only [execFibDec, hin, alphabetCheck_cellsOf, hm, endSyms_ok]

theorem execHufDec_of_decode {m : SymSeq} (hhave : s.hufHave = true)
    (hm : hufDecode s.hufNodes s.hufRoot bits = some (.ok m)) :
    execHufDec s = .next (s.commit {} m [] []) := by
  simp only [execHufDec, hhave, hin, alphabetCheck_cellsOf, hm, endSyms_ok, Bool.true_eq_false, if_false]

theorem execRepDec_of_decode {rep : Report} {m : BitSeq} {dg : List DiagRec}
    (hm : repDecode s.repR bits = .ok (rep, m, dg)) : execRepDec s = .next (s.commit rep [] m dg) := by
  simp only [execRepDec, hin, alphabetCheck_cellsOf, hm, endBits_ok]

theorem execCrcDec_of_decode {rep : Report} {m : BitSeq} {dg : List DiagRec}
    (hm : crcDecode s.crcGen s.crcDeg bits = .ok (rep, m, dg)) : execCrcDec s = .next (s.commit rep [] m dg) := by
  simp only [execCrcDec, hin, alphabetCheck_cellsOf, hm, endBits_ok]

theorem execHamDec_of_decode {rep : Report} {m : BitSeq} {dg : List DiagRec}
    (hm : hamDecode bits = .ok (rep, m, dg)) : execHamDec s = .next (s.commit rep [] m dg) := by
  simp only [execHamDec, hin, alphabetCheck_cellsOf, hm, endBits_ok]

end decoded

/-- The padding is at most three bits, so the field `PAD` holds its length (R302). -/
theorem toNat_ofNat_hamPad (n : Nat) : (BitVec.ofNat 2 (hamPad n)).toNat = hamPad n := by
  rw [BitVec.toNat_ofNat, Nat.mod_eq_of_lt (hamPad_spec n).1]

/-! ## The round trip of each unit, from the lemma about its processing -/

section roundTrip

variable {s t : State} (hok : statusErr t.status = 0#3) (w : Byte) (syms : SymSeq) (p : Param)

include hok

theorem execGrDec_execGrEnc (hs : s.Inv) (h : execGrEnc s = .next t) :
    ∃ v, execGrDec (t.present w syms (cellsOf t.outBit) p) = .next v ∧ RoundTripped .gr s t v := by
  obtain ⟨-, rfl⟩ := (execGrEnc_ends s).of_ok h hok
  have hk : s.grK ≤ 2 ^ s.grSuflen := by
    rw [hs.grSuflen_eq]
    exact le_two_pow_clog2 _
  exact ⟨_, execGrDec_of_decode rfl (grDecode_grCodes hk hs.grK_pos s.inSym), commit_succeeds ..⟩

theorem execEgDec_execEgEnc (h : execEgEnc s = .next t) :
    ∃ v, execEgDec (t.present w syms (cellsOf t.outBit) p) = .next v ∧ RoundTripped .eg s t v := by
  obtain ⟨hacc, rfl⟩ := (execEgEnc_ends s).of_ok h hok
  have hpos := (firstZero_eq_none_iff s.inSym).1 (Option.isNone_iff_eq_none.1 hacc)
  exact ⟨_, execEgDec_of_decode rfl (egDecode_egCodes hpos), commit_succeeds ..⟩

/-- `FIB.DEC` starts from the cache that `FIB.ENC` left, which is exact again (R192). -/
theorem execFibDec_execFibEnc (hs : s.Inv) (h : execFibEnc s = .next t) :
    ∃ v, execFibDec (t.present w syms (cellsOf t.outBit) p) = .next v ∧ RoundTripped .fib s t v := by
  obtain ⟨hacc, rfl⟩ := (execFibEnc_ends s).of_ok h hok
  have hpos := (firstZero_eq_none_iff s.inSym).1 (Option.isNone_iff_eq_none.1 hacc)
  have hcache := (fibEncode_spec (s.inSym.map Fin.val) hs.fibCache_ok (by simpa using hpos)).1
  exact ⟨_, execFibDec_of_decode rfl (fibDecode_fibEncode hs.fibCache_ok hcache hpos), commit_succeeds ..⟩

/-- `HUF.DEC` walks the tree that `HUF.ENC` has just installed (R214, R216). -/
theorem execHufDec_execHufEnc (h : execHufEnc s = .next t) :
    ∃ v, execHufDec (t.present w syms (cellsOf t.outBit) p) = .next v ∧ RoundTripped .huf s t v := by
  obtain ⟨-, rfl⟩ := (execHufEnc_ends s).of_ok h hok
  exact ⟨_, execHufDec_of_decode rfl rfl (hufDecode_encode s.inSym), commit_succeeds ..⟩

theorem execRepDec_execRepEnc (hs : s.Inv) (h : execRepEnc s = .next t) :
    ∃ v, execRepDec (t.present w syms (cellsOf t.outBit) p) = .next v ∧ RoundTripped .rep s t v := by
  obtain ⟨hacc, rfl⟩ := (execRepEnc_ends s).of_ok h hok
  exact ⟨_, execRepDec_of_decode rfl (repDecode_repEncode hs.repR_pos _), s.inBit.map cellBit,
    eq_cellsOf_of_firstBX_none (Option.isNone_iff_eq_none.1 hacc), commit_succeeds ..⟩

theorem execCrcDec_execCrcEnc (hs : s.Inv) (h : execCrcEnc s = .next t) :
    ∃ v, execCrcDec (t.present w syms (cellsOf t.outBit) p) = .next v ∧ RoundTripped .crc s t v := by
  obtain ⟨hacc, rfl⟩ := (execCrcEnc_ends s).of_ok h hok
  have hdecode := crcDecode_crcEncode hs.crcGen_pos (s.inBit.map cellBit)
  rw [← hs.crcDeg_eq] at hdecode
  exact ⟨_, execCrcDec_of_decode rfl hdecode, s.inBit.map cellBit,
    eq_cellsOf_of_firstBX_none (Option.isNone_iff_eq_none.1 hacc), commit_succeeds ..⟩

/-- The zeros behind the operand are as many as `HAM.ENC` reported (R302, R313). -/
theorem execHamDec_execHamEnc (h : execHamEnc s = .next t) :
    ∃ v, execHamDec (t.present w syms (cellsOf t.outBit) p) = .next v ∧ RoundTripped .ham s t v := by
  obtain ⟨hacc, rfl⟩ := (execHamEnc_ends s).of_ok h hok
  refine ⟨_, execHamDec_of_decode rfl (hamDecode_hamEncode _), s.inBit.map cellBit,
    eq_cellsOf_of_firstBX_none (Option.isNone_iff_eq_none.1 hacc), ?_⟩
  rw [State.commit_status, statusPad_okStatus, toNat_ofNat_hamPad, ← List.length_map (f := cellBit)]
  exact commit_succeeds ..

end roundTrip

/-- Settles O59: an `ENC` that ends with `ERR = OK` has accepted its operand and left what `DEC` undoes. -/
theorem decInvertsEnc : Obligations.DecInvertsEnc := by
  unfold Obligations.DecInvertsEnc
  intro e d s t he hd hunit hs hexec hok w syms p
  rw [eq_instrOf rfl he] at hexec
  rw [eq_instrOf hunit hd]
  generalize e.unitOf = u at hexec ⊢
  cases u with
  | gr => exact execGrDec_execGrEnc hok w syms p hs hexec
  | eg => exact execEgDec_execEgEnc hok w syms p hexec
  | fib => exact execFibDec_execFibEnc hok w syms p hs hexec
  | huf => exact execHufDec_execHufEnc hok w syms p hexec
  | rep => exact execRepDec_execRepEnc hok w syms p hs hexec
  | crc => exact execCrcDec_execCrcEnc hok w syms p hs hexec
  | ham => exact execHamDec_execHamEnc hok w syms p hexec

end Sys2Proof.Machine
end

section
/-! What a failing command leaves as it was (spec/40_common.md R121, R132). -/

namespace Sys2Proof.Machine

/-- A command without a row of errors does not fail (R332). -/
theorem allowedErrors_ne_nil_of_failed {i : Instr} {s t : State} (h : exec i s = .next t)
    (hfail : statusErr t.status ≠ 0#3) : allowedErrors i ≠ [] := by
  obtain ⟨s', -, ⟨rep, syms, bits, dg, rfl⟩ | ⟨c, -, hrow⟩⟩ := exec_shape h
  · exact absurd (statusErr_okStatus rep) hfail
  · exact List.ne_nil_of_mem hrow

/-- Of the commands that write persistent registers only `FIB.ENC` and `FIB.DEC` can fail, and `FIB.ENC` does so
before it has read the cache (R121). -/
theorem exec_samePersistent_of_failed {i : Instr} {s t : State} (h : exec i s = .next t)
    (hfail : statusErr t.status ≠ 0#3) (hi : i ≠ .fibDec) : SamePersistent s t := by
  by_cases hset : i ∈ [Instr.grCfg, .repCfg, .crcCfg, .hufEnc, .fibEnc, .fibDec]
  · have herrs := allowedErrors_ne_nil_of_failed h hfail
    cases i
    case fibEnc => exact (execFibEnc_ends s).samePersistent_of_failed h hfail
    case fibDec => exact absurd rfl hi
    case grCfg | repCfg | crcCfg | hufEnc => exact absurd rfl herrs
    all_goals simp at hset
  · obtain ⟨-, -, hkeep⟩ := unitsOwnTheirState i s t h
    exact hkeep hset

/-- The end of a decoder writes the result registers alone, whether it commits or fails (R64, R335). -/
theorem endSyms_samePersistent (r : Except Cause SymSeq) (s : State) : SamePersistent s (s.endSyms r) := by
  rcases endSyms_cases r s with ⟨syms, -, hend⟩ | ⟨c, -, hend⟩ <;> rw [hend]
  · exact commit_samePersistent ..
  · exact raise_samePersistent ..

/-- `FIB.DEC` writes the cache alone, and only extends it, however it ends (R192, R196). -/
theorem execFibDec_keeps {s t : State} (hcache : FibCacheOk s.fibCache) (h : execFibDec s = .next t) :
    SamePersistentButFib s t ∧ s.fibCache <+: t.fibCache := by
  rcases alphabetCheck_cases .decNonBinary s.inBit with ⟨n, -, hc⟩ | ⟨bits, -, -, hc⟩ <;>
    simp only [execFibDec, hc] at h <;> cases h
  · exact ⟨(raise_samePersistent ..).butFib, List.prefix_rfl⟩
  · have hcached : SamePersistentButFib s { s with fibCache := (fibDecode s.fibCache bits).1 } :=
      ⟨rfl, rfl, rfl, rfl, rfl, rfl, rfl, rfl, rfl⟩
    have hend := endSyms_samePersistent (fibDecode s.fibCache bits).2
      { s with fibCache := (fibDecode s.fibCache bits).1 }
    exact ⟨hcached.trans hend.butFib, hend.fibCache ▸ (fibDecode_cache hcache bits).2⟩

/-- Settles O11: a failing command other than `FIB.DEC` writes no persistent register, and `HUF.ENC`, which sets
the tree, accepts every text. -/
theorem failedCommandKeepsState : Obligations.FailedCommandKeepsState := by
  unfold Obligations.FailedCommandKeepsState
  refine ⟨fun i s t hs h hfail => ?_, fun i s t h hi => ?_, fun s => ?_⟩
  · by_cases hfib : i = .fibDec
    · subst hfib
      obtain ⟨hbut, hgrown⟩ := execFibDec_keeps hs.fibCache_ok h
      exact ⟨hbut, hgrown, fun hne => absurd rfl hne⟩
    · have hsame := exec_samePersistent_of_failed h hfail hfib
      exact ⟨hsame.butFib, hsame.fibCache ▸ List.prefix_rfl, fun _ => hsame⟩
  · exact exec_sameUnit (u := .huf) nofun (fun hset => hi (Option.some.inj hset).symm) h
  · exact (execHufEnc_ends s).accepts_iff.1 rfl

end Sys2Proof.Machine
end

section
/-! `bin` and `val`, element by element (spec/40_common.md R125, R126). -/

namespace Sys2Proof.Machine

/-- `val` weighs each bit by the power of two of its place, the last bit by 1 (R126). -/
theorem val_eq_sum (s : BitSeq) :
    val s = ∑ i ∈ Finset.range s.length, (s.getD i false).toNat * 2 ^ (s.length - 1 - i) := by
  induction s with
  | nil => rfl
  | cons b s ih =>
    rw [val_cons, List.length_cons, Finset.sum_range_succ', ih, Nat.add_comm]
    congr 1
    refine Finset.sum_congr rfl fun i _ => ?_
    rw [List.getD_cons_succ, Nat.add_sub_cancel, Nat.sub_add_eq, Nat.sub_right_comm]

theorem bin_eq_msbFirst (v w : Nat) : bin v w = msbFirst v w := by
  refine List.ext_getElem? fun i => ?_
  rw [bin_getElem?, msbFirst, List.getElem?_map]
  split <;> rename_i hi
  · rw [List.getElem?_range hi, Option.map_some]
  · rw [List.getElem?_eq_none (by simpa using hi), Option.map_none]

/-- Settles O21: the sum and the bits one by one; each of the two undoes the other on its own range. -/
theorem binAndValAreInverse : Obligations.BinAndValAreInverse := by
  unfold Obligations.BinAndValAreInverse
  exact ⟨val_eq_sum, val_nil, fun v w hv => ⟨bin_eq_msbFirst v w, val_bin_of_lt hv⟩, bin_val⟩

end Sys2Proof.Machine
end

section
/-! A command whose operand is what the command before it wrote (spec/20_memory.md R62, spec/30_encoding.md R98). -/

namespace Sys2Proof.Machine

theorem Succeeds.of_sameOutcome {s t : State} {rep : Report} {syms : SymSeq} {bits : BitSeq} {dg : List DiagRec}
    (h : Succeeds s rep syms bits dg) (hout : SameOutcome s t) : Succeeds t rep syms bits dg where
  status := hout.status.trans h.status
  errInfo := hout.errInfo.trans h.errInfo
  outSym := hout.outSym.trans h.outSym
  outBit := hout.outBit.trans h.outBit
  diag := hout.diag.trans h.diag

/-- The state in which a command runs that the host presents: the operand at the ports, the moves `rest` to come. -/
def State.presented (word : Byte) (syms : SymSeq) (cells : CellSeq) (p : Param) (rest : List HostMove)
    (s : State) : State :=
  { s with host := rest }.present word syms cells p

theorem presented_samePersistent (word : Byte) (syms : SymSeq) (cells : CellSeq) (p : Param) (rest : List HostMove)
    (s : State) : SamePersistent s (s.presented word syms cells p rest) :=
  ⟨⟨rfl, rfl, rfl, rfl, rfl, rfl, rfl, rfl, rfl⟩, rfl⟩

/-- The moves to come are no part of what a command reads (R73). -/
theorem exec_withMoves {s t : State} {i : Instr} (h : exec i s = .next t) (moves : List HostMove) :
    ∃ u, exec i { s with host := moves } = .next u ∧ SameOutcome t u := by
  have hsame : SamePersistent s { s with host := moves } := ⟨⟨rfl, rfl, rfl, rfl, rfl, rfl, rfl, rfl, rfl⟩, rfl⟩
  obtain ⟨u, hu, hout, -⟩ :=
    unitsAreIndependent i s { s with host := moves } t rfl rfl rfl (hsame.sameUnit i.unitOf) h
  exact ⟨u, hu, hout⟩

/-- A command and a chained one: the second shows what it shows with the first one's result on its ports (R98). -/
theorem steps_of_chained {s t v : State} {i j : Instr} {syms : SymSeq} {cells : CellSeq} {p : Param}
    {rest : List HostMove} (hhost : s.host = .command (encode i) syms cells p :: .chain (encode j) :: rest)
    (hfirst : exec i (s.presented (encode i) syms cells p (.chain (encode j) :: rest)) = .next t)
    (hsecond : exec j (t.present (encode j) t.outSym (cellsOf t.outBit) t.param) = .next v) :
    step s = .next t ∧ ∃ u, step t = .next u ∧ SameOutcome v u := by
  refine ⟨(step_of_command (decode_encode i) hhost).trans hfirst, ?_⟩
  have hchain : t.host = .chain (encode j) :: rest := (exec_sameHost hfirst).host
  obtain ⟨u, hu, hout⟩ := exec_withMoves hsecond rest
  exact ⟨u, (step_of_chain (decode_encode j) hchain).trans hu, hout⟩

end Sys2Proof.Machine
end

section
/-! The decoders of universal codes, from what their processing does with codewords (spec/40_common.md R121, R122,
R124, R127, R128). -/

namespace Sys2Proof.Machine

/-- The processing of a universal decoder on its operand's bits: whole codewords give their symbols, and the first
codeword that is cut, or whose value is no symbol, gives its error at the place where it starts (R124, R127, R128). -/
structure ReadsCode (word : Nat → BitSeq → Prop) (cut : BitSeq → Prop)
    (decoder : BitSeq → Except Cause SymSeq) : Prop where
  whole : ∀ ws : List (Sym × BitSeq), (∀ p ∈ ws, word p.1.val p.2) →
    decoder (wordBits ws) = .ok (ws.map Prod.fst)
  truncated : ∀ (ws : List (Sym × BitSeq)) (tail : BitSeq), (∀ p ∈ ws, word p.1.val p.2) → cut tail →
    decoder (wordBits ws ++ tail) = .error (.truncated (wordBits ws).length)
  outOfRange : ∀ (ws : List (Sym × BitSeq)) (v : Nat) (b rest : BitSeq), (∀ p ∈ ws, word p.1.val p.2) →
    word v b → Config.symMax < v →
    decoder (wordBits ws ++ b ++ rest) = .error (.outOfRange (wordBits ws).length)

/-- Any bits start with a codeword or are cut off in one, and a codeword is not empty (R66). -/
structure SplitsBits (word : Nat → BitSeq → Prop) (cut : BitSeq → Prop) : Prop where
  word_ne_nil : ∀ {v b}, word v b → b ≠ []
  cut_or_word : ∀ bits, bits ≠ [] → cut bits ∨ ∃ v b rest, word v b ∧ bits = b ++ rest

/-- What the operand of a universal decoder can be: codewords of symbols, and after them nothing, a codeword that
is cut, or one whose value is no symbol. -/
theorem SplitsBits.exists_words {word : Nat → BitSeq → Prop} {cut : BitSeq → Prop} (h : SplitsBits word cut)
    (bits : BitSeq) : ∃ (ws : List (Sym × BitSeq)) (rest : BitSeq),
      (∀ p ∈ ws, word p.1.val p.2) ∧ bits = wordBits ws ++ rest ∧
        (rest = [] ∨ cut rest ∨ ∃ v b rest', word v b ∧ Config.symMax < v ∧ rest = b ++ rest') := by
  induction hn : bits.length using Nat.strong_induction_on generalizing bits with
  | _ n ih =>
    by_cases hnil : bits = []
    · exact ⟨[], bits, by simp, rfl, .inl hnil⟩
    rcases h.cut_or_word bits hnil with hcut | ⟨v, b, rest, hword, rfl⟩
    · exact ⟨[], bits, by simp, rfl, .inr (.inl hcut)⟩
    by_cases hv : Config.symMax < v
    · exact ⟨[], _, by simp, rfl, .inr (.inr ⟨v, b, rest, hword, hv, rfl⟩)⟩
    have hpos : 0 < b.length := List.length_pos_iff.2 (h.word_ne_nil hword)
    rw [List.length_append] at hn
    obtain ⟨ws, tail, hws, rfl, htail⟩ := ih rest.length (by omega) rest rfl
    refine ⟨(⟨v, by omega⟩, b) :: ws, tail, ?_, by simp [wordBits], htail⟩
    exact List.forall_mem_cons.2 ⟨hword, hws⟩

/-- A `DEC` that checks the alphabet of its operand and then ends with its processing of the bits decodes by the
words that the processing reads; the state `s'` it ends in front of may have registers written. -/
theorem decodesBy_of_readsCode {word : Nat → BitSeq → Prop} {cut : BitSeq → Prop}
    {decoder : BitSeq → Except Cause SymSeq} {s t : State} (hread : ReadsCode word cut decoder)
    (hsplit : SplitsBits word cut) (hbad : ∀ i, firstBX s.inBit = some i → t = s.raise (.decNonBinary i))
    (hbits : ∀ bits, s.inBit = cellsOf bits → ∃ s' : State, t = s'.endSyms (decoder bits)) :
    DecodesBy word cut s t where
  nonBinary i hi := by
    rw [hbad i ((firstBX_eq_some_iff ..).2 hi)]
    exact raise_fails (.decNonBinary i) s
  whole ws hws hin := by
    obtain ⟨s', rfl⟩ := hbits _ hin
    rw [hread.whole ws hws]
    exact commit_succeeds ..
  truncated ws tail hws hcut hin := by
    obtain ⟨s', rfl⟩ := hbits _ hin
    rw [hread.truncated ws tail hws hcut]
    exact raise_fails (.truncated _) s'
  outOfRange ws v b rest hws hword hv hin := by
    obtain ⟨s', rfl⟩ := hbits _ hin
    rw [hread.outOfRange ws v b rest hws hword hv]
    exact raise_fails (.outOfRange _) s'
  every bits _ := hsplit.exists_words bits

end Sys2Proof.Machine
end

section
/-! The Golomb-Rice unit (spec/41_golomb_rice.md R150 to R158). -/

namespace Sys2Proof.Machine

/-! ## The codewords (R150, R152) -/

theorem grWord_iff (k w v : Nat) (b : BitSeq) :
    grWord k w v b ↔ ∃ q suf, suf.length = w ∧ v = k * q + val suf ∧ b = unary q ++ suf := by
  simp only [grWord, unary, List.append_assoc, List.singleton_append, and_comm]

theorem grCode_eq_msbFirst (k w v : Nat) :
    grCode k w v = List.replicate (v / k) false ++ true :: msbFirst (v % k) w := by
  rw [grCode, unary, bin_eq_msbFirst, List.append_assoc, List.singleton_append]

theorem gr_splitsBits (k w : Nat) : SplitsBits (grWord k w) (grCut w) where
  word_ne_nil := by
    rintro v b ⟨q, suf, -, rfl, -⟩
    simp
  cut_or_word bits hne := by
    rcases zeros_or_run bits with hzeros | ⟨q, tail, rfl⟩
    · exact .inl (.inl ⟨bits.length, List.length_pos_iff.2 hne, hzeros⟩)
    by_cases hlen : tail.length < w
    · exact .inl (.inr ⟨q, tail, hlen, rfl⟩)
    · refine .inr ⟨_, _, tail.drop w, ⟨q, tail.take w, ?_, rfl, rfl⟩, ?_⟩
      · exact List.length_take_of_le (Nat.le_of_not_lt hlen)
      · rw [List.append_assoc, List.cons_append, List.take_append_drop]

/-! ## `GR.DEC` (R152) -/

theorem grCut_ne_nil {w : Nat} {b : BitSeq} (h : grCut w b) : b ≠ [] := by
  rcases h with ⟨n, hn, rfl⟩ | ⟨q, suf, -, rfl⟩
  · simpa using Nat.ne_of_gt hn
  · simp

/-- A codeword that is cut is truncated, in its run as in its suffix (R127, R128). -/
theorem grReadOne_of_grCut {w : Nat} {b : BitSeq} (h : grCut w b) (k ip : Nat) :
    grReadOne k w { ip := ip, rest := b } = .error (.truncated ip) := by
  rcases h with ⟨n, -, rfl⟩ | ⟨q, suf, hlen, rfl⟩
  · exact grReadOne_zeros k w n ip
  · simpa [unary] using grReadOne_short (k := k) (q := q) (ip := ip) hlen

theorem grDecode_readsCode (k w : Nat) : ReadsCode (grWord k w) (grCut w) (grDecode k w) where
  whole _ hws := grDecode_words fun p hp => (grWord_iff ..).1 (hws p hp)
  truncated _ _ hws hcut :=
    grDecode_error (fun p hp => (grWord_iff ..).1 (hws p hp)) (grCut_ne_nil hcut) (grReadOne_of_grCut hcut k _)
  outOfRange ws v b rest hws hword hv := by
    obtain ⟨q, suf, hlen, rfl, rfl⟩ := (grWord_iff ..).1 hword
    rw [List.append_assoc]
    exact grDecode_error (fun p hp => (grWord_iff ..).1 (hws p hp)) (by simp [unary]) (grReadOne_range hlen hv)

theorem execGrDec_of_firstBX {s : State} {i : Nat} (h : firstBX s.inBit = some i) :
    execGrDec s = .next (s.raise (.decNonBinary i)) := by
  simp only [execGrDec, alphabetCheck_of_first h]

theorem execGrDec_of_bits {s : State} {bits : BitSeq} (h : s.inBit = cellsOf bits) :
    execGrDec s = .next (s.endSyms (grDecode s.grK s.grSuflen bits)) := by
  simp only [execGrDec, h, alphabetCheck_cellsOf]

theorem exists_execGrDec (s : State) : ∃ t, execGrDec s = .next t := by
  rcases alphabetCheck_cases .decNonBinary s.inBit with ⟨_, hbad, -⟩ | ⟨_, hbits, -, -⟩
  · exact ⟨_, execGrDec_of_firstBX hbad⟩
  · exact ⟨_, execGrDec_of_bits hbits⟩

theorem execGrDec_decodesBy {s t : State} (h : execGrDec s = .next t) :
    DecodesBy (grWord s.grK s.grSuflen) (grCut s.grSuflen) s t := by
  refine decodesBy_of_readsCode (grDecode_readsCode _ _) (gr_splitsBits _ _) (fun i hi => ?_) fun bits hin => ⟨s, ?_⟩
  · exact Host.Outcome.next.inj (h.symm.trans (execGrDec_of_firstBX hi))
  · exact Host.Outcome.next.inj (h.symm.trans (execGrDec_of_bits hin))

/-! ## `GR.CFG` (R158) -/

theorem execGrCfg_of_pos {s : State} {z : Int} (h : s.param = .pInt z) (hz : 1 ≤ z) :
    execGrCfg s = .next ({ s with grK := z.toNat, grSuflen := clog2 z.toNat }.configured false) := by
  simp only [execGrCfg, h, if_pos hz]

/-- Every operand but a positive integer is rejected, and the command then ends at once. -/
theorem execGrCfg_of_rejected {s : State} (h : ∀ z, s.param = .pInt z → z < 1) :
    execGrCfg s = .next (s.configured true) := by
  unfold execGrCfg
  split
  case h_1 z hp => rw [if_neg (not_le.2 (h z hp))]
  case h_2 => rfl

theorem exists_execGrCfg (s : State) : ∃ t, execGrCfg s = .next t := by
  by_cases h : ∀ z, s.param = .pInt z → z < 1
  · exact ⟨_, execGrCfg_of_rejected h⟩
  · push Not at h
    obtain ⟨z, hp, hz⟩ := h
    exact ⟨_, execGrCfg_of_pos hp hz⟩

theorem execGrCfg_accepts {s t : State} {z : Int} (h : execGrCfg s = .next t) (hp : s.param = .pInt z)
    (hz : 1 ≤ z) : Succeeds t {} [] [] [] ∧ (t.grK : Int) = z ∧ t.grSuflen = clog2 t.grK := by
  obtain rfl := Host.Outcome.next.inj (h.symm.trans (execGrCfg_of_pos hp hz))
  exact ⟨commit_succeeds .., Int.toNat_of_nonneg (by omega), rfl⟩

theorem execGrCfg_rejects {s t : State} (h : execGrCfg s = .next t) (hp : ∀ z, s.param = .pInt z → z < 1) :
    Succeeds t { rej := true } [] [] [] ∧ SameUnit .gr s t := by
  obtain rfl := Host.Outcome.next.inj (h.symm.trans (execGrCfg_of_rejected hp))
  exact ⟨commit_succeeds .., rfl, rfl⟩

/-! ## The obligations -/

/-- Settles O25: `GR.ENC` accepts every text, and `GR.DEC` gives back what it wrote, as R133 says of the unit. -/
theorem grRoundTrip : Obligations.GrRoundTrip := by
  unfold Obligations.GrRoundTrip
  intro s m cells p rest hs hhost
  have hs₁ := hs.of_samePersistent (presented_samePersistent 0x00#8 m cells p (.chain 0x01#8 :: rest) s)
  obtain ⟨t, henc, hok⟩ :=
    (execGrEnc_ends (s.presented 0x00#8 m cells p (.chain 0x01#8 :: rest))).accepts_iff.1 rfl
  obtain ⟨v, hdec, htrip⟩ := execGrDec_execGrEnc hok 0x01#8 t.outSym t.param hs₁ henc
  obtain ⟨hstep, u, hchain, hout⟩ := steps_of_chained (i := .grEnc) (j := .grDec) hhost henc hdec
  exact ⟨t, u, hstep, hok, hchain, Succeeds.of_sameOutcome htrip hout⟩

/-- Settles O23: the command is the commit of its symbols' codewords, and the invariants name the suffix width. -/
theorem grEncWritesCodewords : Obligations.GrEncWritesCodewords := by
  unfold Obligations.GrEncWritesCodewords
  refine ⟨decode_encode .grEnc, fun s hs => ?_⟩
  simp only [← grCode_eq_msbFirst, ← hs.grSuflen_eq]
  exact ⟨_, rfl, ⟨commit_samePersistent .., ⟨rfl, rfl, rfl, rfl, rfl⟩⟩, commit_succeeds ..⟩

/-- Settles O24: the processing reads the codewords of R152, and the invariants name the suffix width. -/
theorem grDecReadsCodewords : Obligations.GrDecReadsCodewords := by
  unfold Obligations.GrDecReadsCodewords
  refine ⟨decode_encode .grDec, fun s hs => ?_⟩
  obtain ⟨t, ht⟩ := exists_execGrDec s
  obtain ⟨hhost, -, hkeep⟩ := unitsOwnTheirState .grDec s t ht
  rw [← hs.grSuflen_eq]
  exact ⟨t, ht, ⟨hkeep (by decide), hhost⟩, execGrDec_decodesBy ht⟩

/-- Settles O17: a positive integer is accepted, with the least suffix width, and the other operands are rejected. -/
theorem grCfgSetsParameter : Obligations.GrCfgSetsParameter := by
  unfold Obligations.GrCfgSetsParameter
  refine ⟨decode_encode .grCfg, fun s => ?_⟩
  obtain ⟨t, ht⟩ := exists_execGrCfg s
  obtain ⟨hhost, hunits, -⟩ := unitsOwnTheirState .grCfg s t ht
  refine ⟨t, ht, hunits, hhost, fun z hp hz => ?_, fun z hp hz => ?_, fun g hp => ?_⟩
  · obtain ⟨hok, hk, hwidth⟩ := execGrCfg_accepts ht hp hz
    rw [hwidth]
    exact ⟨hok, hk, le_two_pow_clog2 _, fun _ => clog2_least⟩
  · refine execGrCfg_rejects ht fun z' hp' => ?_
    obtain rfl : z = z' := by simpa [hp] using hp'
    exact hz
  · exact execGrCfg_rejects ht fun z' hp' => by simp [hp] at hp'

end Sys2Proof.Machine
end

section
/-! Facts every unit shares: the registers a command may not write, the first code point zero, and the
operands a universal decoder accepts (spec/10_state.md R20, spec/40_common.md R121 to R123). -/

namespace Sys2Proof.Machine

/-- A command that sets no state writes the result registers alone (R72, R120). -/
theorem exec_frame {i : Instr} {s t : State} (h : exec i s = .next t)
    (hi : i ∉ [Instr.grCfg, .repCfg, .crcCfg, .hufEnc, .fibEnc, .fibDec]) : Frame s t := by
  obtain ⟨hhost, -, hkeep⟩ := unitsOwnTheirState i s t h
  exact ⟨hkeep hi, hhost⟩

theorem EncEnds.exists_next {s s' : State} {rep : Report} {bits : BitSeq} {a : Bit} {o : StepOutcome}
    (h : EncEnds s s' rep bits a o) : ∃ t, o = .next t := by
  cases h with
  | accepted => exact ⟨_, rfl⟩
  | refused c => exact ⟨_, rfl⟩

/-- The symbol check names the least index of the code point zero (R123). -/
theorem firstZero_eq_some_iff (m : SymSeq) (i : Nat) : firstZero m = some i ↔ FirstZeroAt m i := by
  simp only [firstZero, List.findIdx?_eq_some_iff_getElem, beq_iff_eq]
  constructor
  · rintro ⟨hi, hzero, hbefore⟩
    refine ⟨⟨m[i], List.getElem?_eq_getElem hi, hzero⟩, fun j hj v hv => ?_⟩
    obtain ⟨_, rfl⟩ := List.getElem?_eq_some_iff.1 hv
    exact hbefore j hj
  · rintro ⟨⟨v, hv, hzero⟩, hbefore⟩
    obtain ⟨hi, rfl⟩ := List.getElem?_eq_some_iff.1 hv
    exact ⟨hi, hzero, fun j hj => hbefore j hj _ (List.getElem?_eq_getElem (hj.trans hi))⟩

theorem symbolCheck_of_firstZeroAt {m : SymSeq} {i : Nat} (h : FirstZeroAt m i) :
    symbolCheck m = .error (.zeroSymbol i) := by
  simp only [symbolCheck, (firstZero_eq_some_iff m i).2 h]

/-- A `DEC` that checks the alphabet of its operand and then ends with its processing of the bits answers a next
state on every operand, and there it has decoded by the words that the processing reads. -/
theorem exists_next_decodesBy {word : Nat → BitSeq → Prop} {cut : BitSeq → Prop}
    {decoder : BitSeq → Except Cause SymSeq} {s : State} {o : StepOutcome} (hread : ReadsCode word cut decoder)
    (hsplit : SplitsBits word cut) (hbad : ∀ i, firstBX s.inBit = some i → o = .next (s.raise (.decNonBinary i)))
    (hbits : ∀ bits, s.inBit = cellsOf bits → ∃ s' : State, o = .next (s'.endSyms (decoder bits))) :
    ∃ t, o = .next t ∧ DecodesBy word cut s t := by
  have hnext : ∃ t, o = .next t := by
    rcases alphabetCheck_cases .decNonBinary s.inBit with ⟨i, hi, -⟩ | ⟨bits, hin, -, -⟩
    · exact ⟨_, hbad i hi⟩
    · exact ⟨_, (hbits bits hin).choose_spec⟩
  obtain ⟨t, rfl⟩ := hnext
  refine ⟨t, rfl, decodesBy_of_readsCode hread hsplit (fun i hi => ?_) fun bits hin => ?_⟩
  · exact Host.Outcome.next.inj (hbad i hi)
  · obtain ⟨s', hend⟩ := hbits bits hin
    exact ⟨s', Host.Outcome.next.inj hend⟩

/-- The code of every error of a universal decoder is not `OK` (R330). -/
theorem Fails.statusErr_ne_zero {t : State} {sub index : Nat} {data : CellSeq} (h : Fails t 2 sub index data) :
    statusErr t.status ≠ 0#3 := by
  rw [h.status]
  decide

/-- The operands a universal decoder accepts are the whole codewords of the symbols it answers: with a `BX` cell,
or with a codeword that is cut or out of range, it fails (R121). -/
theorem DecodesBy.exists_words_of_ok {word : Nat → BitSeq → Prop} {cut : BitSeq → Prop} {s t : State}
    (h : DecodesBy word cut s t) (hok : statusErr t.status = 0#3) :
    ∃ ws : List (Sym × BitSeq), (∀ p ∈ ws, word p.1.val p.2) ∧ s.inBit = cellsOf (wordBits ws) ∧
      t.outSym = ws.map Prod.fst := by
  rcases alphabetCheck_cases .decNonBinary s.inBit with ⟨i, hbad, -⟩ | ⟨bits, hin, -, -⟩
  · exact absurd hok (h.nonBinary i ((firstBX_eq_some_iff ..).1 hbad)).statusErr_ne_zero
  obtain ⟨ws, rest, hws, rfl, rfl | hcut | ⟨v, b, rest', hword, hv, rfl⟩⟩ := h.every bits hin
  · rw [List.append_nil] at hin
    exact ⟨ws, hws, hin, (h.whole ws hws hin).outSym⟩
  · exact absurd hok (h.truncated ws rest hws hcut hin).statusErr_ne_zero
  · rw [← List.append_assoc] at hin
    exact absurd hok (h.outOfRange ws v b rest' hws hword hv hin).statusErr_ne_zero

/-- Codewords that an encoder's function of the symbol gives are the encoding of their symbols. -/
theorem wordBits_eq_flatMap {code : Nat → BitSeq} {ws : List (Sym × BitSeq)} (h : ∀ p ∈ ws, p.2 = code p.1.val) :
    wordBits ws = (ws.map Prod.fst).flatMap fun v => code v.val := by
  rw [wordBits, List.flatMap_def, List.map_map]
  exact congrArg List.flatten (List.map_congr_left h)

end Sys2Proof.Machine
end

section
/-! The `CFG` commands of the units without a parameter (spec/40_common.md R131). -/

namespace Sys2Proof.Machine

theorem exec_cfg_of_noParameter {i : Instr} (hi : i ∈ [Instr.egCfg, .fibCfg, .hufCfg, .hamCfg]) (s : State) :
    exec i s = .next (s.configured false) := by
  simp only [List.mem_cons, List.not_mem_nil, or_false] at hi
  rcases hi with rfl | rfl | rfl | rfl <;> rfl

/-- Settles O20: the four commands end at once, and such an end writes the result registers alone. -/
theorem cfgWithoutParameter : Obligations.CfgWithoutParameter := by
  unfold Obligations.CfgWithoutParameter
  refine ⟨decode_encode .egCfg, decode_encode .fibCfg, decode_encode .hufCfg, decode_encode .hamCfg,
    fun i s hi => ?_⟩
  have hexec := exec_cfg_of_noParameter hi s
  have hsets : ∀ j ∈ [Instr.egCfg, .fibCfg, .hufCfg, .hamCfg],
      j ∉ [Instr.grCfg, .repCfg, .crcCfg, .hufEnc, .fibEnc, .fibDec] := by decide
  have hok : Succeeds (s.configured false) {} [] [] [] := commit_succeeds ..
  exact ⟨_, hexec, hok, hok.status.trans (by decide), exec_frame hexec (hsets i hi)⟩

end Sys2Proof.Machine
end

section
/-! The Elias-Gamma unit (spec/42_elias_gamma.md R170 to R176). -/

namespace Sys2Proof.Machine

/-! ## The codewords (R170, R172) -/

theorem egWord_iff (v : Nat) (b : BitSeq) :
    egWord v b ↔ ∃ suf, v = 2 ^ suf.length + val suf ∧ b = unary suf.length ++ suf := by
  simp only [egWord, unary, List.append_assoc, List.singleton_append, and_comm]

theorem egCode_eq_msbFirst (v : Nat) :
    egCode v = List.replicate (flog2 v) false ++ true :: msbFirst (v - 2 ^ flog2 v) (flog2 v) := by
  rw [egCode, unary, bin_eq_msbFirst, List.append_assoc, List.singleton_append]

/-- A value has one codeword, the encoder's (R170, R172). -/
theorem eq_egCode_of_egWord {v : Nat} {b : BitSeq} (h : egWord v b) : b = egCode v := by
  obtain ⟨suf, hv, rfl⟩ := (egWord_iff ..).1 h
  exact (egCode_of_value hv).symm

/-- Zero has no codeword (R170). -/
theorem pos_of_egWord {v : Nat} {b : BitSeq} (h : egWord v b) : 1 ≤ v := by
  obtain ⟨suf, -, rfl⟩ := h
  exact Nat.le_add_right_of_le Nat.one_le_two_pow

theorem eg_splitsBits : SplitsBits egWord egCut where
  word_ne_nil := by
    rintro v b ⟨suf, rfl, -⟩
    simp
  cut_or_word bits hne := by
    rcases zeros_or_run bits with hzeros | ⟨n, tail, rfl⟩
    · exact .inl (.inl ⟨bits.length, List.length_pos_iff.2 hne, hzeros⟩)
    by_cases hlen : tail.length < n
    · exact .inl (.inr ⟨n, tail, hlen, rfl⟩)
    · have hsuf : (tail.take n).length = n := List.length_take_of_le (Nat.le_of_not_lt hlen)
      refine .inr ⟨_, _, tail.drop n, ⟨tail.take n, rfl, rfl⟩, ?_⟩
      rw [hsuf, List.append_assoc, List.cons_append, List.take_append_drop]

/-! ## `EG.ENC` (R171) -/

theorem execEgEnc_of_firstZeroAt {s : State} {i : Nat} (h : FirstZeroAt s.inSym i) :
    execEgEnc s = .next (s.raise (.zeroSymbol i)) := by
  simp only [execEgEnc, symbolCheck_of_firstZeroAt h]

theorem execEgEnc_of_pos {s : State} (h : ∀ v ∈ s.inSym, 1 ≤ v.val) :
    execEgEnc s = .next (s.commit {} [] (s.inSym.flatMap fun v => egCode v.val) []) := by
  simp only [execEgEnc, symbolCheck_of_pos h]

/-! ## `EG.DEC` (R172) -/

theorem egCut_ne_nil {b : BitSeq} (h : egCut b) : b ≠ [] := by
  rcases h with ⟨n, hn, rfl⟩ | ⟨n, suf, -, rfl⟩
  · simpa using Nat.ne_of_gt hn
  · simp

/-- A codeword that is cut is truncated, in its run as in its suffix (R127, R128). -/
theorem egReadOne_of_egCut {b : BitSeq} (h : egCut b) (ip : Nat) :
    egReadOne { ip := ip, rest := b } = .error (.truncated ip) := by
  rcases h with ⟨n, -, rfl⟩ | ⟨n, suf, hlen, rfl⟩
  · exact egReadOne_zeros n ip
  · simpa [unary] using egReadOne_short (ip := ip) hlen

theorem egDecode_readsCode : ReadsCode egWord egCut egDecode where
  whole _ hws := egDecode_words fun p hp => (egWord_iff ..).1 (hws p hp)
  truncated _ _ hws hcut :=
    egDecode_error (fun p hp => (egWord_iff ..).1 (hws p hp)) (egCut_ne_nil hcut) (egReadOne_of_egCut hcut _)
  outOfRange ws v b rest hws hword hv := by
    obtain ⟨suf, rfl, rfl⟩ := (egWord_iff ..).1 hword
    rw [List.append_assoc]
    exact egDecode_error (fun p hp => (egWord_iff ..).1 (hws p hp)) (by simp [unary]) (egReadOne_range hv)

theorem execEgDec_of_firstBX {s : State} {i : Nat} (h : firstBX s.inBit = some i) :
    execEgDec s = .next (s.raise (.decNonBinary i)) := by
  simp only [execEgDec, alphabetCheck_of_first h]

theorem execEgDec_of_bits {s : State} {bits : BitSeq} (h : s.inBit = cellsOf bits) :
    execEgDec s = .next (s.endSyms (egDecode bits)) := by
  simp only [execEgDec, h, alphabetCheck_cellsOf]

theorem exists_execEgDec_decodesBy (s : State) : ∃ t, execEgDec s = .next t ∧ DecodesBy egWord egCut s t :=
  exists_next_decodesBy egDecode_readsCode eg_splitsBits (fun _ => execEgDec_of_firstBX)
    fun _ hin => ⟨s, execEgDec_of_bits hin⟩

/-! ## The obligations -/

/-- Settles O29: without a code point zero `EG.ENC` accepts the text, and `EG.DEC` gives back what it wrote, as R133
says of the unit. -/
theorem egRoundTrip : Obligations.EgRoundTrip := by
  unfold Obligations.EgRoundTrip
  intro s m cells p rest hm hhost
  have hends := execEgEnc_ends (s.presented 0x10#8 m cells p (.chain 0x11#8 :: rest))
  obtain ⟨t, henc, hok⟩ := hends.accepts_iff.1 ((encAccepts_text (by decide)).2 hm)
  obtain ⟨v, hdec, htrip⟩ := execEgDec_execEgEnc hok 0x11#8 t.outSym t.param henc
  obtain ⟨hstep, u, hchain, hout⟩ := steps_of_chained (i := .egEnc) (j := .egDec) hhost henc hdec
  exact ⟨t, u, hstep, hok, hchain, Succeeds.of_sameOutcome htrip hout⟩

/-- Settles O26: the symbol check decides whether the command fails or commits its symbols' codewords. -/
theorem egEncWritesCodewords : Obligations.EgEncWritesCodewords := by
  unfold Obligations.EgEncWritesCodewords
  refine ⟨decode_encode .egEnc, fun s => ?_⟩
  obtain ⟨t, ht⟩ := (execEgEnc_ends s).exists_next
  refine ⟨t, ht, exec_frame (i := .egEnc) ht (by decide), fun i hi => ?_, fun hne => ?_⟩
  · obtain rfl := Host.Outcome.next.inj (ht.symm.trans (execEgEnc_of_firstZeroAt hi))
    exact raise_fails (.zeroSymbol i) s
  · have hpos : ∀ v ∈ s.inSym, 1 ≤ v.val := fun v hv => Nat.one_le_iff_ne_zero.2 (hne v hv)
    obtain rfl := Host.Outcome.next.inj (ht.symm.trans (execEgEnc_of_pos hpos))
    simp only [← egCode_eq_msbFirst]
    exact commit_succeeds ..

/-- Settles O27: the processing reads the codewords of R172, and the command sets no state. -/
theorem egDecReadsCodewords : Obligations.EgDecReadsCodewords := by
  unfold Obligations.EgDecReadsCodewords
  intro s
  obtain ⟨t, ht, hdecodes⟩ := exists_execEgDec_decodesBy s
  exact ⟨t, ht, exec_frame (i := .egDec) ht (by decide), hdecodes⟩

/-- Settles O28: an accepted operand is whole codewords, and each value has the encoder's codeword alone. -/
theorem egDecAcceptsImagesOnly : Obligations.EgDecAcceptsImagesOnly := by
  unfold Obligations.EgDecAcceptsImagesOnly
  intro s t h hok
  obtain ⟨t', ht', hdecodes⟩ := exists_execEgDec_decodesBy s
  obtain rfl : t = t' := Host.Outcome.next.inj (h.symm.trans ht')
  obtain ⟨ws, hws, hin, hout⟩ := hdecodes.exists_words_of_ok hok
  have hpos : ∀ v ∈ t.outSym, 1 ≤ v.val := by
    rw [hout]
    exact List.forall_mem_map.2 fun p hp => pos_of_egWord (hws p hp)
  refine ⟨fun v hv => Nat.one_le_iff_ne_zero.1 (hpos v hv), _, execEgEnc_of_pos hpos, statusErr_okStatus {}, ?_⟩
  rw [hin, wordBits_eq_flatMap fun p hp => eq_egCode_of_egWord (hws p hp), ← hout]
  rfl

end Sys2Proof.Machine
end

section
/-! The Zeckendorf codewords: each value has one, the greedy selection (spec/43_fibonacci.md R193, R194). -/

namespace Sys2Proof.Machine

theorem fibSum_concat_true (b : BitSeq) : fibSum 0 (b ++ [true]) = fibSum 0 b + fibNum b.length := by
  rw [fibSum_append, Nat.zero_add]
  rfl

theorem fibSum_concat_false (b : BitSeq) : fibSum 0 (b ++ [false]) = fibSum 0 b := by
  rw [fibSum_append]
  rfl

/-- Bits without a pair of ones that end in a one have a zero before it, if anything. -/
theorem NoPair.eq_nil_or_concat_false {b : BitSeq} (h : NoPair (b ++ [true])) :
    b = [] ∨ ∃ b', b = b' ++ [false] := by
  rcases List.eq_nil_or_concat' b with rfl | ⟨b', x, rfl⟩
  · exact .inl rfl
  cases x with
  | false => exact .inr ⟨b', rfl⟩
  | true => exact absurd ⟨b', [], by simp⟩ h

/-- The terms at non-adjacent places below `n` sum to less than `F(n)`, the bound on which R193 rests. -/
theorem fibSum_lt_fibNum {b : BitSeq} (h : NoPair b) : fibSum 0 b < fibNum b.length := by
  induction hn : b.length using Nat.strong_induction_on generalizing b with
  | _ n ih =>
    subst hn
    rcases List.eq_nil_or_concat' b with rfl | ⟨b, x, rfl⟩
    · decide
    have hlen (b : BitSeq) (x : Bit) : (b ++ [x]).length = b.length + 1 := List.length_append
    cases x with
    | false =>
      rw [fibSum_concat_false]
      exact (ih b.length (by simp) h.of_append_left rfl).trans (by rw [hlen]; exact fibNum_lt_succ _)
    | true =>
      rcases h.eq_nil_or_concat_false with rfl | ⟨b, rfl⟩
      · decide
      have hlt := ih b.length (by simp) h.of_append_left.of_append_left rfl
      rw [fibSum_concat_true, fibSum_concat_false, hlen (b ++ [false]), hlen b, fibNum_add_two]
      omega

/-- The greedy selection finds bits without a pair of ones again from their sum (R193). -/
theorem fibGreedy_fibSum {c : List Nat} (hc : FibCacheOk c) {b : BitSeq} (h : NoPair b) :
    fibGreedy c b.length (fibSum 0 b) = b := by
  induction b using List.reverseRecOn with
  | nil => rfl
  | append_singleton b x ih =>
    have hb : NoPair b := h.of_append_left
    rw [List.length_append, List.length_singleton]
    cases x with
    | false => rw [fibSum_concat_false, fibGreedy_last hc (fibSum_lt_fibNum hb), ih hb]
    | true => rw [fibSum_concat_true, fibGreedy_last_true hc (Nat.le_add_left ..), Nat.add_sub_cancel, ih hb]

/-- The highest term of a codeword is the greatest one not above its value (R193). -/
theorem fibNum_le_fibSum_concat_true (b : BitSeq) : fibNum b.length ≤ fibSum 0 (b ++ [true]) := by
  rw [fibSum_concat_true]
  exact Nat.le_add_left ..

theorem pos_of_fibWord {v : Nat} {b : BitSeq} (h : fibWord v b) : 1 ≤ v := by
  obtain ⟨p, -, -, rfl⟩ := h
  exact (fibNum_pos _).trans (fibNum_le_fibSum_concat_true p)

/-- Of two codewords the value of the one with fewer bits is below the other's highest term. -/
theorem length_le_of_fibSum_le {p q : BitSeq} (hq : NoPair (q ++ [true]))
    (h : fibSum 0 (p ++ [true]) ≤ fibSum 0 (q ++ [true])) : p.length ≤ q.length := by
  by_contra hlt
  have hterm : fibNum (q ++ [true]).length ≤ fibNum p.length := fibNum_le (by simp; omega)
  have hsum := fibSum_lt_fibNum hq
  have htop := fibNum_le_fibSum_concat_true p
  omega

/-- A value has one Zeckendorf codeword (R193). -/
theorem fibWord_unique {v : Nat} {b b' : BitSeq} (h : fibWord v b) (h' : fibWord v b') : b = b' := by
  obtain ⟨p, rfl, hp, rfl⟩ := h
  obtain ⟨q, rfl, hq, hsum⟩ := h'
  have hlen : p.length = q.length :=
    (length_le_of_fibSum_le hq hsum.le).antisymm (length_le_of_fibSum_le hp hsum.ge)
  have hpq : p ++ [true] = q ++ [true] := by
    rw [← fibGreedy_fibSum fibCacheOk_seed hp, ← fibGreedy_fibSum fibCacheOk_seed hq, hsum]
    simp only [List.length_append, hlen]
  rw [List.append_cancel_right hpq]

/-- The words `ws` are the codewords of the text `m`, one for each symbol (R195). -/
abbrev FibWords (m : SymSeq) (ws : List BitSeq) : Prop := List.Forall₂ (fun v b => fibWord v.val b) m ws

theorem FibWords.pos {m : SymSeq} {ws : List BitSeq} (h : FibWords m ws) : ∀ v ∈ m, 1 ≤ v.val := by
  induction h with
  | nil => simp
  | cons hword _ ih => exact List.forall_mem_cons.2 ⟨pos_of_fibWord hword, ih⟩

theorem FibWords.unique {m : SymSeq} {ws ws' : List BitSeq} (h : FibWords m ws) (h' : FibWords m ws') : ws = ws' :=
  Relator.RightUnique.forall₂ (R := fun (v : Sym) b => fibWord v.val b) (fun _ _ _ => fibWord_unique) h h'

theorem fibWords_of_forall_mem {ws : List (Sym × BitSeq)} (h : ∀ p ∈ ws, fibWord p.1.val p.2) :
    FibWords (ws.map Prod.fst) (ws.map Prod.snd) := by
  rw [FibWords, List.forall₂_map_left_iff, List.forall₂_map_right_iff, List.forall₂_same]
  exact h

/-- `FIB.ENC` writes codewords, and its cache then reaches past the terms of each (R194, R195). -/
theorem fibEncode_words {c : List Nat} (hc : FibCacheOk c) {m : SymSeq} (hm : ∀ v ∈ m, 1 ≤ v.val) :
    ∃ ws, (fibEncode c (m.map Fin.val)).2 = ws.flatten ∧
      List.Forall₂ (fun (v : Sym) b => fibWord v.val b ∧ b.length ≤ (fibEncode c (m.map Fin.val)).1.length) m ws := by
  obtain ⟨-, -, ws, hout, hws⟩ := fibEncode_spec (m.map Fin.val) hc (by simpa using hm)
  refine ⟨ws, hout, (List.forall₂_map_left_iff.1 hws).imp ?_⟩
  rintro v _ ⟨b, rfl, hpair, hsum, hlen⟩
  exact ⟨⟨b, rfl, hpair, hsum.symm⟩, by simpa using hlen⟩

/-- What `FIB.ENC` writes is the codewords of its text, whatever the cache held (R192, R193). -/
theorem fibEncode_eq_flatten {c : List Nat} (hc : FibCacheOk c) {m : SymSeq} {ws : List BitSeq} (h : FibWords m ws) :
    (fibEncode c (m.map Fin.val)).2 = ws.flatten := by
  obtain ⟨ws', hout, hws'⟩ := fibEncode_words hc h.pos
  rw [hout, h.unique (hws'.imp fun _ _ => And.left)]

end Sys2Proof.Machine
end

section
/-! The Fibonacci unit (spec/43_fibonacci.md R190 to R200). -/

namespace Sys2Proof.Machine

/-! ## The codewords as `FIB.DEC` reads them (R196) -/

theorem fibWord_iff (v : Nat) (b : BitSeq) :
    fibWord v b ↔ ∃ p, NoPair (p ++ [true]) ∧ v = fibSum 0 (p ++ [true]) ∧ b = p ++ [true, true] :=
  exists_congr fun _ => and_rotate

theorem fib_splitsBits : SplitsBits fibWord fibCut where
  word_ne_nil := by
    rintro v b ⟨p, rfl, -⟩
    simp
  cut_or_word bits hne := by
    rcases noPair_or_word bits with hopen | ⟨p, rest, hpair, rfl⟩
    · exact .inl ⟨hne, hopen⟩
    · exact .inr ⟨_, _, rest, ⟨p, rfl, hpair, rfl⟩, rfl⟩

theorem fibDecode_readsCode {c : List Nat} (hc : FibCacheOk c) :
    ReadsCode fibWord fibCut fun bits => (fibDecode c bits).2 where
  whole _ hws := fibDecode_words hc fun p hp => (fibWord_iff ..).1 (hws p hp)
  truncated _ _ hws hcut := by
    refine fibDecode_error hc (fun p hp => (fibWord_iff ..).1 (hws p hp)) hcut.1 fun c' hc' => ?_
    obtain ⟨_, -, -, hread⟩ := fibReadOne_open hc' _ hcut.2
    exact congrArg Prod.snd hread
  outOfRange ws v b rest hws hword hv := by
    obtain ⟨p, rfl, hpair, rfl⟩ := hword
    rw [List.append_assoc]
    refine fibDecode_error hc (fun p hp => (fibWord_iff ..).1 (hws p hp)) (by simp) fun c' hc' => ?_
    obtain ⟨_, -, -, hread⟩ := fibReadOne_range hc' _ hpair rest hv
    exact congrArg Prod.snd hread

/-! ## `FIB.ENC` (R195) and `FIB.DEC` (R196), case by case -/

theorem execFibEnc_of_firstZeroAt {s : State} {i : Nat} (h : FirstZeroAt s.inSym i) :
    execFibEnc s = .next (s.raise (.zeroSymbol i)) := by
  simp only [execFibEnc, symbolCheck_of_firstZeroAt h]

theorem execFibEnc_of_pos {s : State} (h : ∀ v ∈ s.inSym, 1 ≤ v.val) :
    execFibEnc s = .next ({ s with fibCache := (fibEncode s.fibCache (s.inSym.map Fin.val)).1 }.commit {} []
      (fibEncode s.fibCache (s.inSym.map Fin.val)).2 []) := by
  simp only [execFibEnc, symbolCheck_of_pos h]

theorem firstZeroAt_or_pos (m : SymSeq) : (∃ i, FirstZeroAt m i) ∨ ∀ v ∈ m, 1 ≤ v.val := by
  rcases symbolCheck_cases m with ⟨i, hi, -⟩ | ⟨hpos, -, -⟩
  · exact .inl ⟨i, (firstZero_eq_some_iff m i).1 hi⟩
  · exact .inr hpos

theorem execFibDec_of_firstBX {s : State} {i : Nat} (h : firstBX s.inBit = some i) :
    execFibDec s = .next (s.raise (.decNonBinary i)) := by
  simp only [execFibDec, alphabetCheck_of_first h]

theorem execFibDec_of_bits {s : State} {bits : BitSeq} (h : s.inBit = cellsOf bits) :
    execFibDec s = .next ({ s with fibCache := (fibDecode s.fibCache bits).1 }.endSyms
      (fibDecode s.fibCache bits).2) := by
  simp only [execFibDec, h, alphabetCheck_cellsOf]

theorem exists_execFibDec_decodesBy {s : State} (hc : FibCacheOk s.fibCache) :
    ∃ t, execFibDec s = .next t ∧ DecodesBy fibWord fibCut s t :=
  exists_next_decodesBy (fibDecode_readsCode hc) fib_splitsBits (fun _ => execFibDec_of_firstBX)
    fun _ hin => ⟨_, execFibDec_of_bits hin⟩

/-! ## The cache and the other registers (R191, R192, R195, R196) -/

theorem execFibEnc_fibCache {s t : State} (hc : FibCacheOk s.fibCache) (h : execFibEnc s = .next t) :
    FibCacheOk t.fibCache ∧ s.fibCache <+: t.fibCache := by
  rcases firstZeroAt_or_pos s.inSym with ⟨i, hi⟩ | hpos
  · obtain rfl := Host.Outcome.next.inj (h.symm.trans (execFibEnc_of_firstZeroAt hi))
    exact ⟨hc, List.prefix_rfl⟩
  · obtain rfl := Host.Outcome.next.inj (h.symm.trans (execFibEnc_of_pos hpos))
    obtain ⟨hok, hgrown, -⟩ := fibEncode_spec (s.inSym.map Fin.val) hc (by simpa using hpos)
    exact ⟨hok, hgrown⟩

theorem execFibDec_fibCache {s t : State} (hc : FibCacheOk s.fibCache) (h : execFibDec s = .next t) :
    FibCacheOk t.fibCache ∧ s.fibCache <+: t.fibCache := by
  rcases alphabetCheck_cases .decNonBinary s.inBit with ⟨i, hbad, -⟩ | ⟨bits, hin, -, -⟩
  · obtain rfl := Host.Outcome.next.inj (h.symm.trans (execFibDec_of_firstBX hbad))
    exact ⟨hc, List.prefix_rfl⟩
  · obtain rfl := Host.Outcome.next.inj (h.symm.trans (execFibDec_of_bits hin))
    rw [(endSyms_samePersistent ..).fibCache]
    exact fibDecode_cache hc bits

/-- Every command keeps the cache exact, and none shortens it (R191). -/
theorem exec_fibCache {i : Instr} {s t : State} (hc : FibCacheOk s.fibCache) (h : exec i s = .next t) :
    FibCacheOk t.fibCache ∧ s.fibCache <+: t.fibCache := by
  by_cases hi : i = .fibEnc ∨ i = .fibDec
  · rcases hi with rfl | rfl
    · exact execFibEnc_fibCache hc h
    · exact execFibDec_fibCache hc h
  · have hkeep : t.fibCache = s.fibCache := by
      by_cases hunit : i.unitOf = .fib
      · have hset : i ∉ [Instr.grCfg, .repCfg, .crcCfg, .hufEnc, .fibEnc, .fibDec] := by
          revert hi hunit
          cases i <;> decide
        exact (exec_frame h hset).persistent.fibCache
      · obtain ⟨-, hother, -⟩ := unitsOwnTheirState i s t h
        exact hother .fib (Ne.symm hunit)
    rw [hkeep]
    exact ⟨hc, List.prefix_rfl⟩

theorem SamePersistentButFib.sameUnit {s t : State} (h : SamePersistentButFib s t) {u : UnitId} (hu : u ≠ .fib) :
    SameUnit u s t := by
  cases u with
  | gr => exact ⟨h.grK, h.grSuflen⟩
  | fib => exact absurd rfl hu
  | huf => exact ⟨h.hufHave, h.hufNodes, h.hufRoot, h.hufTable⟩
  | rep => exact h.repR
  | crc => exact ⟨h.crcGen, h.crcDeg⟩
  | eg | ham => trivial

/-- Every persistent register but `FIB.CACHE` is one of a unit other than `FIB` (R20, R22). -/
theorem samePersistentButFib_of_sameUnit {s t : State} (h : ∀ u, u ≠ .fib → SameUnit u s t) :
    SamePersistentButFib s t := by
  obtain ⟨hk, hwidth⟩ := h .gr nofun
  obtain ⟨hhave, hnodes, hroot, htable⟩ := h .huf nofun
  have hrep : t.repR = s.repR := h .rep nofun
  obtain ⟨hgen, hdeg⟩ := h .crc nofun
  exact ⟨hk, hwidth, hhave, hnodes, hroot, htable, hrep, hgen, hdeg⟩

theorem exec_samePersistentButFib {i : Instr} {s t : State} (hi : i.unitOf = .fib) (h : exec i s = .next t) :
    SamePersistentButFib s t := by
  obtain ⟨-, hother, -⟩ := unitsOwnTheirState i s t h
  exact samePersistentButFib_of_sameUnit fun u hu => hother u (hi ▸ hu)

/-! ## The obligations -/

/-- Settles O34: without a code point zero `FIB.ENC` accepts the text, and `FIB.DEC` gives back what it wrote, as
R133 says of the unit. -/
theorem fibRoundTrip : Obligations.FibRoundTrip := by
  unfold Obligations.FibRoundTrip
  intro s m cells p rest hs hm hhost
  have hs₁ := hs.of_samePersistent (presented_samePersistent 0x20#8 m cells p (.chain 0x21#8 :: rest) s)
  have hends := execFibEnc_ends (s.presented 0x20#8 m cells p (.chain 0x21#8 :: rest))
  obtain ⟨t, henc, hok⟩ := hends.accepts_iff.1 ((encAccepts_text (by decide)).2 hm)
  obtain ⟨v, hdec, htrip⟩ := execFibDec_execFibEnc hok 0x21#8 t.outSym t.param hs₁ henc
  obtain ⟨hstep, u, hchain, hout⟩ := steps_of_chained (i := .fibEnc) (j := .fibDec) hhost henc hdec
  exact ⟨t, u, hstep, hok, hchain, Succeeds.of_sameOutcome htrip hout⟩

/-- Settles O30: the facts of the cache, each by its own lemma. -/
theorem fibCacheIsExact : Obligations.FibCacheIsExact := by
  unfold Obligations.FibCacheIsExact
  exact fun c i hc => ⟨fibTerm_eq i hc, fibReach_ok i hc, prefix_fibReach i hc, fibReach_length i hc⟩

/-- Settles O31: the symbol check decides whether the command fails or commits codewords, and each value has one. -/
theorem fibEncWritesCodewords : Obligations.FibEncWritesCodewords := by
  unfold Obligations.FibEncWritesCodewords
  intro s hs
  obtain ⟨t, ht⟩ := (execFibEnc_ends s).exists_next
  obtain ⟨hcache, hgrown⟩ := execFibEnc_fibCache hs.fibCache_ok ht
  refine ⟨t, ht, exec_samePersistentButFib (i := .fibEnc) rfl ht, exec_sameHost (i := .fibEnc) ht, hcache, hgrown,
    fun i hi => ?_, fun hne => ?_⟩
  · obtain rfl := Host.Outcome.next.inj (ht.symm.trans (execFibEnc_of_firstZeroAt hi))
    exact ⟨raise_fails (.zeroSymbol i) s, rfl⟩
  · have hpos : ∀ v ∈ s.inSym, 1 ≤ v.val := fun v hv => Nat.one_le_iff_ne_zero.2 (hne v hv)
    obtain rfl := Host.Outcome.next.inj (ht.symm.trans (execFibEnc_of_pos hpos))
    obtain ⟨ws, hout, hws⟩ := fibEncode_words hs.fibCache_ok hpos
    refine ⟨⟨ws, hws, ?_⟩, fun ws' => fibEncode_eq_flatten hs.fibCache_ok⟩
    rw [hout]
    exact commit_succeeds ..

/-- Settles O32: the processing reads the codewords of R196, and the command writes the cache alone. -/
theorem fibDecReadsCodewords : Obligations.FibDecReadsCodewords := by
  unfold Obligations.FibDecReadsCodewords
  intro s hs
  obtain ⟨t, ht, hdecodes⟩ := exists_execFibDec_decodesBy hs.fibCache_ok
  obtain ⟨hcache, hgrown⟩ := execFibDec_fibCache hs.fibCache_ok ht
  exact ⟨t, ht, exec_samePersistentButFib (i := .fibDec) rfl ht, exec_sameHost (i := .fibDec) ht, hcache, hgrown,
    hdecodes⟩

/-- Settles O33: an accepted operand is whole codewords, and each value has the encoder's codeword alone. -/
theorem fibDecAcceptsImagesOnly : Obligations.FibDecAcceptsImagesOnly := by
  unfold Obligations.FibDecAcceptsImagesOnly
  intro s t hs h hok
  obtain ⟨t', ht', hdecodes⟩ := exists_execFibDec_decodesBy hs.fibCache_ok
  obtain rfl : t = t' := Host.Outcome.next.inj (h.symm.trans ht')
  obtain ⟨ws, hws, hin, hout⟩ := hdecodes.exists_words_of_ok hok
  have hwords : FibWords t.outSym (ws.map Prod.snd) := hout ▸ fibWords_of_forall_mem hws
  refine ⟨fun v hv => Nat.one_le_iff_ne_zero.1 (hwords.pos v hv), _, execFibEnc_of_pos hwords.pos,
    statusErr_okStatus {}, ?_⟩
  rw [hin]
  exact congrArg cellsOf (fibEncode_eq_flatten hs.fibCache_ok hwords).symm

end Sys2Proof.Machine
end

section
/-! The length of `FIB.CACHE` shows in no result (spec/43_fibonacci.md R192). -/

namespace Sys2Proof.Machine

theorem SameUnit.symm {u : UnitId} {s t : State} (h : SameUnit u s t) : SameUnit u t s := by
  cases u <;> simp_all [SameUnit]

section caches

variable {s₁ s₂ t₁ : State} (hc₁ : FibCacheOk s₁.fibCache) (hc₂ : FibCacheOk s₂.fibCache)
  (hop : SameOperand s₁ s₂)

include hc₁ hc₂ hop

/-- `FIB.ENC` writes the codewords of its text, which do not depend on the cache. -/
theorem execFibEnc_sameOutcome (h : execFibEnc s₁ = .next t₁) :
    ∃ t₂, execFibEnc s₂ = .next t₂ ∧ SameOutcome t₁ t₂ := by
  rcases firstZeroAt_or_pos s₁.inSym with ⟨i, hi⟩ | hpos
  · obtain rfl := Host.Outcome.next.inj (h.symm.trans (execFibEnc_of_firstZeroAt hi))
    exact ⟨_, execFibEnc_of_firstZeroAt (hop.inSym ▸ hi), rfl, rfl, rfl, rfl, rfl⟩
  · obtain rfl := Host.Outcome.next.inj (h.symm.trans (execFibEnc_of_pos hpos))
    obtain ⟨ws, hout, hws⟩ := fibEncode_words hc₁ hpos
    refine ⟨_, execFibEnc_of_pos (hop.inSym ▸ hpos), rfl, rfl, rfl, ?_, rfl⟩
    rw [State.commit_outBit, State.commit_outBit, hop.inSym, hout]
    exact fibEncode_eq_flatten hc₂ (hws.imp fun _ _ => And.left)

/-- `FIB.DEC` reads the same from its operand, whatever the length of the cache. -/
theorem execFibDec_sameOutcome (h : execFibDec s₁ = .next t₁) :
    ∃ t₂, execFibDec s₂ = .next t₂ ∧ SameOutcome t₁ t₂ := by
  rcases alphabetCheck_cases .decNonBinary s₁.inBit with ⟨i, hbad, -⟩ | ⟨bits, hin, -, -⟩
  · obtain rfl := Host.Outcome.next.inj (h.symm.trans (execFibDec_of_firstBX hbad))
    exact ⟨_, execFibDec_of_firstBX (hop.inBit ▸ hbad), rfl, rfl, rfl, rfl, rfl⟩
  · obtain rfl := Host.Outcome.next.inj (h.symm.trans (execFibDec_of_bits hin))
    refine ⟨_, execFibDec_of_bits (hop.inBit.trans hin), ?_⟩
    rw [fibDecode_indep hc₂ hc₁ bits]
    cases (fibDecode s₁.fibCache bits).2 with
    | ok syms => exact ⟨rfl, rfl, rfl, rfl, rfl⟩
    | error c => exact ⟨rfl, rfl, rfl, rfl, rfl⟩

/-- Every command shows the same outcome over two exact caches, if the other registers of its unit agree. -/
theorem exec_sameOutcome {i : Instr} (hunit : i.unitOf ≠ .fib → SameUnit i.unitOf s₁ s₂) (h : exec i s₁ = .next t₁) :
    ∃ t₂, exec i s₂ = .next t₂ ∧ SameOutcome t₁ t₂ ∧ (i.unitOf ≠ .fib → SameUnit i.unitOf t₁ t₂) := by
  by_cases hfib : i.unitOf = .fib
  · have hout : ∃ t₂, exec i s₂ = .next t₂ ∧ SameOutcome t₁ t₂ := by
      cases i
      case fibEnc => exact execFibEnc_sameOutcome hc₁ hc₂ hop h
      case fibDec => exact execFibDec_sameOutcome hc₁ hc₂ hop h
      case fibVal =>
        cases h
        exact ⟨_, rfl, by simp [hop.inSym], rfl, rfl, rfl, rfl⟩
      case fibCfg =>
        cases h
        exact ⟨_, rfl, rfl, rfl, rfl, rfl, rfl⟩
      all_goals cases hfib
    obtain ⟨t₂, ht₂, hout⟩ := hout
    exact ⟨t₂, ht₂, hout, absurd hfib⟩
  · have halike := exec_alike hop i (hunit hfib)
    rw [h] at halike
    obtain ⟨t₂, ht₂, hout, hsame⟩ := halike.exists_next
    exact ⟨t₂, ht₂, hout, fun _ => hsame⟩

end caches

/-- Settles O14: the command's own unit ends alike in the two states, and it leaves the other units, which agreed
before it. -/
theorem cacheIsInvisible : Obligations.CacheIsInvisible := by
  unfold Obligations.CacheIsInvisible
  intro i s₁ s₂ t₁ hc₁ hc₂ hsame hsym hbit hparam h₁
  obtain ⟨t₂, h₂, hout, hown⟩ := exec_sameOutcome hc₁ hc₂ ⟨hsym, hbit, hparam⟩ hsame.sameUnit h₁
  obtain ⟨-, hother₁, -⟩ := unitsOwnTheirState i s₁ t₁ h₁
  obtain ⟨-, hother₂, -⟩ := unitsOwnTheirState i s₂ t₂ h₂
  refine ⟨t₂, h₂, hout, samePersistentButFib_of_sameUnit fun u hu => ?_, (exec_fibCache hc₁ h₁).1,
    (exec_fibCache hc₂ h₂).1⟩
  by_cases hunit : u = i.unitOf
  · subst hunit
    exact hown hu
  · exact (hother₁ u hunit).symm.trans ((hsame.sameUnit hu).trans (hother₂ u hunit))

end Sys2Proof.Machine
end

section
/-! The Huffman unit (spec/44_huffman.md R210 to R222). -/

namespace Sys2Proof.Machine

/-! ## The paths of the stored tree (R213, R216) -/

/-- The bits `p` stop on the way to a leaf of the tree: a code goes on behind them. -/
def HTree.Part (t : HTree) (p : BitSeq) : Prop := ∃ c ∈ t.codes, ∃ b q, c.2 = p ++ b :: q

theorem HTree.not_part_leaf (x : Sym) (w : Nat) (p : BitSeq) : ¬ (HTree.leaf x w).Part p := by
  rintro ⟨c, hc, b, q, hq⟩
  rw [HTree.codes, List.mem_singleton] at hc
  simp [hc] at hq

/-- An inner node has leaves below it, so the empty path stops before a leaf. -/
theorem HTree.part_node_nil (l r : HTree) : (HTree.node l r).Part [] := by
  rcases (HTree.node l r).codes_cover [] with ⟨c, hc, hpre⟩ | hpart
  · exact absurd (List.prefix_nil.1 hpre) (HTree.tableCodes_ne_nil (t := .node l r) hc)
  · exact hpart

theorem HTree.part_node_cons (l r : HTree) (d : Bit) (p : BitSeq) :
    (HTree.node l r).Part (d :: p) ↔ (if d then r else l).Part p := by
  cases d <;> simp [HTree.Part, HTree.codes, or_and_right, exists_or]

/-- A path leads to an inner node exactly if it stops on the way to a leaf. -/
theorem followPath_inner_iff {ns : List Node} : ∀ (t : HTree) (h : Nat) (p : BitSeq), HTree.At ns h t →
    ((∃ w l r, followPath ns h p = some (.inner w l r)) ↔ t.Part p)
  | .leaf x w, h, p, ht => by
    rw [HTree.At] at ht
    refine iff_of_false ?_ (HTree.not_part_leaf x w p)
    cases p <;> simp [followPath, ht]
  | .node l r, h, [], ht => by
    obtain ⟨a, b, hget, -⟩ := ht
    exact iff_of_true ⟨_, a, b, hget⟩ (HTree.part_node_nil l r)
  | .node l r, h, d :: p, ht => by
    obtain ⟨a, b, hget, -, -, hl, hr⟩ := ht
    rw [HTree.part_node_cons, followPath, hget]
    cases d with
    | false => exact followPath_inner_iff l a p hl
    | true => exact followPath_inner_iff r b p hr

section stored

variable {s : State} {T : HTree} {r : Nat} (hroot : s.hufRoot = some r) (hat : HTree.At s.hufNodes r T)

include hroot hat

theorem hufWord_iff_mem_codes (x : Sym) (b : BitSeq) : hufWord s x b ↔ (x, b) ∈ T.codes := by
  constructor
  · rintro ⟨r', w, hr', hpath⟩
    obtain rfl : r = r' := Option.some.inj (hroot.symm.trans hr')
    exact code_of_followPath T r x w b hat hpath
  · intro hcode
    obtain ⟨w, hpath, -⟩ := followPath_code T r x b hat hcode
    exact ⟨r, w, hroot, hpath⟩

theorem hufPart_iff_part (b : BitSeq) : hufPart s b ↔ T.Part b := by
  rw [← followPath_inner_iff T r b hat]
  constructor
  · rintro ⟨r', w, a, c, hr', hpath⟩
    obtain rfl : r = r' := Option.some.inj (hroot.symm.trans hr')
    exact ⟨w, a, c, hpath⟩
  · rintro ⟨w, a, c, hpath⟩
    exact ⟨r, w, a, c, hroot, hpath⟩

end stored

theorem hufBuild_root_nil : (hufBuild []).root = none := rfl

theorem treeOf_of_root {m : SymSeq} {r : Nat} (h : (hufBuild m).root = some r) : ∃ T, TreeOf m T r := by
  have hm : m ≠ [] := by
    rintro rfl
    cases hufBuild_root_nil.symm.trans h
  obtain ⟨T, r', hT⟩ := treeOf_exists hm
  obtain rfl : r = r' := Option.some.inj (h.symm.trans hT.root)
  exact ⟨T, hT⟩

/-- A code in the table is one of the text's tree. -/
theorem treeOf_of_tableGet {m : SymSeq} {x : Sym} {b : BitSeq} (h : tableGet x (hufBuild m).table = some b) :
    ∃ T r, TreeOf m T r :=
  treeOf_exists (List.ne_nil_of_mem ((hufBuild_table_mem m x).1 ⟨b, h⟩))

/-- Where the stored tree of a text has an inner node at its root, it is one with two subtrees (R213). -/
theorem treeOf_of_hufPart_nil {s : State} {m : SymSeq} (hnodes : s.hufNodes = (hufBuild m).nodes)
    (hroot : s.hufRoot = (hufBuild m).root) (h : hufPart s []) :
    ∃ l r root, TreeOf m (.node l r) root ∧ s.hufRoot = some root ∧ HTree.At s.hufNodes root (.node l r) := by
  obtain ⟨root, w, a, c, hr, hpath⟩ := h
  obtain ⟨T, hT⟩ := treeOf_of_root (hroot.symm.trans hr)
  have hat : HTree.At s.hufNodes root T := hnodes ▸ hT.at_root
  cases T with
  | leaf x v =>
    have hpart := (hufPart_iff_part hr hat []).1 ⟨root, w, a, c, hr, hpath⟩
    exact absurd hpart (HTree.not_part_leaf x v [])
  | node l r => exact ⟨l, r, root, hT, hr, hat⟩

/-- A symbol that stands alone at the root has the code `0` (R219). -/
theorem hufBuild_table_of_leaf {m : SymSeq} {r w : Nat} {x : Sym} (hroot : (hufBuild m).root = some r)
    (hleaf : (hufBuild m).nodes[r]? = some (.leaf x w)) : (hufBuild m).table = [(x, [false])] := by
  rw [hufBuild_table, hroot]
  simp only [hufTableOf, hleaf]

/-! ## `HUF.ENC` (R214, R215) -/

theorem execHufEnc_eq (s : State) : execHufEnc s = .next ((s.installTree (hufBuild s.inSym)).commit {} []
    (s.inSym.flatMap (codeOf (hufBuild s.inSym).table)) []) := by
  obtain ⟨t, ht, hok⟩ := (execHufEnc_ends s).accepts_iff.1 rfl
  rw [ht, ((execHufEnc_ends s).of_ok ht hok).2]

theorem tableGet_codeOf {t : List (Sym × BitSeq)} {x : Sym} (h : ∃ b, tableGet x t = some b) :
    tableGet x t = some (codeOf t x) := by
  obtain ⟨b, hb⟩ := h
  rw [codeOf, hb, Option.getD_some]

/-- A leaf stands as deep in the tree as its code is long, with the count of its symbol (R211, R213). -/
theorem TreeOf.mem_depths {m : SymSeq} {T : HTree} {r : Nat} (h : TreeOf m T r) {x : Sym} {b : BitSeq}
    (hcode : (x, b) ∈ T.codes) : (x, m.count x, b.length) ∈ T.depths 0 := by
  have hdepth : (x, b.length) ∈ (T.depths 0).map fun p => (p.1, p.2.2) := by
    rw [T.depths_codes 0]
    simpa using List.mem_map_of_mem (f := fun c : Sym × BitSeq => (c.1, 0 + c.2.length)) hcode
  obtain ⟨⟨y, f, d⟩, hmem, heq⟩ := List.mem_map.1 hdepth
  obtain ⟨rfl, rfl⟩ := Prod.mk.inj heq
  have hleaf : (y, f) ∈ T.leaves := by
    rw [← T.depths_leaves 0]
    exact List.mem_map_of_mem (f := fun p : Sym × Nat × Nat => (p.1, p.2.1)) hmem
  rwa [← (mem_hufFreqs.1 (h.leaves.mem_iff.1 hleaf)).2]

/-- Two symbols have codes in the table only under an inner root, where the codes are the paths (R213, R219). -/
theorem TreeOf.mem_codes_of_ne {m : SymSeq} {T : HTree} {r : Nat} (h : TreeOf m T r) {x y : Sym} {b c : BitSeq}
    (hx : tableGet x (hufBuild m).table = some b) (hy : tableGet y (hufBuild m).table = some c) (hne : x ≠ y) :
    (x, b) ∈ T.codes ∧ (y, c) ∈ T.codes := by
  rw [h.table] at hx hy
  cases T with
  | leaf z w =>
    simp only [HTree.tableCodes, List.mem_singleton, Prod.mk.injEq] at hx hy
    exact absurd (hx.1.trans hy.1.symm) hne
  | node l r' => exact ⟨hx, hy⟩

theorem hufBuild_prefixFree {m : SymSeq} {x y : Sym} {b c : BitSeq} (hx : tableGet x (hufBuild m).table = some b)
    (hy : tableGet y (hufBuild m).table = some c) (hne : x ≠ y) : ¬ b <+: c := by
  obtain ⟨T, r, hT⟩ := treeOf_of_tableGet hx
  obtain ⟨hb, hc⟩ := hT.mem_codes_of_ne hx hy hne
  have : Std.Symm fun c d : Sym × BitSeq => ¬ c.2 <+: d.2 ∧ ¬ d.2 <+: c.2 := ⟨fun _ _ => And.symm⟩
  exact (T.codes_prefixFree.forall hb hc fun heq => hne (Prod.mk.inj heq).1).1

theorem hufBuild_length_le_of_count_lt {m : SymSeq} {x y : Sym} {b c : BitSeq}
    (hx : tableGet x (hufBuild m).table = some b) (hy : tableGet y (hufBuild m).table = some c)
    (hcount : m.count x < m.count y) : c.length ≤ b.length := by
  obtain ⟨T, r, hT⟩ := treeOf_of_tableGet hx
  have hne : x ≠ y := by
    rintro rfl
    exact lt_irrefl _ hcount
  obtain ⟨hb, hc⟩ := hT.mem_codes_of_ne hx hy hne
  exact textTree_depths hT.trees (hT.mem_depths hb) (hT.mem_depths hc) hcount

/-! ## `HUF.DEC` (R216) -/

theorem execHufDec_of_noTree {s : State} (hhave : s.hufHave = false) : execHufDec s = .next (s.raise .noTree) := by
  simp only [execHufDec, hhave, if_true]

theorem execHufDec_of_firstBX {s : State} {i : Nat} (hhave : s.hufHave = true) (h : firstBX s.inBit = some i) :
    execHufDec s = .next (s.raise (.decNonBinary i)) := by
  simp only [execHufDec, hhave, alphabetCheck_of_first h, Bool.true_eq_false, if_false]

theorem execHufDec_of_bits {s : State} {bits : BitSeq} {result : Except Cause SymSeq} (hhave : s.hufHave = true)
    (hin : s.inBit = cellsOf bits) (hresult : hufDecode s.hufNodes s.hufRoot bits = some result) :
    execHufDec s = .next (s.endSyms result) := by
  simp only [execHufDec, hhave, hin, alphabetCheck_cellsOf, hresult, Bool.true_eq_false, if_false]

theorem exists_execHufDec {s : State} (hs : s.Inv) : ∃ t, execHufDec s = .next t := by
  cases hhave : s.hufHave with
  | false => exact ⟨_, execHufDec_of_noTree hhave⟩
  | true =>
    rcases alphabetCheck_cases .decNonBinary s.inBit with ⟨i, hbad, -⟩ | ⟨bits, hin, -, -⟩
    · exact ⟨_, execHufDec_of_firstBX hhave hbad⟩
    · obtain ⟨m, hnodes, hroot, -⟩ := hs.huf_built hhave
      obtain ⟨result, hresult, -⟩ := hufDecode_build m bits
      rw [← hnodes, ← hroot] at hresult
      exact ⟨_, execHufDec_of_bits hhave hin hresult⟩

theorem hufDecode_leaf {ns : List Node} {r w : Nat} {x : Sym} (h : ns[r]? = some (.leaf x w)) (bits : BitSeq) :
    hufDecode ns (some r) bits = some (hufWalkLeaf x 0 bits) := by
  simp only [hufDecode, h]

/-- Under an inner root the walk reads whole codes and stops in a part of one (R216). -/
theorem hufDecode_words {ns : List Node} {root : Nat} {l r : HTree} (hat : HTree.At ns root (.node l r))
    {ws : List (Sym × BitSeq)} {tail : BitSeq} (hws : ∀ p ∈ ws, p ∈ (HTree.node l r).codes)
    (htail : (HTree.node l r).Part tail) :
    hufDecode ns (some root) (wordBits ws ++ tail) =
      some (if tail = [] then .ok (ws.map Prod.fst) else .error (.truncated (wordBits ws).length)) := by
  have ⟨a, b, hget, _⟩ := hat
  have hwalk := hufWalk_codes hat htail ws 0 hws
  rw [List.flatMap_def, Nat.zero_add] at hwalk
  simp only [hufDecode, hget]
  exact hwalk

section walks

variable {s t : State} (ht : execHufDec s = .next t)

include ht

theorem execHufDec_fails_noTree (hhave : s.hufHave = false) : Fails t 4 1 0 [] := by
  obtain rfl := Host.Outcome.next.inj (ht.symm.trans (execHufDec_of_noTree hhave))
  exact raise_fails .noTree s

variable (hhave : s.hufHave = true)

include hhave

theorem execHufDec_fails_nonBinary {i : Nat} (hi : FirstBad s.inBit i) : Fails t 2 1 i [] := by
  obtain rfl := Host.Outcome.next.inj
    (ht.symm.trans (execHufDec_of_firstBX hhave ((firstBX_eq_some_iff ..).2 hi)))
  exact raise_fails (.decNonBinary i) s

theorem execHufDec_succeeds {bits : BitSeq} {m : SymSeq} (hin : s.inBit = cellsOf bits)
    (hm : hufDecode s.hufNodes s.hufRoot bits = some (.ok m)) : Succeeds t {} m [] [] := by
  obtain rfl := Host.Outcome.next.inj (ht.symm.trans (execHufDec_of_decode hin hhave hm))
  exact commit_succeeds ..

theorem execHufDec_fails {bits : BitSeq} (c : Cause) (hin : s.inBit = cellsOf bits)
    (hc : hufDecode s.hufNodes s.hufRoot bits = some (.error c)) :
    Fails t c.code.bits.toNat c.info.sub c.info.index c.info.data := by
  obtain rfl := Host.Outcome.next.inj (ht.symm.trans (execHufDec_of_bits hhave hin hc))
  exact raise_fails c s

/-- The empty tree has no code at all (R216, R220). -/
theorem execHufDec_emptyTree (hroot : s.hufRoot = none) :
    (s.inBit = [] → Succeeds t {} [] [] []) ∧
      ∀ bits, bits ≠ [] → s.inBit = cellsOf bits → Fails t 2 5 0 [] := by
  refine ⟨fun hin => ?_, fun bits hne hin => ?_⟩
  · refine execHufDec_succeeds ht hhave (bits := []) hin ?_
    rw [hroot, hufDecode, if_pos rfl]
  · refine execHufDec_fails ht hhave (.noSuchCode 0) hin ?_
    rw [hroot, hufDecode, if_neg hne]

/-- A lone leaf has the code `0` (R216, R219). -/
theorem execHufDec_loneLeaf {x : Sym} (hx : hufWord s x []) :
    (∀ n, s.inBit = cellsOf (List.replicate n false) → Succeeds t {} (List.replicate n x) [] []) ∧
      ∀ n rest, s.inBit = cellsOf (List.replicate n false ++ true :: rest) → Fails t 2 5 n [] := by
  obtain ⟨r, w, hroot, hleaf⟩ := hx
  refine ⟨fun n hin => ?_, fun n rest hin => ?_⟩
  · refine execHufDec_succeeds ht hhave hin ?_
    rw [hroot, hufDecode_leaf hleaf, hufWalkLeaf_zeros]
  · refine execHufDec_fails ht hhave (.noSuchCode n) hin ?_
    rw [hroot, hufDecode_leaf hleaf, hufWalkLeaf_one, Nat.zero_add]

/-- Under an inner root the operand is whole paths and a part of one (R216). -/
theorem execHufDec_innerRoot {root : Nat} {l r : HTree} (hroot : s.hufRoot = some root)
    (hat : HTree.At s.hufNodes root (.node l r)) {ws : List (Sym × BitSeq)} {tail : BitSeq}
    (hws : ∀ p ∈ ws, hufWord s p.1 p.2) (htail : hufPart s tail) (hin : s.inBit = cellsOf (wordBits ws ++ tail)) :
    (tail = [] → Succeeds t {} (ws.map Prod.fst) [] []) ∧
      (tail ≠ [] → Fails t 2 3 (wordBits ws).length []) := by
  have hdecode := hufDecode_words hat (fun p hp => (hufWord_iff_mem_codes hroot hat ..).1 (hws p hp))
    ((hufPart_iff_part hroot hat tail).1 htail)
  rw [← hroot] at hdecode
  constructor <;> intro h
  · rw [if_pos h] at hdecode
    exact execHufDec_succeeds ht hhave hin hdecode
  · rw [if_neg h] at hdecode
    exact execHufDec_fails ht hhave (.truncated _) hin hdecode

end walks

/-- Any bits are whole paths of a tree with an inner root and a part of one (R216). -/
theorem exists_hufWords {s : State} {root : Nat} {l r : HTree} (hroot : s.hufRoot = some root)
    (hat : HTree.At s.hufNodes root (.node l r)) (bits : BitSeq) :
    ∃ (ws : List (Sym × BitSeq)) (tail : BitSeq), (∀ p ∈ ws, hufWord s p.1 p.2) ∧ hufPart s tail ∧
      bits = wordBits ws ++ tail := by
  obtain ⟨ws, tail, rfl, hws, htail⟩ := bits_codes (l := l) (r := r) bits.length bits le_rfl
  exact ⟨ws, tail, fun p hp => (hufWord_iff_mem_codes hroot hat ..).2 (hws p hp),
    (hufPart_iff_part hroot hat tail).2 htail, by rw [wordBits, List.flatMap_def]⟩

/-! ## The obligations -/

/-- Settles O41: `HUF.ENC` accepts every text, and `HUF.DEC` gives back what it wrote, as R133 says of the unit. -/
theorem hufRoundTrip : Obligations.HufRoundTrip := by
  unfold Obligations.HufRoundTrip
  intro s m cells p rest hhost
  obtain ⟨t, henc, hok⟩ :=
    (execHufEnc_ends (s.presented 0x30#8 m cells p (.chain 0x31#8 :: rest))).accepts_iff.1 rfl
  obtain ⟨v, hdec, htrip⟩ := execHufDec_execHufEnc hok 0x31#8 t.outSym t.param henc
  obtain ⟨hstep, u, hchain, hout⟩ := steps_of_chained (i := .hufEnc) (j := .hufDec) hhost henc hdec
  exact ⟨t, u, hstep, hok, hchain, Succeeds.of_sameOutcome htrip hout⟩

/-- Settles O35: the command installs the arena of its text, and no unit but its own is written. -/
theorem hufEncBuildsArena : Obligations.HufEncBuildsArena := by
  unfold Obligations.HufEncBuildsArena
  intro s
  have hexec : exec .hufEnc s = _ := execHufEnc_eq s
  obtain ⟨hhost, hunits, -⟩ := unitsOwnTheirState .hufEnc s _ hexec
  exact ⟨_, _, hexec, rfl, hufBuild_arena s.inSym, hunits, hhost⟩

/-- Settles O36: the table of the text's tree holds its paths, and the command commits the symbols' codes. -/
theorem hufEncWritesCodes : Obligations.HufEncWritesCodes := by
  unfold Obligations.HufEncWritesCodes
  intro s
  refine ⟨_, execHufEnc_eq s, hufBuild_table_mem s.inSym, fun x b hpart => ?_, fun x hx => ?_,
    s.inSym.map (codeOf (hufBuild s.inSym).table), ?_, ?_⟩
  · obtain ⟨l, r, root, hT, hroot, hat⟩ := treeOf_of_hufPart_nil rfl rfl hpart
    rw [hufWord_iff_mem_codes hroot hat]
    exact hT.table x b
  · obtain ⟨r, w, hroot, hleaf⟩ := hx
    exact hufBuild_table_of_leaf hroot hleaf
  · rw [List.forall₂_map_right_iff, List.forall₂_same]
    exact fun x hx => tableGet_codeOf ((hufBuild_table_mem s.inSym x).2 hx)
  · rw [← List.flatMap_def]
    exact commit_succeeds ..

/-- Settles O37: without a tree the command fails, and with one the invariants name the text it was built from,
whose tree the walk follows. -/
theorem hufDecWalksTree : Obligations.HufDecWalksTree := by
  unfold Obligations.HufDecWalksTree
  intro s hs
  obtain ⟨t, ht⟩ := exists_execHufDec hs
  refine ⟨t, ht, exec_frame (i := .hufDec) ht (by decide), execHufDec_fails_noTree ht, fun hhave => ?_⟩
  refine ⟨fun _ => execHufDec_fails_nonBinary ht hhave, execHufDec_emptyTree ht hhave,
    fun _ => execHufDec_loneLeaf ht hhave, fun hpart => ?_⟩
  obtain ⟨m, hnodes, hbuilt, -⟩ := hs.huf_built hhave
  obtain ⟨l, r, root, -, hroot, hat⟩ := treeOf_of_hufPart_nil hnodes hbuilt hpart
  exact ⟨fun _ _ => execHufDec_innerRoot ht hhave hroot hat, exists_hufWords hroot hat⟩

/-- Settles O38: the codes of two symbols are two paths of one tree. -/
theorem hufCodeIsPrefixFree : Obligations.HufCodeIsPrefixFree := by
  unfold Obligations.HufCodeIsPrefixFree
  exact fun s => ⟨_, execHufEnc_eq s, fun _ _ _ _ => hufBuild_prefixFree⟩

/-- Settles O39: a code is as long as its leaf is deep, and the merges put no heavier leaf deeper. -/
theorem hufLengthsFollowCounts : Obligations.HufLengthsFollowCounts := by
  unfold Obligations.HufLengthsFollowCounts
  exact fun s => ⟨_, execHufEnc_eq s, fun _ _ _ _ => hufBuild_length_le_of_count_lt⟩

/-- Settles O40: the result is the code of every symbol of the text, and a sum over the text counts each distinct
symbol as often as it occurs. -/
theorem hufResultLength : Obligations.HufResultLength := by
  unfold Obligations.HufResultLength
  intro s
  refine ⟨_, execHufEnc_eq s, ?_⟩
  rw [State.commit_outBit, List.length_flatMap, Finset.sum_list_map_count]
  rfl

end Sys2Proof.Machine
end

section
/-! The Repetition unit (spec/45_repetition.md R240 to R246). -/

namespace Sys2Proof.Machine

/-! ## `REP.ENC` (R240, R241) -/

theorem repEncode_cons (r : Nat) (b : Bit) (m : BitSeq) :
    repEncode r (b :: m) = List.replicate r b ++ repEncode r m := by
  simp only [repEncode, List.flatMap_cons]

theorem repEncode_length (r : Nat) (m : BitSeq) : (repEncode r m).length = m.length * r := by
  rw [repEncode_eq_flatten, flatten_length_of_blocks (List.forall_mem_map.2 fun _ _ => List.length_replicate),
    List.length_map]

/-- Block `i` holds the copies of source bit `i` (R240). -/
theorem repEncode_getElem? {r j : Nat} (hj : j < r) (m : BitSeq) (i : Nat) (hi : i < m.length) :
    (repEncode r m)[i * r + j]? = m[i]? := by
  induction m generalizing i with
  | nil => exact absurd hi (Nat.not_lt_zero i)
  | cons b m ih =>
    rw [repEncode_cons]
    cases i with
    | zero =>
      rw [Nat.zero_mul, Nat.zero_add, List.getElem?_append_left (by simpa using hj), List.getElem?_replicate,
        if_pos hj, List.getElem?_cons_zero]
    | succ i =>
      have hskip : (i + 1) * r + j = (List.replicate r b).length + (i * r + j) := by
        rw [List.length_replicate, Nat.succ_mul, Nat.add_comm (i * r), Nat.add_assoc]
      rw [hskip, List.getElem?_append_right (Nat.le_add_right ..), Nat.add_sub_cancel_left,
        ih i (Nat.lt_of_succ_lt_succ hi), List.getElem?_cons_succ]

theorem execRepEnc_of_firstBX {s : State} {i : Nat} (h : firstBX s.inBit = some i) :
    execRepEnc s = .next (s.raise (.encNonBinary i)) := by
  simp only [execRepEnc, alphabetCheck_of_first h]

theorem execRepEnc_of_bits {s : State} {bits : BitSeq} (h : s.inBit = cellsOf bits) :
    execRepEnc s = .next (s.commit {} [] (repEncode s.repR bits) []) := by
  simp only [execRepEnc, h, alphabetCheck_cellsOf]

/-! ## The votes as R242 states them -/

/-- More ones than zeros is more ones than half of the block. -/
theorem majority_eq_majorityOf (r : Nat) : majority r = majorityOf r := by
  funext blk
  exact decide_eq_decide.2 (by omega)

/-- A block has as many ones as zeros when they are half of it. -/
theorem count_eq_zeros_iff (r : Nat) (blk : BitSeq) :
    blk.count true = r - blk.count true ↔ 2 * blk.count true = r := by
  omega

/-- A block holds both bits when its ones are neither none nor all of it. -/
theorem true_mem_and_false_mem_iff (blk : BitSeq) :
    true ∈ blk ∧ false ∈ blk ↔ 0 < blk.count true ∧ blk.count true < blk.length := by
  have hsum : blk.count true + blk.count false = blk.length := List.count_true_add_count_false blk
  rw [← List.count_pos_iff, ← List.count_pos_iff]
  omega

theorem repRecord_eq_voteRecord {r : Nat} {blk : BitSeq} (hlen : blk.length = r) (j : Nat) :
    repRecord r j blk (majorityOf r blk) = (voteRecord r (blk, j)).toList := by
  simp only [repRecord, voteRecord, true_mem_and_false_mem_iff, hlen, Nat.sub_pos_iff_lt]
  split <;> rfl

/-! ## `REP.DEC` (R242) -/

/-- A decode of blocks that are no ties (R242). -/
theorem repDecode_of_no_tie {r : Nat} (hr : 1 ≤ r) {blks : List BitSeq} (hlen : ∀ b ∈ blks, b.length = r)
    (hne : ∀ b ∈ blks, 2 * b.count true ≠ r) :
    repDecode r blks.flatten = .ok ({ corr := !(blks.zipIdx.filterMap (voteRecord r)).isEmpty },
      blks.map (majorityOf r), blks.zipIdx.filterMap (voteRecord r)) := by
  have hrecords : (blks.zipIdx.flatMap fun p => repRecord r p.2 p.1 (majorityOf r p.1)) =
      blks.zipIdx.filterMap (voteRecord r) := by
    rw [List.filterMap_eq_flatMap_toList]
    exact List.flatMap_congr fun p hp => repRecord_eq_voteRecord (hlen _ (List.fst_mem_of_mem_zipIdx hp)) p.2
  rw [repDecode_blocks hr hlen, repVote_ok blks 0 fun b hb => mt (count_eq_zeros_iff r b).1 (hne b hb),
    majority_eq_majorityOf, hrecords]
  rfl

/-- A decode up to the first tie (R242). -/
theorem repDecode_of_tie {r : Nat} (hr : 1 ≤ r) {pre post : List BitSeq} {blk : BitSeq}
    (hlen : ∀ b ∈ pre ++ blk :: post, b.length = r) (hne : ∀ b ∈ pre, 2 * b.count true ≠ r)
    (htie : 2 * blk.count true = r) :
    repDecode r (pre ++ blk :: post).flatten = .error (.tie pre.length (cellsOf blk)) := by
  rw [repDecode_blocks hr hlen, repVote_tie ((count_eq_zeros_iff r blk).2 htie) pre 0 fun b hb =>
    mt (count_eq_zeros_iff r b).1 (hne b hb), Nat.zero_add]

theorem repDecode_of_badLength {r : Nat} {bits : BitSeq} (h : bits.length % r ≠ 0) :
    repDecode r bits = .error (.badLength bits.length) := by
  rw [repDecode, if_neg h]

theorem execRepDec_of_firstBX {s : State} {i : Nat} (h : firstBX s.inBit = some i) :
    execRepDec s = .next (s.raise (.decNonBinary i)) := by
  simp only [execRepDec, alphabetCheck_of_first h]

theorem execRepDec_of_bits {s : State} {bits : BitSeq} (h : s.inBit = cellsOf bits) :
    execRepDec s = .next (s.endBits (repDecode s.repR bits)) := by
  simp only [execRepDec, h, alphabetCheck_cellsOf]

theorem exists_execRepDec (s : State) : ∃ t, execRepDec s = .next t := by
  rcases alphabetCheck_cases .decNonBinary s.inBit with ⟨_, hbad, -⟩ | ⟨_, hbits, -, -⟩
  · exact ⟨_, execRepDec_of_firstBX hbad⟩
  · exact ⟨_, execRepDec_of_bits hbits⟩

section votes

variable {s t : State} (ht : execRepDec s = .next t)

include ht

theorem execRepDec_fails_nonBinary {i : Nat} (hi : FirstBad s.inBit i) : Fails t 2 1 i [] := by
  obtain rfl := Host.Outcome.next.inj (ht.symm.trans (execRepDec_of_firstBX ((firstBX_eq_some_iff ..).2 hi)))
  exact raise_fails (.decNonBinary i) s

theorem execRepDec_fails {bits : BitSeq} (c : Cause) (hin : s.inBit = cellsOf bits)
    (hc : repDecode s.repR bits = .error c) : Fails t c.code.bits.toNat c.info.sub c.info.index c.info.data := by
  rw [execRepDec_of_bits hin, hc] at ht
  obtain rfl := Host.Outcome.next.inj ht
  exact raise_fails c s

theorem execRepDec_succeeds {bits : BitSeq} {rep : Report} {m : BitSeq} {dg : List DiagRec}
    (hin : s.inBit = cellsOf bits) (hm : repDecode s.repR bits = .ok (rep, m, dg)) : Succeeds t rep [] m dg := by
  obtain rfl := Host.Outcome.next.inj (ht.symm.trans (execRepDec_of_decode hin hm))
  exact commit_succeeds ..

end votes

/-! ## Blocks with flipped copies (R244) -/

/-- A flipped copy of a one is a zero: the ones of the block are the flips of a zero, or the other copies of a one. -/
theorem count_true_flippedBlock (p : Bit × BitSeq) : (flippedBlock p).count true =
    if p.1 then p.2.length - p.2.count true else p.2.count true := by
  obtain ⟨b, e⟩ := p
  have hsum : e.count true + e.count false = e.length := List.count_true_add_count_false e
  cases b with
  | false => simp [flippedBlock]
  | true =>
    have hflips : (e.map (true ^^ ·)).count true = e.count false :=
      List.count_map_of_injective e (true ^^ ·) (fun _ _ => Bool.xor_right_inj.1) false
    exact hflips.trans (Nat.eq_sub_of_add_eq' hsum)

section flipped

variable {r : Nat} {p : Bit × BitSeq} (hlen : p.2.length = r)

include hlen

theorem flips_le : p.2.count true ≤ r := hlen ▸ List.count_le_length

theorem flippedBlock_length : (flippedBlock p).length = r := by
  rw [flippedBlock, List.length_map, hlen]

/-- A block is a tie when half of its copies were flipped (R244). -/
theorem flippedBlock_tie_iff : 2 * (flippedBlock p).count true = r ↔ 2 * p.2.count true = r := by
  have hle := flips_le hlen
  rw [count_true_flippedBlock, hlen]
  split <;> omega

/-- Short of a tie, the majority is the source bit when fewer than half of the copies were flipped (R244). -/
theorem majorityOf_flippedBlock (hne : 2 * p.2.count true ≠ r) :
    majorityOf r (flippedBlock p) = if 2 * p.2.count true < r then p.1 else !p.1 := by
  have hle := flips_le hlen
  rw [majorityOf, count_true_flippedBlock, hlen]
  have hone : r < 2 * (r - p.2.count true) ↔ 2 * p.2.count true < r := by omega
  have hzero : r < 2 * p.2.count true ↔ ¬ 2 * p.2.count true < r := by omega
  cases p.1 with
  | false => simp [hzero, -not_lt, -Nat.not_lt]
  | true => simp [hone]

/-- A block holds both bits unless none or all of its copies were flipped (R244). -/
theorem flippedBlock_mixed_iff :
    (true ∈ flippedBlock p ∧ false ∈ flippedBlock p) ↔ 0 < p.2.count true ∧ p.2.count true < r := by
  have hle := flips_le hlen
  rw [true_mem_and_false_mem_iff, flippedBlock_length hlen, count_true_flippedBlock, hlen]
  split <;> omega

theorem voteRecord_flippedBlock (hne : 2 * p.2.count true ≠ r) (j : Nat) : voteRecord r (flippedBlock p, j) =
    if 0 < p.2.count true ∧ p.2.count true < r then
      some (.repFix j (flippedBlock p) (if 2 * p.2.count true < r then p.1 else !p.1))
    else none := by
  simp only [voteRecord, flippedBlock_mixed_iff hlen, majorityOf_flippedBlock hlen hne]

end flipped

/-! ## `REP.CFG` (R246) -/

theorem execRepCfg_of_pos {s : State} {z : Int} (h : s.param = .pInt z) (hz : 1 ≤ z) :
    execRepCfg s = .next ({ s with repR := z.toNat }.configured false) := by
  simp only [execRepCfg, h, if_pos hz]

/-- Every operand but a positive integer is rejected, and the command then ends at once. -/
theorem execRepCfg_of_rejected {s : State} (h : ∀ z, s.param = .pInt z → z < 1) :
    execRepCfg s = .next (s.configured true) := by
  unfold execRepCfg
  split
  case h_1 z hp => rw [if_neg (not_le.2 (h z hp))]
  case h_2 => rfl

/-! ## The obligations -/

/-- Settles O45: `REP.ENC` accepts the cells of a bit string, and its blocks of copies vote for the bits they copy. -/
theorem repRoundTrip : Obligations.RepRoundTrip := by
  unfold Obligations.RepRoundTrip
  intro s m syms p rest hs hhost
  have henc : exec .repEnc (s.presented 0x40#8 syms (cellsOf m) p (.chain 0x41#8 :: rest)) = _ :=
    execRepEnc_of_bits rfl
  obtain ⟨hstep, u, hchain, hout⟩ := steps_of_chained (i := .repEnc) (j := .repDec) hhost henc
    (execRepDec_of_decode rfl (repDecode_repEncode hs.repR_pos m))
  exact ⟨_, u, hstep, statusErr_okStatus _, hchain, (commit_succeeds ..).of_sameOutcome hout⟩

/-- Settles O42: the alphabet check decides whether the command fails or commits the copies of its bits. -/
theorem repEncRepeatsBits : Obligations.RepEncRepeatsBits := by
  unfold Obligations.RepEncRepeatsBits
  refine ⟨decode_encode .repEnc, fun s => ?_⟩
  obtain ⟨t, ht⟩ := (execRepEnc_ends s).exists_next
  refine ⟨t, ht, exec_frame (i := .repEnc) ht (by decide), fun i hi => ?_, fun bits hin => ?_⟩
  · obtain rfl := Host.Outcome.next.inj (ht.symm.trans (execRepEnc_of_firstBX ((firstBX_eq_some_iff ..).2 hi)))
    exact raise_fails (.encNonBinary i) s
  · obtain rfl := Host.Outcome.next.inj (ht.symm.trans (execRepEnc_of_bits hin))
    exact ⟨_, commit_succeeds .., repEncode_length .., fun i j hi hj => repEncode_getElem? hj bits i hi⟩

/-- Settles O43: the command ends as its votes on the blocks of the operand do, and it sets no state. -/
theorem repDecVotes : Obligations.RepDecVotes := by
  unfold Obligations.RepDecVotes
  refine ⟨decode_encode .repDec, fun s hs => ?_⟩
  obtain ⟨t, ht⟩ := exists_execRepDec s
  refine ⟨t, ht, exec_frame (i := .repDec) ht (by decide), fun _ => execRepDec_fails_nonBinary ht,
    fun bits hin hbad => ?_, fun blks hlen hin hne => ?_, fun pre blk post hlen hin hne htie => ?_⟩
  · exact execRepDec_fails ht (.badLength _) hin (repDecode_of_badLength hbad)
  · exact execRepDec_succeeds ht hin (repDecode_of_no_tie hs.repR_pos hlen hne)
  · exact execRepDec_fails ht (.tie _ _) hin (repDecode_of_tie hs.repR_pos hlen hne htie)

/-- Settles O44: the votes of O43 on the flipped blocks, each of which has its ones from its source bit and its
flips. -/
theorem repCorrectionPower : Obligations.RepCorrectionPower := by
  unfold Obligations.RepCorrectionPower
  intro s blks hs hlen hin
  rw [List.flatMap_def] at hin
  obtain ⟨-, hvotes⟩ := repDecVotes
  obtain ⟨t, ht, -, -, -, hmajority, hfirstTie⟩ := hvotes s hs
  have hblocks : ∀ b ∈ blks.map flippedBlock, b.length = s.repR :=
    List.forall_mem_map.2 fun p hp => flippedBlock_length (hlen p hp)
  refine ⟨t, ht, fun hne => ?_, ?_⟩
  · have hok := hmajority _ hblocks hin
      (List.forall_mem_map.2 fun p hp => mt (flippedBlock_tie_iff (hlen p hp)).1 (hne p hp))
    refine ⟨?_, ?_, ?_⟩
    · rw [hok.status, statusErr_okStatus]
    · rw [hok.outBit, List.map_map]
      exact List.map_congr_left fun p hp => majorityOf_flippedBlock (hlen p hp) (hne p hp)
    · rw [hok.diag, List.zipIdx_map, List.filterMap_map]
      refine List.filterMap_congr fun q hq => ?_
      have hmem := List.fst_mem_of_mem_zipIdx hq
      exact voteRecord_flippedBlock (hlen _ hmem) (hne _ hmem) q.2
  · rintro pre p post rfl hne htie
    rw [List.forall_mem_append, List.forall_mem_cons] at hlen
    obtain ⟨hpre, hp, -⟩ := hlen
    rw [List.map_append, List.map_cons] at hin hblocks
    rw [← List.length_map (f := flippedBlock)]
    exact hfirstTie _ _ _ hblocks hin
      (List.forall_mem_map.2 fun q hq => mt (flippedBlock_tie_iff (hpre q hq)).1 (hne q hq))
      ((flippedBlock_tie_iff hp).2 htie)

/-- Settles O18: a positive integer is accepted as the factor, and the other operands are rejected. -/
theorem repCfgSetsParameter : Obligations.RepCfgSetsParameter := by
  unfold Obligations.RepCfgSetsParameter
  refine ⟨decode_encode .repCfg, fun s => ?_⟩
  by_cases hrej : ∀ z, s.param = .pInt z → z < 1
  · have hexec : exec .repCfg s = _ := execRepCfg_of_rejected hrej
    obtain ⟨hhost, hunits, -⟩ := unitsOwnTheirState .repCfg s _ hexec
    have hok : Succeeds (s.configured true) { rej := true } [] [] [] := commit_succeeds ..
    exact ⟨_, hexec, hunits, hhost, fun z hp hz => absurd (hrej z hp) (not_lt.2 hz),
      fun _ _ _ => ⟨hok, rfl⟩, fun _ _ => ⟨hok, rfl⟩⟩
  · push Not at hrej
    obtain ⟨z, hp, hz⟩ := hrej
    have hexec : exec .repCfg s = _ := execRepCfg_of_pos hp hz
    obtain ⟨hhost, hunits, -⟩ := unitsOwnTheirState .repCfg s _ hexec
    refine ⟨_, hexec, hunits, hhost, fun z' hp' _ => ?_, fun z' hp' hz' => ?_, fun g hp' => ?_⟩
    · obtain rfl : z = z' := by simpa [hp] using hp'
      exact ⟨commit_succeeds .., Int.toNat_of_nonneg (by omega)⟩
    · obtain rfl : z = z' := by simpa [hp] using hp'
      exact absurd hz' (not_lt.2 hz)
    · simp [hp] at hp'

end Sys2Proof.Machine
end

section
/-! The remainder as a polynomial and in the document's form (spec/46_crc.md R260 to R269, R274). -/

namespace Sys2Proof.Machine

open Polynomial

theorem eq_zeros_iff_true_notMem {b : BitSeq} {n : Nat} (h : b.length = n) :
    b = List.replicate n false ↔ true ∉ b := by
  rw [List.eq_replicate_iff, and_iff_right h]
  constructor
  · intro hall hmem
    exact absurd (hall true hmem) Bool.false_ne_true.symm
  · intro hno x hx
    exact Bool.eq_false_iff.2 fun hx' => hno (hx' ▸ hx)

/-! ## The polynomial remainder (R265, R266) -/

/-- The remainder is the polynomial one for every legal generator, under its leading bit forced to 1. -/
theorem isRemainder_crcRem {G : BitSeq} (hG : 1 ≤ G.length) (S : BitSeq) :
    IsRemainder G S (crcRem G G.length S) := by
  refine ⟨crcRem_length hG S, ?_⟩
  rw [← crcRem_forceLead, ← forceLead_length hG]
  exact polyOf_crcRem (G.drop 1) S

/-- Settles O48: the division leaves a remainder, and division by a monic polynomial leaves one only. -/
theorem crcRemIsThePolynomialRemainder : Obligations.CrcRemIsThePolynomialRemainder := by
  unfold Obligations.CrcRemIsThePolynomialRemainder
  refine fun g S => ⟨crcRem_length (G := true :: g) (by simp) S, polyOf_crcRem g S, ?_⟩
  rintro R hlen ⟨Q, hQ⟩
  exact crcRem_unique hlen hQ

/-! ## The document's form (R263) -/

/-- After the first `d` bits the window, cleared at the start, holds just these bits. -/
theorem crcWindow_of_le {G S : BitSeq} (h : G.length ≤ S.length) :
    crcWindow G G.length S = (S.drop G.length).foldl (crcShift G) (S.take G.length) := by
  have hlen : (S.take G.length).length = G.length := List.length_take_of_le h
  have hload := crcFold_zeros G (S.take G.length) [] G.length hlen.le
  rw [hlen, Nat.sub_self, List.replicate_zero, List.append_nil, List.nil_append, List.nil_append] at hload
  rw [← hload, ← List.foldl_append, List.take_append_drop, crcWindow]

theorem crcRemDoc_eq (G S : BitSeq) :
    crcRemDoc G S = (crcReduce G ((S.drop G.length).foldl (crcShift G) (S.take G.length))).drop 1 := rfl

/-- Settles O49: the two windows agree when the document's is loaded, and run alike from there. -/
theorem crcDocumentFormAgrees : Obligations.CrcDocumentFormAgrees := by
  unfold Obligations.CrcDocumentFormAgrees
  intro G S _ hlen
  rw [crcRemDoc_eq, crcRem, crcWindow_of_le hlen]

/-! ## The laws (R268) -/

/-- Settles O52: linearity and leading zeros, and with them codewords and their error patterns. -/
theorem crcRemLaws : Obligations.CrcRemLaws := by
  unfold Obligations.CrcRemLaws
  refine fun G hG => ⟨fun _ _ => crcRem_xor hG, crcRem_cons_zero hG, ?_⟩
  rintro M _ rfl
  exact ⟨crcRem_codeword hG M, fun _ => crcRem_codeword_xor hG M⟩

/-! ## Error patterns (R274) -/

/-- A received codeword leaves no remainder exactly when its error pattern is a multiple of `G'`. -/
theorem crcRem_received_eq_zeros_iff {G : BitSeq} (hG : 1 ≤ G.length) (M : BitSeq) {E : BitSeq}
    (h : E.length = (crcEncode G G.length M).length) :
    crcRem G G.length (xorSeq (crcEncode G G.length M) E) = List.replicate (G.length - 1) false ↔
      polyOf (forceLead G) ∣ polyOf E := by
  rw [crcRem_codeword_xor hG M h, ← crcRem_forceLead, ← forceLead_length hG]
  exact crcRem_eq_zeros_iff (G.drop 1) E

/-- A pattern with one flip is zeros but for one place. -/
theorem exists_zeros_of_count_one {E : BitSeq} (h : E.count true = 1) :
    ∃ a b, E = List.replicate a false ++ true :: List.replicate b false := by
  obtain ⟨l, r, rfl⟩ := List.append_of_mem (List.count_pos_iff.1 (h ▸ Nat.one_pos))
  rw [List.count_append, List.count_cons_self] at h
  have hl : true ∉ l := List.count_eq_zero.1 (by omega)
  have hr : true ∉ r := List.count_eq_zero.1 (by omega)
  exact ⟨l.length, r.length, by rw [← (eq_zeros_iff_true_notMem rfl).2 hl, ← (eq_zeros_iff_true_notMem rfl).2 hr]⟩

/-- A single 1 with `b` zeros behind it stands for the power `b` (R260). -/
theorem polyOf_single (a b : Nat) :
    polyOf (List.replicate a false ++ true :: List.replicate b false) = X ^ b := by
  rw [polyOf_append, polyOf_cons, polyOf_zeros, polyOf_zeros, List.length_replicate, if_pos rfl]
  ring

theorem polyOf_true_monic (g : BitSeq) : (polyOf (true :: g)).Monic := by
  rw [polyOf_cons, if_pos rfl, one_mul]
  exact monic_X_pow_add (polyOf_degree_lt g)

/-- A power of `x` has no divisors but powers of `x`, so none with a second term. -/
theorem not_polyOf_dvd_X_pow {g : BitSeq} (h : true ∈ g) (n : Nat) : ¬ polyOf (true :: g) ∣ X ^ n := by
  intro hdvd
  obtain ⟨i, -, hassoc⟩ := (dvd_prime_pow prime_X n).1 hdvd
  have hpow : polyOf (true :: g) = X ^ i := eq_of_monic_of_associated (polyOf_true_monic g) (monic_X_pow i) hassoc
  have hdeg : g.length = i := by
    have hd := polyOf_true_degree g
    rw [hpow, degree_X_pow] at hd
    exact_mod_cast hd.symm
  rw [← hdeg, ← polyOf_single 0] at hpow
  have hzeros : true :: g = true :: List.replicate g.length false := polyOf_injective (by simp) hpow
  exact (eq_zeros_iff_true_notMem rfl).1 (List.cons.inj hzeros).2 h

theorem not_polyOf_dvd_of_count_one {g E : BitSeq} (h : true ∈ g) (hE : E.count true = 1) :
    ¬ polyOf (true :: g) ∣ polyOf E := by
  obtain ⟨a, b, rfl⟩ := exists_zeros_of_count_one hE
  rw [polyOf_single]
  exact not_polyOf_dvd_X_pow h b

/-- Under the bare power `x^(d-1)` a single flip in front of the last `d - 1` bits stays unseen. -/
theorem polyOf_dvd_of_count_one {g E : BitSeq} {n : Nat} (h : true ∉ g) (hE : E.count true = 1)
    (hlen : E.length = n + g.length) (hmem : true ∈ E.take n) : polyOf (true :: g) ∣ polyOf E := by
  obtain ⟨a, b, rfl⟩ := exists_zeros_of_count_one hE
  have ha : a < n := by
    by_contra hle
    rw [List.take_append_of_le_length (by simpa using hle), List.take_replicate] at hmem
    exact absurd (List.eq_of_mem_replicate hmem) Bool.false_ne_true.symm
  have hgen : polyOf (true :: g) = X ^ g.length := by
    rw [(eq_zeros_iff_true_notMem rfl).2 h, List.length_replicate]
    exact polyOf_single 0 g.length
  rw [polyOf_single, hgen]
  rw [List.length_append, List.length_cons, List.length_replicate, List.length_replicate] at hlen
  exact pow_dvd_pow X (by omega)

end Sys2Proof.Machine
end

section
/-! The commands of the CRC unit (spec/46_crc.md R264 to R277). -/

namespace Sys2Proof.Machine

/-! ## `CRC.ENC` (R264) -/

theorem execCrcEnc_of_firstBX {s : State} {i : Nat} (h : firstBX s.inBit = some i) :
    execCrcEnc s = .next (s.raise (.encNonBinary i)) := by
  simp only [execCrcEnc, alphabetCheck_of_first h]

theorem execCrcEnc_of_bits {s : State} {bits : BitSeq} (hs : s.Inv) (h : s.inBit = cellsOf bits) :
    execCrcEnc s = .next (s.commit {} [] (crcEncode s.crcGen s.crcGen.length bits) []) := by
  simp only [execCrcEnc, h, alphabetCheck_cellsOf, hs.crcDeg_eq]

/-! ## `CRC.DEC` (R270, R271) -/

theorem crcDecode_of_short {G bits : BitSeq} {d : Nat} (h : bits.length < d - 1) :
    crcDecode G d bits = .error (.badLength bits.length) := by
  rw [crcDecode, if_pos h]

section divided

variable {G bits : BitSeq} {d : Nat} (hlen : d - 1 ≤ bits.length)

include hlen

theorem crcDecode_of_zeros (h : crcRem G d bits = List.replicate (d - 1) false) :
    crcDecode G d bits = .ok ({}, bits.take (bits.length - (d - 1)), []) := by
  simp only [crcDecode, if_neg (Nat.not_lt.2 hlen), if_pos h]

theorem crcDecode_of_ne_zeros (h : crcRem G d bits ≠ List.replicate (d - 1) false) :
    crcDecode G d bits = .ok ({ detect := true }, bits.take (bits.length - (d - 1)) ++ crcRem G d bits,
      [.crcDetect (crcRem G d bits)]) := by
  simp only [crcDecode, if_neg (Nat.not_lt.2 hlen), if_neg h]

end divided

theorem execCrcDec_of_firstBX {s : State} {i : Nat} (h : firstBX s.inBit = some i) :
    execCrcDec s = .next (s.raise (.decNonBinary i)) := by
  simp only [execCrcDec, alphabetCheck_of_first h]

theorem execCrcDec_of_bits {s : State} {bits : BitSeq} (hs : s.Inv) (h : s.inBit = cellsOf bits) :
    execCrcDec s = .next (s.endBits (crcDecode s.crcGen s.crcGen.length bits)) := by
  simp only [execCrcDec, h, alphabetCheck_cellsOf, hs.crcDeg_eq]

theorem exists_execCrcDec {s : State} (hs : s.Inv) : ∃ t, execCrcDec s = .next t := by
  rcases alphabetCheck_cases .decNonBinary s.inBit with ⟨_, hbad, -⟩ | ⟨_, hbits, -, -⟩
  · exact ⟨_, execCrcDec_of_firstBX hbad⟩
  · exact ⟨_, execCrcDec_of_bits hs hbits⟩

theorem execCrcDec_succeeds {s t : State} {bits m : BitSeq} {rep : Report} {dg : List DiagRec} (hs : s.Inv)
    (ht : execCrcDec s = .next t) (hin : s.inBit = cellsOf bits)
    (hm : crcDecode s.crcGen s.crcGen.length bits = .ok (rep, m, dg)) : Succeeds t rep [] m dg := by
  rw [execCrcDec_of_bits hs hin, hm] at ht
  obtain rfl := Host.Outcome.next.inj ht
  exact commit_succeeds ..

/-- `DETECT` says whether the division left a remainder (R271). -/
theorem execCrcDec_detect {s : State} {bits : BitSeq} (hs : s.Inv) (hin : s.inBit = cellsOf bits)
    (hlen : s.crcGen.length - 1 ≤ bits.length) : ∃ u, execCrcDec s = .next u ∧ statusErr u.status = 0#3 ∧
      (statusDetect u.status = false ↔
        crcRem s.crcGen s.crcGen.length bits = List.replicate (s.crcGen.length - 1) false) := by
  have hexec := execCrcDec_of_bits hs hin
  by_cases hrem : crcRem s.crcGen s.crcGen.length bits = List.replicate (s.crcGen.length - 1) false
  · rw [crcDecode_of_zeros hlen hrem] at hexec
    exact ⟨_, hexec, statusErr_okStatus _, iff_of_true (statusDetect_okStatus _) hrem⟩
  · rw [crcDecode_of_ne_zeros hlen hrem] at hexec
    refine ⟨_, hexec, statusErr_okStatus _, iff_of_false (fun hdet => ?_) hrem⟩
    exact Bool.noConfusion ((statusDetect_okStatus { detect := true }).symm.trans hdet)

/-! ## The leading bit (R266) -/

theorem crcEncode_forceLead {G : BitSeq} {d : Nat} (hd : d = G.length) (bits : BitSeq) :
    crcEncode (forceLead G) d bits = crcEncode G d bits := by
  rw [crcEncode, crcEncode, hd, crcRem_forceLead]

theorem crcDecode_forceLead {G : BitSeq} {d : Nat} (hd : d = G.length) (bits : BitSeq) :
    crcDecode (forceLead G) d bits = crcDecode G d bits := by
  simp only [crcDecode, hd, crcRem_forceLead]

theorem sameUnit_of_crcGen {u : UnitId} (hu : u ≠ .crc) (G : BitSeq) (s : State) :
    SameUnit u s { s with crcGen := G } := by
  cases u
  case crc => exact absurd rfl hu
  all_goals simp [SameUnit]

section forced

variable {u : UnitId} {s : State} (hu : u ≠ .crc) (hs : s.Inv)

include hu hs

theorem execCrcEnc_forceLead :
    EndsAlike u (execCrcEnc s) (execCrcEnc { s with crcGen := forceLead s.crcGen }) := by
  have hunit := sameUnit_of_crcGen hu (forceLead s.crcGen) s
  simp only [execCrcEnc, crcEncode_forceLead hs.crcDeg_eq]
  cases alphabetCheck .encNonBinary s.inBit with
  | error c => exact .raise hunit c
  | ok bits => exact .commit hunit ..

theorem execCrcDec_forceLead :
    EndsAlike u (execCrcDec s) (execCrcDec { s with crcGen := forceLead s.crcGen }) := by
  have hunit := sameUnit_of_crcGen hu (forceLead s.crcGen) s
  simp only [execCrcDec, crcDecode_forceLead hs.crcDeg_eq]
  cases alphabetCheck .decNonBinary s.inBit with
  | error c => exact .raise hunit c
  | ok bits => exact .endBits hunit _

end forced

/-! ## A generator of length 1 (R269) -/

theorem crcRem_of_length_one {G : BitSeq} (hG : G.length = 1) (S : BitSeq) : crcRem G G.length S = [] :=
  List.length_eq_zero_iff.1 (by rw [crcRem_length hG.ge, hG])

theorem crcEncode_of_length_one {G : BitSeq} (hG : G.length = 1) (bits : BitSeq) :
    crcEncode G G.length bits = bits := by
  rw [crcEncode, crcRem_of_length_one hG, List.append_nil]

theorem crcDecode_of_length_one {G : BitSeq} (hG : G.length = 1) (bits : BitSeq) :
    crcDecode G G.length bits = .ok ({}, bits, []) := by
  have hzero : G.length - 1 = 0 := by rw [hG]
  rw [crcDecode_of_zeros (by omega) (by rw [crcRem_of_length_one hG, hzero]; rfl), hzero, Nat.sub_zero,
    List.take_length]

/-! ## `CRC.CFG` (R273) -/

theorem cellsOf_injective : Function.Injective cellsOf :=
  Function.LeftInverse.injective (g := List.map cellBit) cellsOf_map_bit

theorem bX_notMem_cellsOf (bits : BitSeq) : .bX ∉ cellsOf bits :=
  (firstBX_eq_none_iff _).1 (firstBX_cellsOf bits)

theorem execCrcCfg_of_bits {s : State} {bits : BitSeq} (h : s.param = .pGen (cellsOf bits)) (hne : bits ≠ []) :
    execCrcCfg s = .next ({ s with crcGen := bits, crcDeg := bits.length }.configured false) := by
  have hok : 1 ≤ bits.length ∧ firstBX (cellsOf bits) = none := ⟨List.length_pos_iff.2 hne, firstBX_cellsOf bits⟩
  simp only [execCrcCfg, h, cellsOf_map_bit, cellsOf_length, if_pos hok]

/-- Every operand but a generator of at least one bit is rejected, and the command then ends at once. -/
theorem execCrcCfg_of_rejected {s : State} (h : ∀ bits, s.param = .pGen (cellsOf bits) → bits = []) :
    execCrcCfg s = .next (s.configured true) := by
  unfold execCrcCfg
  split
  case h_1 g hp =>
    rw [if_neg]
    rintro ⟨hlen, hbits⟩
    have hcells := eq_cellsOf_of_firstBX_none hbits
    have hnil := h _ (hp.trans (congrArg Param.pGen hcells))
    rw [List.map_eq_nil_iff.1 hnil] at hlen
    exact Nat.not_succ_le_zero 0 hlen
  case h_2 => rfl

/-! ## The obligations -/

/-- Settles O54: `CRC.ENC` accepts the cells of a bit string, and its codeword divides without remainder. -/
theorem crcRoundTrip : Obligations.CrcRoundTrip := by
  unfold Obligations.CrcRoundTrip
  intro s m syms p rest hs hhost
  have hs₁ := hs.of_samePersistent (presented_samePersistent 0x50#8 syms (cellsOf m) p (.chain 0x51#8 :: rest) s)
  have henc : exec .crcEnc (s.presented 0x50#8 syms (cellsOf m) p (.chain 0x51#8 :: rest)) = _ :=
    execCrcEnc_of_bits hs₁ rfl
  have hdecode := crcDecode_crcEncode hs.crcGen_pos m
  nth_rw 1 [← hs.crcDeg_eq] at hdecode
  obtain ⟨hstep, u, hchain, hout⟩ := steps_of_chained (i := .crcEnc) (j := .crcDec) hhost henc
    (execCrcDec_of_decode rfl hdecode)
  exact ⟨_, u, hstep, statusErr_okStatus _, hchain, (commit_succeeds ..).of_sameOutcome hout⟩

/-- Settles O46: the alphabet check decides whether the command fails or commits its bits and their remainder. -/
theorem crcEncAppendsRemainder : Obligations.CrcEncAppendsRemainder := by
  unfold Obligations.CrcEncAppendsRemainder
  intro s hs
  obtain ⟨t, ht⟩ := (execCrcEnc_ends s).exists_next
  refine ⟨t, ht, exec_frame (i := .crcEnc) ht (by decide), fun i hi => ?_, fun bits hin => ?_⟩
  · obtain rfl := Host.Outcome.next.inj (ht.symm.trans (execCrcEnc_of_firstBX ((firstBX_eq_some_iff ..).2 hi)))
    exact raise_fails (.encNonBinary i) s
  · obtain rfl := Host.Outcome.next.inj (ht.symm.trans (execCrcEnc_of_bits hs hin))
    exact ⟨_, isRemainder_crcRem hs.crcGen_pos _, commit_succeeds ..⟩

/-- Settles O47: the command ends as its division of the operand's bits does, and it sets no state. -/
theorem crcDecDivides : Obligations.CrcDecDivides := by
  unfold Obligations.CrcDecDivides
  intro s hs
  obtain ⟨t, ht⟩ := exists_execCrcDec hs
  refine ⟨t, ht, exec_frame (i := .crcDec) ht (by decide), fun i hi => ?_, fun bits hin hshort => ?_,
    fun bits hin hlen => ?_⟩
  · obtain rfl := Host.Outcome.next.inj (ht.symm.trans (execCrcDec_of_firstBX ((firstBX_eq_some_iff ..).2 hi)))
    exact raise_fails (.decNonBinary i) s
  · rw [execCrcDec_of_bits hs hin, crcDecode_of_short hshort] at ht
    obtain rfl := Host.Outcome.next.inj ht
    exact raise_fails (.badLength _) s
  · have hzeros := eq_zeros_iff_true_notMem (crcRem_length hs.crcGen_pos bits)
    refine ⟨_, isRemainder_crcRem hs.crcGen_pos bits, fun hno => ?_, fun hone => ?_⟩
    · exact execCrcDec_succeeds hs ht hin (crcDecode_of_zeros hlen (hzeros.2 hno))
    · exact execCrcDec_succeeds hs ht hin (crcDecode_of_ne_zeros hlen fun heq => hzeros.1 heq hone)

/-- Settles O50: every step drops the window's leading bit, the only one the generator's leading bit reaches. -/
theorem crcLeadingBitIsInvisible : Obligations.CrcLeadingBitIsInvisible := by
  unfold Obligations.CrcLeadingBitIsInvisible
  refine ⟨fun G S _ => (crcRem_forceLead G S).symm, fun i s t hi hs h => ?_⟩
  have halike : EndsAlike .gr (exec i s) (exec i { s with crcGen := forceLead s.crcGen }) := by
    simp only [List.mem_cons, List.not_mem_nil, or_false] at hi
    rcases hi with rfl | rfl
    · exact execCrcEnc_forceLead nofun hs
    · exact execCrcDec_forceLead nofun hs
  rw [h] at halike
  obtain ⟨t', ht', hout, -⟩ := halike.exists_next
  exact ⟨t', ht', hout⟩

/-- Settles O51: in front of a short string the window's zeros only shift out, and a window of one bit leaves no
remainder. -/
theorem crcShortStrings : Obligations.CrcShortStrings := by
  unfold Obligations.CrcShortStrings
  refine ⟨fun _ _ => crcRem_short, fun b S => crcRem_of_length_one (G := [b]) rfl S,
    fun i s bits hi hs hone hin => ?_⟩
  simp only [List.mem_cons, List.not_mem_nil, or_false] at hi
  rcases hi with rfl | rfl
  · have hexec := execCrcEnc_of_bits hs hin
    rw [crcEncode_of_length_one hone] at hexec
    exact ⟨_, hexec, commit_succeeds ..⟩
  · have hexec := execCrcDec_of_bits hs hin
    rw [crcDecode_of_length_one hone] at hexec
    exact ⟨_, hexec, commit_succeeds ..⟩

/-- Settles O53: the remainder of what arrives is that of its error pattern, and a single flip is a power of `x`. -/
theorem crcDetectsNonMultiples : Obligations.CrcDetectsNonMultiples := by
  unfold Obligations.CrcDetectsNonMultiples
  intro s M hs hin
  refine ⟨_, execCrcEnc_of_bits hs hin, fun E hE => ?_⟩
  rw [State.commit_outBit] at hE ⊢
  have hlen : E.length = M.length + (s.crcGen.drop 1).length := by
    rw [hE, crcEncode_length hs.crcGen_pos, List.length_drop]
  have hlong : s.crcGen.length - 1 ≤ (xorSeq (crcEncode s.crcGen s.crcGen.length M) E).length := by
    rw [xorSeq_length, ← hE, Nat.min_self, hlen, List.length_drop]
    exact Nat.le_add_left ..
  have hs₁ := hs.of_samePersistent (t := { s.commit {} [] (crcEncode s.crcGen s.crcGen.length M) [] with
    inBit := cellsOf (xorSeq (crcEncode s.crcGen s.crcGen.length M) E) })
    ⟨⟨rfl, rfl, rfl, rfl, rfl, rfl, rfl, rfl, rfl⟩, rfl⟩
  obtain ⟨u, hu, hok, hdetect⟩ := execCrcDec_detect hs₁ rfl hlong
  have hmultiple := hdetect.trans (crcRem_received_eq_zeros_iff hs.crcGen_pos M hE)
  refine ⟨u, hu, hok, hmultiple, fun hone hflip => ?_, fun hbare hflip hpayload => ?_⟩
  · exact Bool.eq_true_of_not_eq_false (mt hmultiple.1 (not_polyOf_dvd_of_count_one hone hflip))
  · exact hmultiple.2 (polyOf_dvd_of_count_one hbare hflip hlen hpayload)

/-- Settles O19: a generator of at least one bit is stored as it is, and the other operands are rejected. -/
theorem crcCfgSetsGenerator : Obligations.CrcCfgSetsGenerator := by
  unfold Obligations.CrcCfgSetsGenerator
  refine ⟨decode_encode .crcCfg, fun s => ?_⟩
  by_cases hrej : ∀ bits, s.param = .pGen (cellsOf bits) → bits = []
  · have hexec : exec .crcCfg s = _ := execCrcCfg_of_rejected hrej
    obtain ⟨hhost, hunits, -⟩ := unitsOwnTheirState .crcCfg s _ hexec
    have hok : Succeeds (s.configured true) { rej := true } [] [] [] := commit_succeeds ..
    exact ⟨_, hexec, hunits, hhost, fun bits hp hne => absurd (hrej bits hp) hne,
      fun _ => ⟨hok, rfl, rfl⟩, fun _ _ _ => ⟨hok, rfl, rfl⟩, fun _ _ => ⟨hok, rfl, rfl⟩⟩
  · push Not at hrej
    obtain ⟨bits, hp, hne⟩ := hrej
    have hexec : exec .crcCfg s = _ := execCrcCfg_of_bits hp hne
    obtain ⟨hhost, hunits, -⟩ := unitsOwnTheirState .crcCfg s _ hexec
    have hgen : ∀ {g : CellSeq}, s.param = .pGen g → g = cellsOf bits := fun hp' =>
      Param.pGen.inj (hp'.symm.trans hp)
    refine ⟨_, hexec, hunits, hhost, fun bits' hp' _ => ?_, fun hp' => ?_, fun g hp' hbx => ?_, fun z hp' => ?_⟩
    · obtain rfl := cellsOf_injective (hgen hp')
      exact ⟨commit_succeeds .., rfl, rfl⟩
    · exact absurd (cellsOf_injective (hgen (g := cellsOf []) hp')).symm hne
    · exact absurd (hgen hp' ▸ hbx) (bX_notMem_cellsOf bits)
    · exact Param.noConfusion (hp'.symm.trans hp)

end Sys2Proof.Machine
end

section
/-! The Hamming(7,4) unit (spec/47_hamming74.md R300 to R313). -/

namespace Sys2Proof.Machine

/-! ## The code (R300, R301, R303) -/

/-- The code is linear: the places where two codewords differ are a codeword, that of the difference of their data
bits. -/
theorem xorSeq_hamCode (a b c d a' b' c' d' : Bit) :
    xorSeq (hamCode a b c d) (hamCode a' b' c' d') = hamCode (a ^^ a') (b ^^ b') (c ^^ c') (d ^^ d') := by
  simp [xorSeq, hamCode, Bool.xor_left_comm]

/-- Every codeword but that of four zeros has at least three ones. -/
theorem three_le_count_hamCode : ∀ a b c d : Bit, [a, b, c, d] ≠ [false, false, false, false] →
    3 ≤ (hamCode a b c d).count true := by
  decide

/-! ## `HAM.ENC` (R302) -/

/-- The encoder on whole blocks writes their codewords one after the other. -/
theorem hamEncode_flatten {blks : List BitSeq} (h : ∀ d ∈ blks, d.length = 4) :
    hamEncode blks.flatten = blks.flatMap hamWord := by
  induction blks with
  | nil => rfl
  | cons d blks ih =>
    rw [List.forall_mem_cons] at h
    obtain ⟨hd, hblks⟩ := h
    match d, hd with
    | [d0, d1, d2, d3], _ =>
      rw [List.flatten_cons, List.flatMap_cons, ← ih hblks]
      rfl

/-- The padded operand is whole blocks of four. -/
theorem exists_hamBlocks (m : BitSeq) :
    ∃ blks : List BitSeq, hamPadded m = blks.flatten ∧ ∀ d ∈ blks, d.length = 4 := by
  have hwhole : (hamPadded m).length % 4 = 0 := by
    rw [hamPadded, List.length_append, List.length_replicate]
    exact (hamPad_spec m.length).2
  obtain ⟨blks, hblks, -, hlen⟩ :=
    exists_blocks _ (hamPadded m) (Nat.div_mul_cancel (Nat.dvd_of_mod_eq_zero hwhole)).symm
  exact ⟨blks, hblks, hlen⟩

theorem execHamEnc_of_firstBX {s : State} {i : Nat} (h : firstBX s.inBit = some i) :
    execHamEnc s = .next (s.raise (.encNonBinary i)) := by
  simp only [execHamEnc, alphabetCheck_of_first h]

theorem execHamEnc_of_bits {s : State} {bits : BitSeq} (h : s.inBit = cellsOf bits) : execHamEnc s =
    .next (s.commit { pad := BitVec.ofNat 2 (hamPad bits.length) } [] (hamEncode (hamPadded bits)) []) := by
  simp only [execHamEnc, h, alphabetCheck_cellsOf, hamPadded]

/-! ## The received blocks (R305 to R309, R312) -/

/-- Which parity bits disagree with the data bits tells which bit to flip, if any, to have a codeword (R308). -/
theorem exists_hamReceived {blk : BitSeq} (h : blk.length = 7) :
    ∃ (d : BitSeq) (q : Option Nat), d.length = 4 ∧ (∀ i ∈ q, i < 7) ∧ blk = hamReceived (d, q) := by
  match blk, h with
  | [c0, c1, c2, c3, c4, c5, c6], _ =>
    have hdiff (p c : Bit) : ∃ e, c = (p ^^ e) := ⟨p ^^ c, by simp⟩
    obtain ⟨e4, rfl⟩ := hdiff (c0 ^^ c1 ^^ c2) c4
    obtain ⟨e5, rfl⟩ := hdiff (c1 ^^ c2 ^^ c3) c5
    obtain ⟨e6, rfl⟩ := hdiff (c0 ^^ c2 ^^ c3) c6
    match e4, e5, e6 with
    | false, false, false => exact ⟨[c0, c1, c2, c3], none, rfl, by simp, by simp [hamReceived, hamWord]⟩
    | true, false, true => exact ⟨[!c0, c1, c2, c3], some 0, rfl, by simp, by simp [hamReceived, hamWord]⟩
    | true, true, false => exact ⟨[c0, !c1, c2, c3], some 1, rfl, by simp, by simp [hamReceived, hamWord]⟩
    | true, true, true => exact ⟨[c0, c1, !c2, c3], some 2, rfl, by simp, by simp [hamReceived, hamWord]⟩
    | false, true, true => exact ⟨[c0, c1, c2, !c3], some 3, rfl, by simp, by simp [hamReceived, hamWord]⟩
    | true, false, false => exact ⟨[c0, c1, c2, c3], some 4, rfl, by simp, by simp [hamReceived, hamWord]⟩
    | false, true, false => exact ⟨[c0, c1, c2, c3], some 5, rfl, by simp, by simp [hamReceived, hamWord]⟩
    | false, false, true => exact ⟨[c0, c1, c2, c3], some 6, rfl, by simp, by simp [hamReceived, hamWord]⟩

/-- A codeword of four data bits with no bit flipped or with one (R312). -/
def HamReceivable (p : BitSeq × Option Nat) : Prop := p.1.length = 4 ∧ ∀ i ∈ p.2, i < 7

theorem hamReceived_length {p : BitSeq × Option Nat} (h : HamReceivable p) : (hamReceived p).length = 7 := by
  obtain ⟨d, q⟩ := p
  obtain ⟨hd, -⟩ := h
  have hword : (hamWord d).length = 7 := by rw [hamWord, List.length_append, hd]; rfl
  cases q with
  | none => exact hword
  | some i => rw [hamReceived, List.length_set, hword]

/-- The classification finds the data bits again, and the flip (R307, R308). -/
theorem hamDecodeBlock_hamReceived {p : BitSeq × Option Nat} (h : HamReceivable p) (j : Nat) :
    hamDecodeBlock j ((hamReceived p).getD 0 false) ((hamReceived p).getD 1 false) ((hamReceived p).getD 2 false)
      ((hamReceived p).getD 3 false) ((hamReceived p).getD 4 false) ((hamReceived p).getD 5 false)
      ((hamReceived p).getD 6 false) = .ok (p.1, (hamRecord (p, j)).toList) := by
  obtain ⟨d, q⟩ := p
  obtain ⟨hd, hq⟩ := h
  rw [hamDecodeBlock_table]
  match d, hd with
  | [d0, d1, d2, d3], _ =>
    cases q with
    | none => simp [hamReceived, hamWord, hamRecord]
    | some i =>
      have hi : i < 7 := hq i rfl
      interval_cases i <;> simp [hamReceived, hamWord, hamRecord]

/-! ## `HAM.DEC` (R304) -/

/-- Received blocks one after the other give their data bits, and the record of each flip. -/
theorem hamDecodeBlocks_hamReceived {blks : List (BitSeq × Option Nat)} (h : ∀ p ∈ blks, HamReceivable p) (j : Nat) :
    hamDecodeBlocks j (blks.flatMap hamReceived) =
      .ok (blks.flatMap Prod.fst, (blks.zipIdx j).filterMap hamRecord) := by
  induction blks generalizing j with
  | nil => rfl
  | cons p blks ih =>
    rw [List.forall_mem_cons] at h
    obtain ⟨hp, hblks⟩ := h
    rw [List.flatMap_cons, hamDecodeBlocks_append (hamReceived_length hp) (hamDecodeBlock_hamReceived hp j),
      ih hblks (j + 1)]
    simp only [List.flatMap_cons, List.zipIdx_cons, List.filterMap_cons]
    cases hamRecord (p, j) <;> rfl

/-- There is a record when a block has a flip. -/
theorem corrOf_hamRecords (blks : List (BitSeq × Option Nat)) (j : Nat) :
    corrOf ((blks.zipIdx j).filterMap hamRecord) = blks.any fun p => p.2.isSome := by
  induction blks generalizing j with
  | nil => rfl
  | cons p blks ih =>
    obtain ⟨d, q⟩ := p
    cases q with
    | none => exact ih (j + 1)
    | some i => by_cases hi : i < 4 <;> simp [hamRecord, hi, corrOf]

theorem hamDecode_hamReceived {blks : List (BitSeq × Option Nat)} (h : ∀ p ∈ blks, HamReceivable p) :
    hamDecode (blks.flatMap hamReceived) = .ok ({ corr := blks.any fun p => p.2.isSome }, blks.flatMap Prod.fst,
      blks.zipIdx.filterMap hamRecord) := by
  have hlen : (blks.flatMap hamReceived).length % 7 = 0 := by
    rw [List.flatMap_def, flatten_length_of_blocks (List.forall_mem_map.2 fun p hp => hamReceived_length (h p hp)),
      Nat.mul_mod_left]
  simp only [hamDecode, if_pos hlen, hamDecodeBlocks_hamReceived h, corrOf_hamRecords]

theorem hamDecode_of_badLength {bits : BitSeq} (h : bits.length % 7 ≠ 0) :
    hamDecode bits = .error (.badLength bits.length) := by
  rw [hamDecode, if_neg h]

theorem execHamDec_of_firstBX {s : State} {i : Nat} (h : firstBX s.inBit = some i) :
    execHamDec s = .next (s.raise (.decNonBinary i)) := by
  simp only [execHamDec, alphabetCheck_of_first h]

theorem execHamDec_of_bits {s : State} {bits : BitSeq} (h : s.inBit = cellsOf bits) :
    execHamDec s = .next (s.endBits (hamDecode bits)) := by
  simp only [execHamDec, h, alphabetCheck_cellsOf]

theorem exists_execHamDec (s : State) : ∃ t, execHamDec s = .next t := by
  rcases alphabetCheck_cases .decNonBinary s.inBit with ⟨_, hbad, -⟩ | ⟨_, hbits, -, -⟩
  · exact ⟨_, execHamDec_of_firstBX hbad⟩
  · exact ⟨_, execHamDec_of_bits hbits⟩

/-! ## The obligations -/

/-- Settles O58: `HAM.ENC` accepts the cells of a bit string, and `HAM.DEC` gives back the bits it encoded, the
zeros reported in `PAD` behind them. -/
theorem hamRoundTrip : Obligations.HamRoundTrip := by
  unfold Obligations.HamRoundTrip
  intro s m syms p rest hhost
  have henc : exec .hamEnc (s.presented 0x60#8 syms (cellsOf m) p (.chain 0x61#8 :: rest)) = _ :=
    execHamEnc_of_bits rfl
  obtain ⟨hstep, u, hchain, hout⟩ := steps_of_chained (i := .hamEnc) (j := .hamDec) hhost henc
    (execHamDec_of_decode rfl (hamDecode_hamEncode m))
  refine ⟨_, u, hstep, statusErr_okStatus _, hchain, ?_, ?_⟩ <;>
    rw [State.commit_status, statusPad_okStatus, toNat_ofNat_hamPad]
  · exact (commit_succeeds ..).of_sameOutcome hout
  · exact (hamPad_spec m.length).2

/-- Settles O55: the alphabet check decides whether the command fails or commits the codewords of the padded
operand's blocks. -/
theorem hamEncWritesCodewords : Obligations.HamEncWritesCodewords := by
  unfold Obligations.HamEncWritesCodewords
  refine ⟨decode_encode .hamEnc, fun s => ?_⟩
  obtain ⟨t, ht⟩ := (execHamEnc_ends s).exists_next
  refine ⟨t, ht, exec_frame (i := .hamEnc) ht (by decide), fun i hi => ?_, fun bits hin => ?_⟩
  · obtain rfl := Host.Outcome.next.inj (ht.symm.trans (execHamEnc_of_firstBX ((firstBX_eq_some_iff ..).2 hi)))
    exact raise_fails (.encNonBinary i) s
  · obtain ⟨blks, hblks, hlen⟩ := exists_hamBlocks bits
    rw [execHamEnc_of_bits hin, hblks, hamEncode_flatten hlen] at ht
    obtain rfl := Host.Outcome.next.inj ht
    exact ⟨_, blks, (hamPad_spec bits.length).1, hlen, hblks.symm, commit_succeeds ..⟩

/-- Settles O56: every block is a received codeword by its syndrome, and the command ends as its classification of
the blocks does. -/
theorem hamDecCorrectsOneFlip : Obligations.HamDecCorrectsOneFlip := by
  unfold Obligations.HamDecCorrectsOneFlip
  refine ⟨fun blk => exists_hamReceived, fun s => ?_⟩
  obtain ⟨t, ht⟩ := exists_execHamDec s
  refine ⟨t, ht, exec_frame (i := .hamDec) ht (by decide), fun i hi => ?_, fun bits hin hbad => ?_,
    fun blks hblks hin => ?_⟩
  · obtain rfl := Host.Outcome.next.inj (ht.symm.trans (execHamDec_of_firstBX ((firstBX_eq_some_iff ..).2 hi)))
    exact raise_fails (.decNonBinary i) s
  · rw [execHamDec_of_bits hin, hamDecode_of_badLength hbad] at ht
    obtain rfl := Host.Outcome.next.inj ht
    exact raise_fails (.badLength _) s
  · obtain rfl := Host.Outcome.next.inj (ht.symm.trans (execHamDec_of_decode hin (hamDecode_hamReceived hblks)))
    exact commit_succeeds ..

/-- Settles O57: two codewords differ where the codeword of their difference has its ones. -/
theorem hamCodewordsAreThreeApart : Obligations.HamCodewordsAreThreeApart := by
  unfold Obligations.HamCodewordsAreThreeApart
  intro a b c d a' b' c' d' hne
  rw [xorSeq_hamCode]
  exact three_le_count_hamCode _ _ _ _ fun hzero => hne (by simpa using hzero)

end Sys2Proof.Machine
end

section
/-! Idle steps and reset (spec/60_exceptions.md R350, spec/70_reset_and_hazards.md R370, R371). -/

namespace Sys2Proof.Machine

theorem step_of_idle {s : State} (h : s.host = []) : step s = .next s := by
  simp only [step, State.nextMove, h]

theorem step_of_reset {s : State} {rest : List HostMove} (h : s.host = .reset :: rest) :
    step s = .next { s with host := rest }.assertReset := by
  simp only [step, State.nextMove, h]

/-- Settles O5: the step takes the move, and a reset keeps of the state the host's side alone. -/
theorem idleAndResetMoves : Obligations.IdleAndResetMoves := by
  unfold Obligations.IdleAndResetMoves
  exact fun s => ⟨step_of_idle, fun rest => step_of_reset⟩

/-- Settles O6: each element is what the definition of the reset state gives it. -/
theorem resetValues : Obligations.ResetValues := by
  unfold Obligations.ResetValues
  exact ⟨rfl, rfl, rfl, rfl, rfl, rfl, rfl, rfl, rfl, rfl, rfl, rfl, rfl, rfl, rfl⟩

end Sys2Proof.Machine
end

section
/-! The table of errors (spec/60_exceptions.md R331, R332). -/

namespace Sys2Proof.Machine

/-! ## Ending with an error -/

/-- The command ends with this error, a pair of `STATUS.ERR` and `ERRINFO.SUB`, from a state with the invariants. -/
def Reaches (i : Instr) (e : Nat × Nat) : Prop :=
  ∃ s t : State, s.Inv ∧ exec i s = .next t ∧ ((statusErr t.status).toNat, t.errInfo.sub) = e

theorem Reaches.of_raise {i : Instr} {s : State} {c : Cause} (hs : s.Inv) (h : exec i s = .next (s.raise c)) :
    Reaches i (c.code.bits.toNat, c.info.sub) :=
  ⟨s, _, hs, h, by rw [State.raise_status, statusErr_errStatus, State.raise_errInfo]⟩

theorem Reaches.of_fails {i : Instr} {s t : State} {code sub index : Nat} {data : CellSeq} (hs : s.Inv)
    (h : exec i s = .next t) (hfail : Fails t code sub index data) (hcode : code < 8) : Reaches i (code, sub) := by
  refine ⟨s, t, hs, h, ?_⟩
  have hbits : (statusErr (BitVec.ofNat 16 code)).toNat = code := by
    rw [statusErr, BitVec.extractLsb'_toNat, BitVec.toNat_ofNat]
    omega
  rw [hfail.status, hfail.errInfo, hbits]

/-- A command that fails ends with an error of its row (R332). -/
theorem exec_error_mem_allowedErrors {i : Instr} {s t : State} (h : exec i s = .next t)
    (hfail : statusErr t.status ≠ 0#3) : ((statusErr t.status).toNat, t.errInfo.sub) ∈ allowedErrors i := by
  obtain ⟨s', -, ⟨rep, syms, bits, dg, rfl⟩ | ⟨c, rfl, hrow⟩⟩ := exec_shape h
  · exact absurd (statusErr_okStatus rep) hfail
  · rwa [State.raise_status, statusErr_errStatus, State.raise_errInfo]

/-! ## Operands that a command refuses -/

/-- The reset state with this text at its port. -/
def resetWithText (m : SymSeq) : State := { State.reset with inSym := m }

/-- The reset state with these cells at its port. -/
def resetWithCells (cells : CellSeq) : State := { State.reset with inBit := cells }

theorem resetWithText_inv (m : SymSeq) : (resetWithText m).Inv :=
  invAtReset.of_samePersistent ⟨⟨rfl, rfl, rfl, rfl, rfl, rfl, rfl, rfl, rfl⟩, rfl⟩

theorem resetWithCells_inv (cells : CellSeq) : (resetWithCells cells).Inv :=
  invAtReset.of_samePersistent ⟨⟨rfl, rfl, rfl, rfl, rfl, rfl, rfl, rfl, rfl⟩, rfl⟩

theorem firstBad_bX : FirstBad [.bX] 0 := ⟨rfl, fun _ hj => absurd hj (Nat.not_lt_zero _)⟩

/-! ## The universal decoders (R127, R128, R124) -/

/-- A universal decoder ends with each error of its row, on a `BX` cell, on a codeword that is cut, and on one
whose value is no symbol. -/
theorem reaches_of_decodesBy {i : Instr} {word : Nat → BitSeq → Prop} {cut : BitSeq → Prop}
    (hdec : ∀ cells, ∃ t, exec i (resetWithCells cells) = .next t ∧ DecodesBy word cut (resetWithCells cells) t)
    (hcut : ∃ b, cut b) (hword : ∃ v b, word v b ∧ Config.symMax < v) :
    ∀ e ∈ [(2, 1), (2, 3), (2, 4)], Reaches i e := by
  obtain ⟨b, hb⟩ := hcut
  obtain ⟨v, w, hw, hv⟩ := hword
  have hnone : ∀ p ∈ ([] : List (Sym × BitSeq)), word p.1.val p.2 := nofun
  have hbad : Reaches i (2, 1) := by
    obtain ⟨t, ht, hdecodes⟩ := hdec [.bX]
    exact .of_fails (resetWithCells_inv _) ht (hdecodes.nonBinary 0 firstBad_bX) (by decide)
  have htruncated : Reaches i (2, 3) := by
    obtain ⟨t, ht, hdecodes⟩ := hdec (cellsOf b)
    exact .of_fails (resetWithCells_inv _) ht (hdecodes.truncated [] b hnone hb rfl) (by decide)
  have hrange : Reaches i (2, 4) := by
    obtain ⟨t, ht, hdecodes⟩ := hdec (cellsOf (w ++ []))
    exact .of_fails (resetWithCells_inv _) ht (hdecodes.outOfRange [] v w [] hnone hw hv rfl) (by decide)
  simpa using ⟨hbad, htruncated, hrange⟩

/-- Golomb-Rice codewords have values of any size: the quotient is unbounded (R150). -/
theorem exists_grWord_gt {k : Nat} (hk : 1 ≤ k) (w n : Nat) : ∃ v b, grWord k w v b ∧ n < v := by
  refine ⟨_, _, ⟨n + 1, List.replicate w false, List.length_replicate, rfl, rfl⟩, ?_⟩
  have hq : n + 1 ≤ k * (n + 1) := Nat.le_mul_of_pos_left _ hk
  omega

/-- Elias-Gamma codewords have values of any size: the suffix is unbounded (R170). -/
theorem exists_egWord_gt (n : Nat) : ∃ v b, egWord v b ∧ n < v := by
  refine ⟨_, _, ⟨List.replicate n false, rfl, rfl⟩, ?_⟩
  rw [List.length_replicate]
  exact Nat.lt_two_pow_self.trans_le (Nat.le_add_right ..)

/-- Every positive number has a Zeckendorf codeword (R193). -/
theorem exists_fibWord {v : Nat} (hv : 1 ≤ v) : ∃ b, fibWord v b := by
  obtain ⟨-, -, b, -, hpair, hsum, -⟩ := fibEncodeOne_spec fibCacheOk_seed hv
  exact ⟨_, b, rfl, hpair, hsum.symm⟩

theorem grDec_reaches : ∀ e ∈ allowedErrors .grDec, Reaches .grDec e := by
  refine reaches_of_decodesBy (word := grWord State.reset.grK State.reset.grSuflen)
    (cut := grCut State.reset.grSuflen) (fun cells => ?_) ⟨[false], .inl ⟨1, le_rfl, rfl⟩⟩
    (exists_grWord_gt invAtReset.grK_pos _ _)
  obtain ⟨t, ht⟩ := exists_execGrDec (resetWithCells cells)
  exact ⟨t, ht, execGrDec_decodesBy ht⟩

theorem egDec_reaches : ∀ e ∈ allowedErrors .egDec, Reaches .egDec e :=
  reaches_of_decodesBy (fun cells => exists_execEgDec_decodesBy (resetWithCells cells))
    ⟨[false], .inl ⟨1, le_rfl, rfl⟩⟩ (exists_egWord_gt _)

theorem fibDec_reaches : ∀ e ∈ allowedErrors .fibDec, Reaches .fibDec e := by
  refine reaches_of_decodesBy (fun cells => exists_execFibDec_decodesBy (resetWithCells_inv cells).fibCache_ok)
    ⟨[false], by simp, noPair_nil.append_false⟩ ⟨Config.symMax + 1, ?_⟩
  obtain ⟨b, hb⟩ := exists_fibWord (Nat.le_add_left 1 Config.symMax)
  exact ⟨b, hb, Nat.lt_succ_self _⟩

/-! ## `HUF.DEC` (R216) -/

/-- The reset state with the tree of a text, and these cells at its port. -/
def resetWithTree (m : SymSeq) (cells : CellSeq) : State := (resetWithCells cells).installTree (hufBuild m)

theorem resetWithTree_inv (m : SymSeq) (cells : CellSeq) : (resetWithTree m cells).Inv :=
  (resetWithCells_inv cells).installTree m

/-- A `1` under the tree of three symbols leads to an inner node, the operand's end cuts the code there; and under the
tree of the empty text there is no code at all. -/
theorem hufDec_reaches : ∀ e ∈ allowedErrors .hufDec, Reaches .hufDec e := by
  have hbad : Reaches .hufDec (2, 1) := .of_raise (c := .decNonBinary 0) (resetWithTree_inv [] [.bX]) rfl
  have htruncated : Reaches .hufDec (2, 3) := .of_raise (c := .truncated 0) (resetWithTree_inv [0, 1, 2] [.b1]) rfl
  have hnoCode : Reaches .hufDec (2, 5) := .of_raise (c := .noSuchCode 0) (resetWithTree_inv [] [.b0]) rfl
  have hnoTree : Reaches .hufDec (4, 1) := .of_raise (c := .noTree) (resetWithCells_inv []) rfl
  simpa [allowedErrors] using ⟨hbad, htruncated, hnoCode, hnoTree⟩

/-! ## The commands on blocks (R68, R122, R242) -/

/-- One cell is no operand of a decoder of blocks, whether it is binary or not: the reset parameters need more. -/
theorem blockDec_reaches {i : Instr} (hi : i ∈ [Instr.repDec, .crcDec, .hamDec]) :
    ∀ e ∈ [(2, 1), (2, 2)], Reaches i e := by
  have hbad : Reaches i (2, 1) := by
    refine .of_raise (c := .decNonBinary 0) (resetWithCells_inv [.bX]) ?_
    simp only [List.mem_cons, List.not_mem_nil, or_false] at hi
    rcases hi with rfl | rfl | rfl <;> rfl
  have hlen : Reaches i (2, 2) := by
    refine .of_raise (c := .badLength 1) (resetWithCells_inv [.b0]) ?_
    simp only [List.mem_cons, List.not_mem_nil, or_false] at hi
    rcases hi with rfl | rfl | rfl <;> rfl
  simpa using ⟨hbad, hlen⟩

/-- Two different bits are a tie for the factor 2 (R242). -/
theorem repDec_reaches_tie : Reaches .repDec (3, 1) :=
  .of_raise (c := .tie 0 [.b0, .b1]) ((resetWithCells_inv [.b0, .b1]).setRep one_le_two) rfl

theorem repDec_reaches : ∀ e ∈ allowedErrors .repDec, Reaches .repDec e := by
  have hblock := blockDec_reaches (i := .repDec) (by decide)
  simp only [List.forall_mem_cons] at hblock
  obtain ⟨hbad, hlen, -⟩ := hblock
  simpa [allowedErrors] using ⟨hbad, hlen, repDec_reaches_tie⟩

/-! ## The encoders (R122, R123) -/

theorem enc_reaches_zeroSymbol {i : Instr} (hi : i ∈ [Instr.egEnc, .fibEnc]) : Reaches i (1, 1) := by
  refine .of_raise (c := .zeroSymbol 0) (resetWithText_inv [0]) ?_
  simp only [List.mem_cons, List.not_mem_nil, or_false] at hi
  rcases hi with rfl | rfl <;> rfl

theorem enc_reaches_nonBinary {i : Instr} (hi : i ∈ [Instr.repEnc, .crcEnc, .hamEnc]) : Reaches i (1, 2) := by
  refine .of_raise (c := .encNonBinary 0) (resetWithCells_inv [.bX]) ?_
  simp only [List.mem_cons, List.not_mem_nil, or_false] at hi
  rcases hi with rfl | rfl | rfl <;> rfl

/-- Settles O10: a command ends as its shape says, and each error of its row has its operand. -/
theorem errorTable : Obligations.ErrorTable := by
  unfold Obligations.ErrorTable
  refine ⟨fun i s t => exec_error_mem_allowedErrors, fun i e he => ?_⟩
  cases i
  case egEnc | fibEnc => exact List.mem_singleton.1 he ▸ enc_reaches_zeroSymbol (by decide)
  case repEnc | crcEnc | hamEnc => exact List.mem_singleton.1 he ▸ enc_reaches_nonBinary (by decide)
  case grDec => exact grDec_reaches e he
  case egDec => exact egDec_reaches e he
  case fibDec => exact fibDec_reaches e he
  case hufDec => exact hufDec_reaches e he
  case repDec => exact repDec_reaches e he
  case crcDec | hamDec => exact blockDec_reaches (by decide) e he
  all_goals exact absurd he List.not_mem_nil

end Sys2Proof.Machine
end
